-- ==== Sys2Proof/Word.lean ====
section
/-! DEFINITION. The word types of the machine: bytes, 16-bit halves (selectors, error codes) and
32-bit words (registers, addresses). All values are unsigned (00_scope.md R9, R15). -/

namespace Sys2Proof

/-- A byte, the unit of address (20_memory.md R60). -/
abbrev Byte := BitVec 8

/-- A 16-bit value: a segment selector, a table limit, an error code, a 16-bit TSS field. -/
abbrev Half := BitVec 16

/-- A 32-bit value: a general register, EIP, EFLAGS, a linear or physical address. -/
abbrev Word := BitVec 32

end Sys2Proof
end

