-- ==== Sys2Proof/Config.lean ====
section
/-! DEFINITION. What an implementation fixes (the parameters of 00_scope.md R8) and the free values
(00_scope.md R9). The free values have no body: nothing can evaluate them. -/

namespace Sys2Proof.Config

/-- The names of the checks of Table 6-1 (42_task_switch.md R164). -/
inductive CheckId where
  | k1 | k2 | k3 | k4 | k5 | k6 | k7 | k8 | k9 | k10 | k11 | k12 | k13 | k14 | k15 | k16 | k17
  deriving DecidableEq, Repr

/-- The order of Table 6-1, "the order used in the P6 family processors" (42_task_switch.md R164). -/
def CheckId.table : List CheckId :=
  [.k1, .k2, .k3, .k4, .k5, .k6, .k7, .k8, .k9, .k10, .k11, .k12, .k13, .k14, .k15, .k16, .k17]

/-- The implementation parameters that are plain data (00_scope.md R8); they stand in the state and
no step changes them, so a claim about every state is a claim about every parameter value (log 11). -/
structure Params where
  /-- `CHECK_ORDER`: the checks by falling priority; a check the list leaves out comes after it,
  in the order of Table 6-1. -/
  checkOrder : List CheckId
  /-- `TSS16_MIN_LIMIT` (20_memory.md R80). -/
  tss16MinLimit : Half
  /-- `CR3_LOAD_NEEDS_PG` (42_task_switch.md R186). -/
  cr3LoadNeedsPg : Bool
  deriving DecidableEq, Repr

/-- The defaults of 00_scope.md R8. -/
def Params.default : Params :=
  { checkOrder := CheckId.table, tss16MinLimit := 0x2C#16, cr3LoadNeedsPg := true }

/-- What an access is for (00_scope.md R8, the "access kind" of `Translate`): the two kinds of 20_memory.md R62.
A fetch is a read (R92). -/
inductive AccessKind where
  | read | write
  deriving DecidableEq, Repr

/-- An access as `Translate` sees it: its kind and the privilege level it is made with. The
processor's own accesses are made with supervisor rights, level 0 (20_memory.md R62). -/
structure Access where
  kind : AccessKind
  level : BitVec 2
  deriving DecidableEq, Repr

/-- `Draw16()` (00_scope.md R9): a free value at each value of the state's counter. -/
opaque draw16 : Nat → Half

/-- `Draw1()` (00_scope.md R9). -/
opaque draw1 : Nat → Bool

/-- `Translate` with paging on (00_scope.md R8, 20_memory.md R62): physical memory, CR3, a linear
address and the access to a physical address, or none for a page fault. It may depend on memory
because the page tables lie there (log 12). -/
opaque translate : List Host.Cell → Word → Word → Access → Option Word

/-- The free values and the translation, bundled, so that the shared operations can be run on
concrete ones in a test. -/
structure Env where
  draw16 : Nat → Half
  draw1 : Nat → Bool
  translate : List Host.Cell → Word → Word → Access → Option Word

/-- The machine's own environment: the three uninterpreted constants. -/
def env : Env := { draw16 := draw16, draw1 := draw1, translate := translate }

end Sys2Proof.Config
end

