-- ==== Sys2Proof/Syntax.lean ====
section
/-! DEFINITION. The instructions, one constructor per row of opcode_table.json
(30_encoding.md R111, R115), with their operands decoded. -/

namespace Sys2Proof

/-- The eight general registers (10_state.md R20). -/
inductive Reg where
  | eax | ecx | edx | ebx | esp | ebp | esi | edi
  deriving DecidableEq, Repr

/-- The six segment registers (10_state.md R25). -/
inductive SegName where
  | es | cs | ss | ds | fs | gs
  deriving DecidableEq, Repr

/-- The operand size (30_encoding.md R113). -/
inductive OpSize where
  | w16 | w32
  deriving DecidableEq, Repr

/-- A memory operand with 32-bit address size (30_encoding.md R114): the segment in effect (the
override, else the default), the base, the index with its scale, the displacement. -/
structure MemRef where
  seg : SegName
  base : Option Reg
  index : Option (Reg × BitVec 2)
  disp : Word
  deriving DecidableEq, Repr

/-- The destination of STR (40_task_register_instructions.md R131). -/
inductive StrDest where
  | reg16 (r : Reg)
  | reg32 (r : Reg)
  | mem (m : MemRef)
  deriving DecidableEq, Repr

/-- The source of LTR: the low half of a register, or 16 bits of memory (R130). -/
inductive LtrSrc where
  | reg (r : Reg)
  | mem (m : MemRef)
  deriving DecidableEq, Repr

/-- The instructions (30_encoding.md R115). -/
inductive Instr where
  /-- `STR r/m16` (R131). -/
  | strRm16 (dst : StrDest)
  /-- `LTR r/m16` (R130). -/
  | ltrRm16 (src : LtrSrc)
  /-- `CALL ptr16:32` (R142). -/
  | callPtr32 (sel : Half) (off : Word)
  /-- `CALL ptr16:16` (R142); the offset is zero-extended when used (R116). -/
  | callPtr16 (sel : Half) (off : Half)
  /-- `CALL m16:32` and `CALL m16:16` (R142, R117): the operand size gives the pointer's format. -/
  | callMem (size : OpSize) (m : MemRef)
  /-- `JMP ptr16:32` (R141). -/
  | jmpPtr32 (sel : Half) (off : Word)
  /-- `JMP ptr16:16` (R141). -/
  | jmpPtr16 (sel : Half) (off : Half)
  /-- `JMP m16:32` and `JMP m16:16` (R141, R117). -/
  | jmpMem (size : OpSize) (m : MemRef)
  /-- `IRET` (operand size 16) and `IRETD` (32) (R146, R120). -/
  | iret (size : OpSize)
  /-- `INT imm8` (R147). -/
  | intImm8 (n : Byte)
  deriving DecidableEq, Repr

end Sys2Proof
end

