-- ==== Sys2Proof/Machine/Bits.lean ====
section
/-! DEFINITION. Byte order and register numbers: the helpers that decoding, memory and the
instructions share. -/

namespace Sys2Proof

/-- The number a list of bytes stands for, lowest-addressed byte first: little-endian
(20_memory.md R61). -/
def leNat : List Byte → Nat
  | [] => 0
  | b :: bs => b.toNat + 256 * leNat bs

/-- The little-endian value of a list of bytes at a given width (20_memory.md R61, R62). -/
def ofLe (w : Nat) (bs : List Byte) : BitVec w := BitVec.ofNat w (leNat bs)

/-- The low `n` bytes of a number, lowest-addressed byte first (20_memory.md R61, R62). -/
def toLe : Nat → Nat → List Byte
  | 0, _ => []
  | n + 1, v => BitVec.ofNat 8 v :: toLe n (v / 256)

/-- The two bytes of a 16-bit value in memory order. -/
def Half.bytes (v : Half) : List Byte := toLe 2 v.toNat

/-- The four bytes of a 32-bit value in memory order. -/
def Word.bytes (v : Word) : List Byte := toLe 4 v.toNat

/-- A general register's number (10_state.md R20). -/
def Reg.num : Reg → BitVec 3
  | .eax => 0#3 | .ecx => 1#3 | .edx => 2#3 | .ebx => 3#3
  | .esp => 4#3 | .ebp => 5#3 | .esi => 6#3 | .edi => 7#3

/-- The general register with a number (10_state.md R20). -/
def Reg.ofNum (n : BitVec 3) : Reg :=
  if n = 0#3 then .eax else if n = 1#3 then .ecx else if n = 2#3 then .edx
  else if n = 3#3 then .ebx else if n = 4#3 then .esp else if n = 5#3 then .ebp
  else if n = 6#3 then .esi else .edi

end Sys2Proof
end

