-- ==== Sys2Proof/Machine/Memory.lean ====
section
/-! DEFINITION. Physical memory: a list of (address, byte) pairs in one canonical form, and the
operations on it (20_memory.md R60 to R62). -/

namespace Sys2Proof.Machine

/-- Physical memory, 2^32 bytes (20_memory.md R60). An address the list does not hold reads as
`Memory.unlisted`. -/
abbrev Memory := List Host.Cell

namespace Memory

/-- What a byte that nothing has written reads as (DESIGN CHOICE, log 8; 95_test_vectors.md section
2: "Memory not listed is 00H"). -/
def unlisted : Byte := 0x00#8

/-- The number of physical byte addresses (R60). -/
def size : Nat := 2 ^ 32

/-- The byte at an address. -/
def get : Memory → Nat → Byte
  | [], _ => unlisted
  | (k, v) :: t, a => if k = a then v else get t a

/-- A memory without any entry for an address. -/
def erase : Memory → Nat → Memory
  | [], _ => []
  | (k, v) :: t, a => if k = a then erase t a else (k, v) :: erase t a

/-- A memory with an entry put before the first one of a larger address. -/
def insert : Memory → Nat → Byte → Memory
  | [], a, v => [(a, v)]
  | (k, w) :: t, a, v => if k < a then (k, w) :: insert t a v else (a, v) :: (k, w) :: t

/-- A memory with one byte written; writing what an unlisted address reads as takes the entry out,
so equal memories are equal lists. -/
def set (m : Memory) (a : Nat) (v : Byte) : Memory :=
  if v = unlisted then erase m a else insert (erase m a) a v

/-- A memory with bytes written at a list of physical addresses, in order. -/
def setList (m : Memory) : List Word → List Byte → Memory
  | a :: as, b :: bs => setList (m.set a.toNat b) as bs
  | _, _ => m

/-- Every entry's address is above a bound. -/
def above : Memory → Nat → Bool
  | [], _ => true
  | (k, _) :: _, a => decide (a < k)

/-- The canonical form: addresses strictly rising and below the size, no entry that an unlisted
address would read as. -/
def wf : Memory → Bool
  | [] => true
  | (k, v) :: t => decide (k < size) && (v != unlisted) && above t k && wf t

end Memory

/-- Consecutive addresses from one on, modulo 2^32 (00_scope.md R15). -/
def contig (p : Word) : Nat → List Word
  | 0 => []
  | n + 1 => p :: contig (p + 1#32) n

/-- The bytes at a list of physical addresses. -/
def Memory.getList (m : Memory) (ps : List Word) : List Byte := ps.map fun p => m.get p.toNat

end Sys2Proof.Machine
end

