-- ==== Sys2Proof/Machine/State.lean ====
section
/-! DEFINITION. The state of the machine as plain data, the reasons a step can stop, and the state
after reset (10_state.md). -/

namespace Sys2Proof.Machine

/-- The eight general registers (10_state.md R20). -/
structure Gprs where
  eax : Word
  ecx : Word
  edx : Word
  ebx : Word
  esp : Word
  ebp : Word
  esi : Word
  edi : Word
  deriving DecidableEq, Repr

/-- The hidden part of a segment register or of LDTR (R25, R28): base, effective byte-granular
limit, and bits 23:8 of the descriptor's high doubleword. -/
structure Hidden where
  base : Word
  limit : Word
  attr : Half
  deriving DecidableEq, Repr

/-- A segment register or LDTR: the visible selector and the hidden part. `hidden = none` is the
spec's `usable = false` (R25: the hidden part holds nothing a memory access may use; log 28). -/
structure SegReg where
  sel : Half
  hidden : Option Hidden
  deriving DecidableEq, Repr

/-- The task register (R27). `loaded` is the mark of 70_reset_and_hazards.md R263: a successful LTR
or task switch has happened since reset. -/
structure TaskReg where
  sel : Half
  base : Word
  limit : Word
  attr : Half
  loaded : Bool
  deriving DecidableEq, Repr

/-- GDTR and IDTR (R31): the table's linear address and the offset of its last byte. -/
structure TableReg where
  base : Word
  limit : Half
  deriving DecidableEq, Repr

/-- An event the environment presents (00_scope.md R13, 41_task_dispatch.md R148): an external
interrupt with its vector, or an exception with its vector, its error code if it has one, and the
EIP its class saves. -/
inductive Event where
  | intr (n : Byte)
  | exc (n : Byte) (code : Option Half) (retEip : Word)
  deriving DecidableEq, Repr

/-- The machine's state. INVENTORY.md lists every field with its rule and reset value. -/
structure State where
  /-- The general registers (R20). -/
  gpr : Gprs
  /-- EIP (R22): while an instruction executes, its own address. -/
  eip : Word
  /-- `next_eip` (R22, 30_encoding.md R111), latched by the fetch: the model's own field (log 19). -/
  nextEip : Word
  /-- EFLAGS (R23, R24). -/
  eflags : Word
  /-- The six segment registers (R25). -/
  es : SegReg
  cs : SegReg
  ss : SegReg
  ds : SegReg
  fs : SegReg
  gs : SegReg
  /-- LDTR (R28). -/
  ldtr : SegReg
  /-- The task register (R27). -/
  tr : TaskReg
  /-- CR0 (R29). -/
  cr0 : Word
  /-- CR3, the PDBR (R30). -/
  cr3 : Word
  /-- GDTR (R31). -/
  gdtr : TableReg
  /-- IDTR (R31). -/
  idtr : TableReg
  /-- `pending_task_trap` (R32). -/
  pendingTaskTrap : Bool
  /-- The event presented at this boundary: the model's own field (60_exceptions.md R235, R236;
  log 18). -/
  event : Option Event
  /-- Physical memory (20_memory.md R60). -/
  mem : Memory
  /-- How many free values have been drawn: the model's own field (log 10). -/
  draws : Nat
  /-- The implementation parameters, which no step changes: the model's own field (log 11). -/
  params : Config.Params
  deriving DecidableEq, Repr

/-- The exceptions of 60_exceptions.md R230. -/
inductive Exc where
  | ud | db | ts | np | sf | gp | pf
  deriving DecidableEq, Repr

/-- Why the machine stops on an exception. Both hold the outcome `(#X, code, state)` of
60_exceptions.md R233. -/
inductive Fault where
  /-- An exception whose vector has no task gate in the IDT: the spec gives no `Deliver` for it and
  "an exception is the terminal outcome of the run" (R233). Raised by `takeException`. Safe: the
  chip goes on to the handler. -/
  | exception (x : Exc) (code : Option Half) (s : State)
  /-- An exception raised while an event or an exception is being delivered through a task gate
  (U22, R239, R178: "a double fault ... is out of scope"). Raised by `takeException` and
  `deliverEvent`. Safe: the chip goes on to a double fault or the handler. -/
  | exceptionDuringDelivery (x : Exc) (code : Option Half) (s : State)
  deriving DecidableEq, Repr

/-- Why the model gives a step no meaning. Every one is safe: the model has no run where the chip
has one (00_scope.md R14). -/
inductive Refusal where
  /-- An instruction without a meaning in this model. Raised by `exec` only. Safe. -/
  | notModelled (mnemonic : String)
  /-- CR0.PE = 0 or EFLAGS.VM = 1 (70_reset_and_hazards.md R262, 00_scope.md R2). Raised by every
  meaning but LTR and STR, which raise #UD there (30_encoding.md R118), and by the boundary. Safe. -/
  | notProtectedMode
  /-- CS holds no usable code segment (R262, U12). Raised by the boundary. Safe. -/
  | codeSegmentUnusable
  /-- The instruction's bytes are not all inside the code segment's limit (U26, N23), or go past offset
  FFFFFFFFH (R22; log 42). Raised by the fetch. Safe. -/
  | fetchOutsideCodeSegment
  /-- The byte string matches no row of 30_encoding.md R115 (R118). Raised by the fetch. Safe. -/
  | bytesOutsideSpec
  /-- A memory operand with 16-bit address size (R114, U16). Raised by the fetch. Safe. -/
  | addressSize16
  /-- More than 15 bytes (R112). Raised by the fetch. Safe. -/
  | instructionTooLong
  /-- A far JMP or CALL to something that is no TSS descriptor and no task gate (41_task_dispatch.md
  R141 J6, R153, U25). Raised by the far transfers. Safe. -/
  | sameTaskTransfer
  /-- IRET with NT clear (R146 I1, U25). Raised by IRET. Safe. -/
  | sameTaskReturn
  /-- A vector whose IDT entry is no task gate (R147 N4, R148 E4, U24, U25). Raised by INT n and by
  events. Safe. -/
  | sameTaskInterrupt
  /-- A task switch before TR was ever loaded (R263, U14). Raised by the task switch and IRET. Safe. -/
  | taskRegisterNotLoaded
  /-- The two translations of a TSS byte that 20_memory.md R84 admits differ (U3). Raised by the task
  switch and IRET. Safe. -/
  | tssNotContiguous
  /-- A byte of a TSS or TSS descriptor that the switch writes is not writable, or not where it is read
  (20_memory.md R84, R85, 70_reset_and_hazards.md R269, U4). Raised by the task switch. Safe. -/
  | tssNotWritable
  /-- A byte of the GDT or of a task's TSS maps differently under the old and the new CR3 (R271, U6). Raised
  by the task switch. Safe. -/
  | mappingChangesWithCr3
  /-- The new task's EFLAGS image has VM set (42_task_switch.md R186, D24). Raised by the task switch.
  Safe. -/
  | virtual8086Task
  /-- A memory operand through a segment register that is not usable (U12). Raised by the meanings
  with a memory operand. Safe. -/
  | segmentUnusable
  /-- A memory operand that fails its segment's limit or type check, whose fault the spec leaves out
  (30_encoding.md R114, 40_task_register_instructions.md R131). Raised by the meanings with a memory
  operand. Safe. -/
  | segmentCheckFails
  /-- The push of an exception's error code on the new task's stack fails its segment's checks
  (41_task_dispatch.md R151). Raised by the delivery of an exception. Safe. -/
  | errorCodePushFails
  deriving DecidableEq, Repr

/-- What an operation that cannot go on hands up: an exception with the state it is raised in
(60_exceptions.md R233), or a refusal. -/
inductive Stop where
  | raised (x : Exc) (code : Option Half) (s : State)
  | refused (r : Refusal)
  deriving DecidableEq, Repr

/-- The six kinds of task switch (41_task_dispatch.md R140). -/
inductive SwitchKind where
  | jmp | call | intN | intr | exc | iret
  deriving DecidableEq, Repr

/-- What a step answers. -/
abbrev Result := Host.Outcome State Fault Refusal

/-! ## Named updates -/

namespace State

def setGpr (s : State) (v : Gprs) : State := { s with gpr := v }
def setEip (s : State) (v : Word) : State := { s with eip := v }
def setNextEip (s : State) (v : Word) : State := { s with nextEip := v }
def setEflags (s : State) (v : Word) : State := { s with eflags := v }
def setLdtr (s : State) (v : SegReg) : State := { s with ldtr := v }
def setTr (s : State) (v : TaskReg) : State := { s with tr := v }
def setCr0 (s : State) (v : Word) : State := { s with cr0 := v }
def setCr3 (s : State) (v : Word) : State := { s with cr3 := v }
def setTrap (s : State) (v : Bool) : State := { s with pendingTaskTrap := v }
def setEvent (s : State) (v : Option Event) : State := { s with event := v }
def setMem (s : State) (v : Memory) : State := { s with mem := v }
def setDraws (s : State) (v : Nat) : State := { s with draws := v }

/-- The six segment registers written together (step 13 of a task switch loads all of them). -/
def setSegs (s : State) (es cs ss ds fs gs : SegReg) : State :=
  { s with es := es, cs := cs, ss := ss, ds := ds, fs := fs, gs := gs }

end State

/-! ## Reset -/

/-- A flat 32-bit code segment: base 0, limit FFFFFFFFH, DPL 0, D = 1 (20_memory.md R66, R69). -/
def Hidden.flatCode : Hidden := { base := 0#32, limit := 0xFFFFFFFF#32, attr := 0xCF9A#16 }

/-- A flat writable data segment: base 0, limit FFFFFFFFH, DPL 0 (R66, R69). -/
def Hidden.flatData : Hidden := { base := 0#32, limit := 0xFFFFFFFF#32, attr := 0xCF92#16 }

/-- The reset vector. 10_state.md R47: the spec gives none and no rule depends on it. DESIGN CHOICE (log 4). -/
def resetVector : Word := 0x00010000#32

/-- CR0 after reset, and with it the initial mode: protected, paging off. 10_state.md R47: the spec gives
none; R262 asks for PE = 1. DESIGN CHOICE (log 1). -/
def resetCr0 : Word := 0x00000001#32

/-- EFLAGS after reset, and with it the initial interrupt mask: IF = 0. 10_state.md R47: the spec gives none.
PRESUMED, the value R45 names from outside the source (log 1). -/
def resetEflags : Word := 0x00000002#32

/-- The state after reset. TR's selector, base and limit are the spec's (10_state.md R44), and so
is `pendingTaskTrap` (R46); the spec gives no other reset value (R45), no reset vector, initial mode or
interrupt mask (R47), and takes every other register from `INITIAL_STATE` (70_reset_and_hazards.md R261)
within R262: the values here are this model's (log 1 to 8). -/
def State.reset : State where
  gpr := { eax := 0#32, ecx := 0#32, edx := 0#32, ebx := 0#32,
           esp := 0#32, ebp := 0#32, esi := 0#32, edi := 0#32 }
  eip := resetVector
  nextEip := 0#32
  eflags := resetEflags
  es := { sel := 0x0010#16, hidden := some .flatData }
  cs := { sel := 0x0008#16, hidden := some .flatCode }
  ss := { sel := 0x0010#16, hidden := some .flatData }
  ds := { sel := 0x0010#16, hidden := some .flatData }
  fs := { sel := 0x0010#16, hidden := some .flatData }
  gs := { sel := 0x0010#16, hidden := some .flatData }
  ldtr := { sel := 0x0000#16, hidden := none }
  tr := { sel := 0x0000#16, base := 0#32, limit := 0x0000FFFF#32, attr := 0x008B#16, loaded := false }
  cr0 := resetCr0
  cr3 := 0#32
  gdtr := { base := 0#32, limit := 0xFFFF#16 }
  idtr := { base := 0#32, limit := 0xFFFF#16 }
  pendingTaskTrap := false
  event := none
  mem := []
  draws := 0
  params := Config.Params.default

end Sys2Proof.Machine
end

