-- ==== Sys2Proof/Machine/Flags.lean ====
section
/-! DEFINITION. The fields of EFLAGS and CR0 that the spec names, and every computation on them
(10_state.md R23, R24, R29). No instruction of the spec writes an arithmetic flag (00_scope.md R15). -/

namespace Sys2Proof.Machine

/-- NT, EFLAGS bit 14 (R23). -/
def flagNT (f : Word) : Bool := f.getLsbD 14

/-- IF, EFLAGS bit 9 (R24). -/
def flagIF (f : Word) : Bool := f.getLsbD 9

/-- VM, EFLAGS bit 17 (R24). -/
def flagVM (f : Word) : Bool := f.getLsbD 17

/-- EFLAGS with NT set. -/
def setNT (f : Word) : Word := f ||| 0x00004000#32

/-- EFLAGS with NT clear. -/
def clearNT (f : Word) : Word := f &&& 0xFFFFBFFF#32

/-- PE, CR0 bit 0 (R29). -/
def cr0PE (c : Word) : Bool := c.getLsbD 0

/-- TS, CR0 bit 3 (R29). -/
def cr0TS (c : Word) : Bool := c.getLsbD 3

/-- PG, CR0 bit 31 (R29). -/
def cr0PG (c : Word) : Bool := c.getLsbD 31

/-- CR0 with TS set (42_task_switch.md R176). -/
def setTS (c : Word) : Word := c ||| 0x00000008#32

/-- The EFLAGS positions without a meaning in the family: 1, 3, 5, 15 and 22 to 31 (PRESUMED, log 26). -/
def flagsReserved : Word := 0xFFC0802A#32

/-- What those positions read: bit 1 reads 1 (R24), the others 0 (PRESUMED, log 26). -/
def flagsFixed : Word := 0x00000002#32

/-- The EFLAGS register after loading a TSS image (42_task_switch.md R186). An image whose reserved
positions hold their fixed values is loaded as it is. In any other image each reserved position takes
the image's bit or its fixed value, as the free value `pick` says (U9); bit 1 reads 1 (R24). -/
def loadFlags (pick image : Word) : Word :=
  if image &&& flagsReserved = flagsFixed then image
  else (image &&& ~~~flagsReserved) ||| (image &&& flagsReserved &&& pick) ||| flagsFixed

/-- Whether a kind of switch nests the new task in the old one (41_task_dispatch.md R140). -/
def SwitchKind.nesting : SwitchKind → Bool
  | .jmp => false
  | .call => true
  | .intN => true
  | .intr => true
  | .exc => true
  | .iret => false

/-- Whether a kind of switch clears the old task's busy flag (42_task_switch.md R169). -/
def SwitchKind.clearsOldBusy : SwitchKind → Bool
  | .jmp => true
  | .iret => true
  | _ => false

/-- Step 7: the EFLAGS image saved for the old task (42_task_switch.md R170). -/
def savedFlags (kind : SwitchKind) (f : Word) : Word := if kind = .iret then clearNT f else f

/-- Step 9, second part: the new task's EFLAGS once loaded (42_task_switch.md R174). -/
def nestedFlags (kind : SwitchKind) (f : Word) : Word := if kind.nesting then setNT f else f

/-- The EXT bit of an error code by the kind of switch (60_exceptions.md R232). -/
def SwitchKind.ext : SwitchKind → Half
  | .intr => 1#16
  | .exc => 1#16
  | _ => 0#16

namespace State

/-- Paging is on (R29, 20_memory.md R62). -/
def paging (s : State) : Bool := cr0PG s.cr0

/-- Protected mode, not virtual-8086 mode (70_reset_and_hazards.md R262). -/
def protectedMode (s : State) : Bool := cr0PE s.cr0 && !flagVM s.eflags

/-- CPL is the low two bits of CS's selector (R26). -/
def cpl (s : State) : BitVec 2 := s.cs.sel.extractLsb' 0 2

end State

end Sys2Proof.Machine
end

