-- ==== Sys2Proof/Machine/Access.lean ====
section
/-! DEFINITION. Registers by name, selectors and descriptors, linear memory through translation, and
the descriptor tables (20_memory.md R60 to R76). -/

namespace Sys2Proof.Machine

/-! ## Registers -/

/-- Reading a general register (10_state.md R20). -/
def Gprs.get (g : Gprs) : Reg → Word
  | .eax => g.eax | .ecx => g.ecx | .edx => g.edx | .ebx => g.ebx
  | .esp => g.esp | .ebp => g.ebp | .esi => g.esi | .edi => g.edi

/-- Writing a general register (R20). -/
def Gprs.set (g : Gprs) (r : Reg) (v : Word) : Gprs :=
  match r with
  | .eax => { g with eax := v } | .ecx => { g with ecx := v }
  | .edx => { g with edx := v } | .ebx => { g with ebx := v }
  | .esp => { g with esp := v } | .ebp => { g with ebp := v }
  | .esi => { g with esi := v } | .edi => { g with edi := v }

/-- The low half of a general register: AX to DI (R21). -/
def low (v : Word) : Half := v.extractLsb' 0 16

/-- A register with its low half replaced and its upper half kept (R21). -/
def withLow (v : Word) (h : Half) : Word := v.extractLsb' 16 16 ++ h

/-- Reading a segment register (R25). -/
def State.seg (s : State) : SegName → SegReg
  | .es => s.es | .cs => s.cs | .ss => s.ss | .ds => s.ds | .fs => s.fs | .gs => s.gs

/-! ## Selectors and error codes -/

/-- A selector's index, bits 15:3 (R63). -/
def selIndex (sel : Half) : Nat := (sel.extractLsb' 3 13).toNat

/-- A selector's TI flag, bit 2: set for the current LDT (R63). -/
def selTI (sel : Half) : Bool := sel.getLsbD 2

/-- A selector's RPL, bits 1:0 (R63). -/
def selRPL (sel : Half) : BitVec 2 := sel.extractLsb' 0 2

/-- A null selector: index 0 and TI 0 (R63). -/
def selNull (sel : Half) : Bool := sel.extractLsb' 2 14 == 0#14

/-- `ErrSel`: the selector with its RPL bits cleared (60_exceptions.md R232). -/
def errSel (sel : Half) : Half := sel &&& 0xFFFC#16

/-- `ErrIdt`: the vector as an index, with the IDT bit (60_exceptions.md R232). -/
def errIdt (n : Byte) : Half := 8#16 * n.setWidth 16 + 2#16

/-- The vector of an exception (60_exceptions.md R230). -/
def Exc.vector : Exc → Byte
  | .db => 1#8 | .ud => 6#8 | .ts => 10#8 | .np => 11#8 | .sf => 12#8 | .gp => 13#8 | .pf => 14#8

/-! ## Descriptors -/

/-- An 8-byte descriptor; `lo` is bits 31:0, `hi` is bits 63:32 (R65, R66). -/
abbrev Desc := BitVec 64

namespace Desc

/-- `base = hi[31:24] ++ hi[7:0] ++ lo[31:16]` (R66). -/
def base (d : Desc) : Word := d.extractLsb' 56 8 ++ (d.extractLsb' 32 8 ++ d.extractLsb' 16 16)

/-- `limit20 = hi[19:16] ++ lo[15:0]` (R66). -/
def limit20 (d : Desc) : BitVec 20 := d.extractLsb' 48 4 ++ d.extractLsb' 0 16

/-- The 4-bit type, `hi[11:8]` (R66). -/
def type (d : Desc) : BitVec 4 := d.extractLsb' 40 4

/-- S, `hi[12]`: clear in a system descriptor (R66). -/
def s (d : Desc) : Bool := d.getLsbD 44

/-- DPL, `hi[14:13]` (R66). -/
def dpl (d : Desc) : BitVec 2 := d.extractLsb' 45 2

/-- P, `hi[15]` (R66). -/
def p (d : Desc) : Bool := d.getLsbD 47

/-- G, `hi[23]` (R66). -/
def g (d : Desc) : Bool := d.getLsbD 55

/-- The attribute bits, `hi[23:8]` (10_state.md R25). -/
def attr (d : Desc) : Half := d.extractLsb' 40 16

/-- `EffLimit`: the offset of the segment's last byte (R67). -/
def effLimit (d : Desc) : Word :=
  if d.g then d.limit20 ++ 0xFFF#12 else d.limit20.setWidth 32

/-- A TSS descriptor: a system descriptor of type 0001B, 0011B, 1001B or 1011B (R68). -/
def isTss (d : Desc) : Bool :=
  !d.s && (d.type == 1#4 || d.type == 3#4 || d.type == 9#4 || d.type == 11#4)

/-- `type[3]`: a 32-bit TSS, for a TSS descriptor (R68). -/
def is32 (d : Desc) : Bool := d.type.getLsbD 3

/-- `type[1]`: the busy flag, for a TSS descriptor (R68, R72). -/
def busyBit (d : Desc) : Bool := d.type.getLsbD 1

/-- A task gate: a system descriptor of type 0101B (R75). -/
def isTaskGate (d : Desc) : Bool := !d.s && d.type == 5#4

/-- A task gate's TSS selector, `lo[31:16]` (R75). -/
def gateSel (d : Desc) : Half := d.extractLsb' 16 16

/-- An LDT descriptor: a system descriptor of type 0010B (R68). -/
def isLdt (d : Desc) : Bool := !d.s && d.type == 2#4

/-- A code segment (R69). -/
def isCode (d : Desc) : Bool := d.s && d.type.getLsbD 3

/-- A writable data segment (R69). -/
def isWritableData (d : Desc) : Bool := d.s && !d.type.getLsbD 3 && d.type.getLsbD 1

/-- `type[2]`: a conforming segment, for a code segment (R69). -/
def conforming (d : Desc) : Bool := d.type.getLsbD 2

/-- Readable: a data segment, or a code segment with R set (R69, 42_task_switch.md R199). -/
def readable (d : Desc) : Bool := !d.type.getLsbD 3 || d.type.getLsbD 1

/-- The hidden part a descriptor gives a segment register (42_task_switch.md section 6). -/
def hidden (d : Desc) : Hidden := { base := d.base, limit := d.effLimit, attr := d.attr }

end Desc

/-- An attribute field with the busy bit, `type[1]`, set (42_task_switch.md R177). -/
def busyAttr (a : Half) : Half := a ||| 0x0002#16

/-- The access byte with the busy flag set (42_task_switch.md R175). -/
def setBusy (b : Byte) : Byte := b ||| 0x02#8

/-- The access byte with the busy flag clear (42_task_switch.md R169). -/
def clearBusy (b : Byte) : Byte := b &&& 0xFD#8

/-- TR describes a 32-bit TSS: `TR.attr.type[3]` (10_state.md R27). -/
def TaskReg.is32 (t : TaskReg) : Bool := t.attr.getLsbD 3

/-! ## Linear memory -/

/-- A read by the processor itself, with supervisor rights (R62). -/
def sysRead : Config.Access := { kind := .read, level := 0#2 }

/-- A write by the processor itself, with supervisor rights (R62). -/
def sysWrite : Config.Access := { kind := .write, level := 0#2 }

/-- `Translate` (R62): the identity with paging off, else the parameter; none is a page fault. -/
def physical (e : Config.Env) (s : State) (acc : Config.Access) (la : Word) : Option Word :=
  if s.paging then e.translate s.mem s.cr3 la acc else some la

/-- The physical addresses of `n` bytes at consecutive linear addresses (R62); none where one of
them page-faults. -/
def physRange (e : Config.Env) (s : State) (acc : Config.Access) (la : Word) : Nat → Option (List Word)
  | 0 => some []
  | n + 1 =>
    match physical e s acc la, physRange e s acc (la + 1#32) n with
    | some p, some ps => some (p :: ps)
    | _, _ => none

/-- `MemRead` as bytes (R62). -/
def readBytes (e : Config.Env) (s : State) (acc : Config.Access) (la : Word) (n : Nat) :
    Option (List Byte) :=
  (physRange e s acc la n).map s.mem.getList

/-- `MemWrite` of bytes (R62). A page fault on any byte leaves all of them unwritten (log 35). -/
def writeBytes (e : Config.Env) (s : State) (acc : Config.Access) (la : Word) (bs : List Byte) :
    Option State :=
  (physRange e s acc la bs.length).map fun ps => s.setMem (s.mem.setList ps bs)

/-- A page fault (R62, 60_exceptions.md R230): #PF in a state, with an error code the spec does not
give, hence a free value (log 17). -/
def pageFault (e : Config.Env) (s : State) : Stop :=
  .raised .pf (some (e.draw16 s.draws)) (s.setDraws (s.draws + 1))

/-- A read that gives #PF in the same state where it page-faults. -/
def orPageFault {α : Type} (e : Config.Env) (s : State) : Option α → Except Stop α
  | some a => .ok a
  | none => .error (pageFault e s)

/-! ## Descriptor tables -/

/-- `8*index + 7 <= limit`, in naturals (R64, 00_scope.md R15). -/
def withinLimit (index limit : Nat) : Bool := decide (8 * index + 7 ≤ limit)

/-- The linear address of entry `i` of a table (R64). -/
def entryAddr (base : Word) (i : Nat) : Word := base + BitVec.ofNat 32 (8 * i)

/-- Within the GDT's limit, whatever TI says (R64). -/
def inGdt (s : State) (sel : Half) : Bool := withinLimit (selIndex sel) s.gdtr.limit.toNat

/-- The address of a selector's entry in the GDT (R64). -/
def gdtAddr (s : State) (sel : Half) : Word := entryAddr s.gdtr.base (selIndex sel)

/-- `InTable` (R65). -/
def inTable (s : State) (sel : Half) : Bool :=
  if selTI sel then
    match s.ldtr.hidden with
    | some h => withinLimit (selIndex sel) h.limit.toNat
    | none => false
  else inGdt s sel

/-- The linear address of the descriptor a selector names (R65); used only when `inTable` holds. -/
def descAddr (s : State) (sel : Half) : Word :=
  if selTI sel then
    match s.ldtr.hidden with
    | some h => entryAddr h.base (selIndex sel)
    | none => entryAddr s.gdtr.base (selIndex sel)
  else gdtAddr s sel

/-- The 8 bytes at a linear address as a descriptor (R65); none on a page fault. -/
def descAt (e : Config.Env) (s : State) (la : Word) : Option Desc :=
  (readBytes e s sysRead la 8).map (ofLe 64)

/-- IDT entry `n` is within the table (R64). -/
def inIdt (s : State) (n : Byte) : Bool := withinLimit n.toNat s.idtr.limit.toNat

/-- The linear address of IDT entry `n` (R64). -/
def idtAddr (s : State) (n : Byte) : Word := entryAddr s.idtr.base n.toNat

end Sys2Proof.Machine
end

