-- ==== Sys2Proof/Machine/Operands.lean ====
section
/-! DEFINITION. Every operand form: the address of a memory operand, its segment's checks, reading and
writing it (30_encoding.md R114, R117). -/

namespace Sys2Proof.Machine

/-- The value of an optional base register (R114). -/
def baseValue (g : Gprs) : Option Reg → Word
  | some r => g.get r
  | none => 0#32

/-- The scaled value of an optional index register: `index_val << s` (R114). -/
def indexValue (g : Gprs) : Option (Reg × BitVec 2) → Word
  | some (r, s) => g.get r <<< s.toNat
  | none => 0#32

/-- The offset of a memory operand in its segment, modulo 2^32 (R114). -/
def effectiveOffset (s : State) (m : MemRef) : Word :=
  baseValue s.gpr m.base + indexValue s.gpr m.index + m.disp

/-- The linear address of a memory operand: `seg.base + address` modulo 2^32 (R114). -/
def linearAddr (h : Hidden) (off : Word) : Word := h.base + off

/-- A hidden part's S flag, bit 4 of its attributes: a code or data segment (20_memory.md R66). -/
def Hidden.codeOrData (h : Hidden) : Bool := h.attr.getLsbD 4

/-- A hidden part describes a code segment (20_memory.md R69). -/
def Hidden.isCode (h : Hidden) : Bool := h.codeOrData && h.attr.getLsbD 3

/-- A hidden part's D/B flag (R113). -/
def Hidden.big (h : Hidden) : Bool := h.attr.getLsbD 14

/-- A segment may be read: a data segment, or a readable code segment (20_memory.md R69). -/
def Hidden.readable (h : Hidden) : Bool := h.codeOrData && (!h.attr.getLsbD 3 || h.attr.getLsbD 1)

/-- A segment may be written: a data segment with W set (20_memory.md R69). -/
def Hidden.writable (h : Hidden) : Bool := h.codeOrData && (!h.attr.getLsbD 3 && h.attr.getLsbD 1)

/-- `n` bytes from an offset lie inside a segment: up to its limit, or for an expand-down data segment
above it (20_memory.md R69; PRESUMED, log 24). Bytes past offset FFFFFFFFH do not wrap: they lie outside every
segment (DESIGN CHOICE, log 42). -/
def Hidden.covers (h : Hidden) (off : Word) (n : Nat) : Bool :=
  if !h.attr.getLsbD 3 && h.attr.getLsbD 2 then
    decide (h.limit.toNat < off.toNat) &&
      decide (off.toNat + n ≤ (if h.big then 2 ^ 32 else 2 ^ 16))
  else decide (off.toNat + n ≤ h.limit.toNat + 1)

/-- An access made by the program, at its privilege level (00_scope.md R8; log 39). -/
def userAccess (s : State) (k : Config.AccessKind) : Config.Access := { kind := k, level := s.cpl }

/-- The linear address of `n` bytes of a memory operand, once its segment is usable and its checks
hold; the faults of a failing one are outside the spec (R114, R131; log 24). -/
def operandAddr (s : State) (m : MemRef) (n : Nat) (ok : Hidden → Bool) : Except Stop Word :=
  match (s.seg m.seg).hidden with
  | none => .error (.refused .segmentUnusable)
  | some h =>
    if ok h && h.covers (effectiveOffset s m) n then .ok (linearAddr h (effectiveOffset s m))
    else .error (.refused .segmentCheckFails)

/-- Reading `n` bytes of a memory operand (20_memory.md R62). -/
def readOperand (e : Config.Env) (s : State) (m : MemRef) (n : Nat) : Except Stop (List Byte) :=
  match operandAddr s m n Hidden.readable with
  | .error x => .error x
  | .ok la => orPageFault e s (readBytes e s (userAccess s .read) la n)

/-- Writing bytes to a memory operand (20_memory.md R62). -/
def writeOperand (e : Config.Env) (s : State) (m : MemRef) (bs : List Byte) : Except Stop State :=
  match operandAddr s m bs.length Hidden.writable with
  | .error x => .error x
  | .ok la => orPageFault e s (writeBytes e s (userAccess s .write) la bs)

/-- The source of LTR: the low half of a register, or 16 bits of memory (R130). -/
def ltrSource (e : Config.Env) (s : State) : LtrSrc → Except Stop Half
  | .reg r => .ok (low (s.gpr.get r))
  | .mem m =>
    match readOperand e s m 2 with
    | .error x => .error x
    | .ok bs => .ok (ofLe 16 bs)

/-- The bytes of a far pointer's offset (R117). -/
def offsetBytes : OpSize → Nat
  | .w32 => 4
  | .w16 => 2

/-- A far pointer in memory: the offset, and the selector above it (R117). A 16-bit offset is
zero-extended (R116). -/
def farPointer (e : Config.Env) (s : State) (size : OpSize) (m : MemRef) : Except Stop (Half × Word) :=
  match readOperand e s m (offsetBytes size + 2) with
  | .error x => .error x
  | .ok bs => .ok (ofLe 16 (bs.drop (offsetBytes size)), ofLe 32 (bs.take (offsetBytes size)))

end Sys2Proof.Machine
end

