-- ==== Sys2Proof/Machine/Tss.lean ====
section
/-! DEFINITION. The two TSS formats field by field (20_memory.md R77, R83), the state saved into one
and the state read from one (42_task_switch.md R172, R180, R186, R188). -/

namespace Sys2Proof.Machine

/-- The fields of a TSS (20_memory.md R77, R83). -/
inductive TssField where
  | link | esp0 | ss0 | esp1 | ss1 | esp2 | ss2 | cr3 | eip | eflags
  | eax | ecx | edx | ebx | esp | ebp | esi | edi
  | es | cs | ss | ds | fs | gs | ldt | trap | ioMap
  deriving DecidableEq, Repr

/-- Offset and width in bytes of a field of the 32-bit TSS (R77). The T flag is bit 0 of the byte at
100 (R82). -/
def TssField.at32 : TssField → Nat × Nat
  | .link => (0, 2) | .esp0 => (4, 4) | .ss0 => (8, 2) | .esp1 => (12, 4) | .ss1 => (16, 2)
  | .esp2 => (20, 4) | .ss2 => (24, 2) | .cr3 => (28, 4) | .eip => (32, 4) | .eflags => (36, 4)
  | .eax => (40, 4) | .ecx => (44, 4) | .edx => (48, 4) | .ebx => (52, 4) | .esp => (56, 4)
  | .ebp => (60, 4) | .esi => (64, 4) | .edi => (68, 4) | .es => (72, 2) | .cs => (76, 2)
  | .ss => (80, 2) | .ds => (84, 2) | .fs => (88, 2) | .gs => (92, 2) | .ldt => (96, 2)
  | .trap => (100, 1) | .ioMap => (102, 2)

/-- Offset of a field of the 16-bit TSS, every one two bytes wide; the format has no CR3, FS, GS,
T flag or I/O map base (R83). -/
def TssField.at16 : TssField → Option Nat
  | .link => some 0 | .esp0 => some 2 | .ss0 => some 4 | .esp1 => some 6 | .ss1 => some 8
  | .esp2 => some 10 | .ss2 => some 12 | .eip => some 14 | .eflags => some 16
  | .eax => some 18 | .ecx => some 20 | .edx => some 22 | .ebx => some 24 | .esp => some 26
  | .ebp => some 28 | .esi => some 30 | .edi => some 32 | .es => some 34 | .cs => some 36
  | .ss => some 38 | .ds => some 40 | .ldt => some 42
  | .cr3 => none | .fs => none | .gs => none | .trap => none | .ioMap => none

/-- The fields the processor writes when it suspends a task (R79); the link, dynamic too, is written
in the new task's TSS (42_task_switch.md R173). -/
def TssField.savedOnSuspend : TssField → Bool
  | .eip | .eflags | .eax | .ecx | .edx | .ebx | .esp | .ebp | .esi | .edi => true
  | .es | .cs | .ss | .ds | .fs | .gs => true
  | .link | .esp0 | .ss0 | .esp1 | .ss1 | .esp2 | .ss2 | .cr3 | .ldt | .trap | .ioMap => false

/-- The size of the part of a TSS a task switch accesses: 104 or 44 bytes (R77, R83, R84). -/
def tssSize (is32 : Bool) : Nat := if is32 then 104 else 44

/-- Where the saved state starts in a TSS: the EIP field (R77, R83). -/
def saveOffset (is32 : Bool) : Nat := if is32 then 32 else 14

/-- How many bytes step 8 writes: up to the reserved half of GS, or up to DS (R172, R180). -/
def saveLength (is32 : Bool) : Nat := if is32 then 64 else 28

/-- How many bytes step 9 writes: the link, and in a 32-bit TSS its reserved half (R173). -/
def linkLength (is32 : Bool) : Nat := if is32 then 4 else 2

/-- How many free values a save into a TSS draws (20_memory.md R78). -/
def saveDraws (is32 : Bool) : Nat := if is32 then 6 else 0

/-- The bytes step 8 writes into a 32-bit TSS from offset 32 on (42_task_switch.md R172). The
reserved half after each selector becomes a free value (20_memory.md R78). -/
def saveBytes32 (e : Config.Env) (s : State) (retEip image : Word) : List Byte :=
  Word.bytes retEip ++ (Word.bytes image ++ (
  Word.bytes s.gpr.eax ++ (Word.bytes s.gpr.ecx ++ (Word.bytes s.gpr.edx ++ (Word.bytes s.gpr.ebx ++ (
  Word.bytes s.gpr.esp ++ (Word.bytes s.gpr.ebp ++ (Word.bytes s.gpr.esi ++ (Word.bytes s.gpr.edi ++ (
  Half.bytes s.es.sel ++ (Half.bytes (e.draw16 s.draws) ++ (
  Half.bytes s.cs.sel ++ (Half.bytes (e.draw16 (s.draws + 1)) ++ (
  Half.bytes s.ss.sel ++ (Half.bytes (e.draw16 (s.draws + 2)) ++ (
  Half.bytes s.ds.sel ++ (Half.bytes (e.draw16 (s.draws + 3)) ++ (
  Half.bytes s.fs.sel ++ (Half.bytes (e.draw16 (s.draws + 4)) ++ (
  Half.bytes s.gs.sel ++ Half.bytes (e.draw16 (s.draws + 5))))))))))))))))))))))

/-- The bytes step 8 writes into a 16-bit TSS from offset 14 on (42_task_switch.md R180). -/
def saveBytes16 (s : State) (retEip image : Word) : List Byte :=
  Half.bytes (low retEip) ++ (Half.bytes (low image) ++ (
  Half.bytes (low s.gpr.eax) ++ (Half.bytes (low s.gpr.ecx) ++ (
  Half.bytes (low s.gpr.edx) ++ (Half.bytes (low s.gpr.ebx) ++ (
  Half.bytes (low s.gpr.esp) ++ (Half.bytes (low s.gpr.ebp) ++ (
  Half.bytes (low s.gpr.esi) ++ (Half.bytes (low s.gpr.edi) ++ (
  Half.bytes s.es.sel ++ (Half.bytes s.cs.sel ++ (Half.bytes s.ss.sel ++ Half.bytes s.ds.sel))))))))))))

/-- The bytes step 8 writes, by the old task's format (42_task_switch.md R206). -/
def saveBytes (e : Config.Env) (s : State) (retEip image : Word) : List Byte :=
  if s.tr.is32 then saveBytes32 e s retEip image else saveBytes16 s retEip image

/-- The bytes step 9 writes at offset 0 of the new TSS: the old TR selector, and in a 32-bit TSS a
free value in the reserved half (R173, 20_memory.md R78). -/
def linkBytes (is32 : Bool) (oldSel free : Half) : List Byte :=
  if is32 then Half.bytes oldSel ++ Half.bytes free else Half.bytes oldSel

/-- The state a TSS image holds for the registers (42_task_switch.md R186, R188). `cr3` is none in
the 16-bit format. -/
structure TssImage where
  cr3 : Option Word
  eip : Word
  eflags : Word
  gpr : Gprs
  es : Half
  cs : Half
  ss : Half
  ds : Half
  fs : Half
  gs : Half
  ldt : Half
  trap : Bool
  deriving DecidableEq, Repr

/-- `n` bytes of a TSS whose byte 0 is at a physical address (20_memory.md R84). -/
def tssBytes (m : Memory) (p : Word) (off n : Nat) : List Byte :=
  m.getList (contig (p + BitVec.ofNat 32 off) n)

/-- A 32-bit field of a 32-bit TSS. -/
def tssWord (m : Memory) (p : Word) (f : TssField) : Word := ofLe 32 (tssBytes m p f.at32.1 4)

/-- A 16-bit field of a 32-bit TSS. -/
def tssHalf (m : Memory) (p : Word) (f : TssField) : Half := ofLe 16 (tssBytes m p f.at32.1 2)

/-- The T flag of a 32-bit TSS: bit 0 of the byte at offset 100 (20_memory.md R82). -/
def tssTrap (m : Memory) (p : Word) : Bool := (ofLe 8 (tssBytes m p TssField.trap.at32.1 1)).getLsbD 0

/-- Reading a 32-bit TSS (42_task_switch.md R186). The reserved halves are not read. -/
def image32 (m : Memory) (p : Word) : TssImage where
  cr3 := some (tssWord m p .cr3)
  eip := tssWord m p .eip
  eflags := tssWord m p .eflags
  gpr := { eax := tssWord m p .eax, ecx := tssWord m p .ecx, edx := tssWord m p .edx,
           ebx := tssWord m p .ebx, esp := tssWord m p .esp, ebp := tssWord m p .ebp,
           esi := tssWord m p .esi, edi := tssWord m p .edi }
  es := tssHalf m p .es
  cs := tssHalf m p .cs
  ss := tssHalf m p .ss
  ds := tssHalf m p .ds
  fs := tssHalf m p .fs
  gs := tssHalf m p .gs
  ldt := tssHalf m p .ldt
  trap := tssTrap m p

/-- A field of a 16-bit TSS. -/
def tss16Half (m : Memory) (p : Word) (f : TssField) : Half :=
  ofLe 16 (tssBytes m p (f.at16.getD 0) 2)

/-- Reading a 16-bit TSS (42_task_switch.md R188): EIP and EFLAGS zero-extended, the upper halves of
the general registers free values (`Draw16() ++ n_w[i]`), FS and GS null, no CR3, no T flag. -/
def image16 (e : Config.Env) (n : Nat) (m : Memory) (p : Word) : TssImage where
  cr3 := none
  eip := (tss16Half m p .eip).setWidth 32
  eflags := (tss16Half m p .eflags).setWidth 32
  gpr := { eax := e.draw16 n ++ tss16Half m p .eax, ecx := e.draw16 (n + 1) ++ tss16Half m p .ecx,
           edx := e.draw16 (n + 2) ++ tss16Half m p .edx, ebx := e.draw16 (n + 3) ++ tss16Half m p .ebx,
           esp := e.draw16 (n + 4) ++ tss16Half m p .esp, ebp := e.draw16 (n + 5) ++ tss16Half m p .ebp,
           esi := e.draw16 (n + 6) ++ tss16Half m p .esi, edi := e.draw16 (n + 7) ++ tss16Half m p .edi }
  es := tss16Half m p .es
  cs := tss16Half m p .cs
  ss := tss16Half m p .ss
  ds := tss16Half m p .ds
  fs := 0#16
  gs := 0#16
  ldt := tss16Half m p .ldt
  trap := false

/-- Reading a TSS by its format (42_task_switch.md R206); `n` is the counter of free values. -/
def tssImage (e : Config.Env) (n : Nat) (m : Memory) (p : Word) (is32 : Bool) : TssImage :=
  if is32 then image32 m p else image16 e n m p

end Sys2Proof.Machine
end

