-- ==== Sys2Proof/Machine/TaskSwitch.lean ====
section
/-! DEFINITION. The task switch (42_task_switch.md R160): the checks before the commit point, steps 6
to 12, the load of step 13 and its checks. -/

namespace Sys2Proof.Machine

open Config (CheckId)

/-! ## Checks K1 to K4 (R163 to R167) -/

/-- `MinLimit` (R167). -/
def minLimit (s : State) (nd : Desc) : Nat :=
  if nd.is32 then 0x67 else s.params.tss16MinLimit.toNat

/-- K3 (R166): the new task must be available, or for IRET busy; a descriptor that is no TSS
descriptor fails it too (D6). -/
def busyTestOk (kind : SwitchKind) (nd : Desc) : Bool :=
  nd.isTss && (if kind = .iret then nd.busyBit else !nd.busyBit)

/-- The exception a check of K2 to K4 raises where it fails (R164); none where it holds, is skipped
(K4 needs K3) or is not one of these. -/
def preCheck (kind : SwitchKind) (nd : Desc) (s : State) : CheckId → Option Exc
  | .k2 => if nd.p then none else some .np
  | .k3 => if busyTestOk kind nd then none else some (if kind = .iret then .ts else .gp)
  | .k4 =>
    if busyTestOk kind nd && decide (nd.effLimit.toNat < minLimit s nd) then some .ts else none
  | _ => none

/-- The checks by falling priority: `CHECK_ORDER`, then whatever it leaves out (R164, log 11). -/
def checkOrder (s : State) : List CheckId := s.params.checkOrder ++ CheckId.table

/-- K1 to K4: the new task's descriptor, or the exception of the first check that fails
(R163 to R167). -/
def preChecks (e : Config.Env) (kind : SwitchKind) (newSel : Half) (s : State) : Except Stop Desc :=
  if selTI newSel || !inGdt s newSel then
    .error (.raised .gp (some (errSel newSel ||| kind.ext)) s)
  else
    match descAt e s (gdtAddr s newSel) with
    | none => .error (pageFault e s)
    | some nd =>
      match (checkOrder s).findSome? (preCheck kind nd s) with
      | some x => .error (.raised x (some (errSel newSel ||| kind.ext)) s)
      | none => .ok nd

/-! ## Step 5 and the physical places of what the switch accesses (R168, 20_memory.md R84) -/

/-- The physical addresses a task switch works on, found at step 5 (log 13): byte 0 of the old and of
the new TSS, and the access bytes (entry + 5) of their descriptors. -/
structure Plan where
  oldTss : Word
  newTss : Word
  oldAccess : Word
  newAccess : Word
  deriving DecidableEq, Repr

/-- The places with paging off, where linear and physical addresses agree (20_memory.md R62). -/
def Plan.flat (s : State) (newSel : Half) (nd : Desc) : Plan :=
  { oldTss := s.tr.base, newTss := nd.base,
    oldAccess := gdtAddr s s.tr.sel + 5#32, newAccess := gdtAddr s newSel + 5#32 }

/-- A list of physical addresses runs on from its first one: `translate_once` and
`translate_each_page` agree on it (20_memory.md R84). -/
def runsOn (ps : List Word) : Bool := ps == contig (ps.headD 0#32) ps.length

/-- The `n` bytes at a linear address can be written, at the physical places they are read from (log 39). -/
def writableAt (e : Config.Env) (s : State) (la : Word) (ps : List Word) : Bool :=
  physRange e s sysWrite la ps.length == some ps

/-- The structures the switch writes are writable, every byte of them (20_memory.md R84, R85,
70_reset_and_hazards.md R269, U4): the old TSS; the new TSS, for its link; the descriptor of the task whose
busy flag is cleared, and of the one whose flag is set. `old`, `new`, `oldDesc` and `newDesc` are where they
are read. As those of a TSS run on from its first byte, `translate_once` and `translate_each_page` agree on
its writes too. -/
def planWritable (e : Config.Env) (kind : SwitchKind) (newSel : Half) (nd : Desc) (s : State)
    (old new oldDesc newDesc : List Word) : Bool :=
  writableAt e s s.tr.base old &&
  (!kind.nesting || writableAt e s nd.base new) &&
  (!kind.clearsOldBusy || writableAt e s (gdtAddr s s.tr.sel) oldDesc) &&
  (kind == .iret || writableAt e s (gdtAddr s newSel) newDesc)

/-- Step 5 (R168): #PF where a byte of either TSS or of either descriptor is not present; refused
where the two admitted translations of a TSS differ (U3) or a structure to be written is not writable (U4). -/
def plan (e : Config.Env) (kind : SwitchKind) (newSel : Half) (nd : Desc) (s : State) :
    Except Stop Plan :=
  match physRange e s sysRead s.tr.base (tssSize s.tr.is32),
        physRange e s sysRead nd.base (tssSize nd.is32),
        physRange e s sysRead (gdtAddr s s.tr.sel) 8,
        physRange e s sysRead (gdtAddr s newSel) 8 with
  | some old, some new, some od, some nw =>
    if runsOn old && runsOn new then
      if planWritable e kind newSel nd s old new od nw then
        .ok { oldTss := old.headD 0#32, newTss := new.headD 0#32,
              oldAccess := od.getD 5 0#32, newAccess := nw.getD 5 0#32 }
      else .error (.refused .tssNotWritable)
    else .error (.refused .tssNotContiguous)
  | _, _, _, _ => .error (pageFault e s)

/-! ## Steps 6 to 12 (R169 to R177) -/

/-- `LockedRMW` on one byte of physical memory (20_memory.md R88). -/
def lockedRmw (m : Memory) (p : Word) (f : Byte → Byte) : Memory := m.set p.toNat (f (m.get p.toNat))

/-- Memory after step 6: the old task's busy flag, cleared for JMP and IRET (R169). -/
def memAfter6 (p : Plan) (kind : SwitchKind) (m : Memory) : Memory :=
  if kind.clearsOldBusy then lockedRmw m p.oldAccess clearBusy else m

/-- Memory after steps 7 and 8: the old task's state in its TSS (R170, R172, R180). -/
def memAfter8 (e : Config.Env) (p : Plan) (kind : SwitchKind) (retEip : Word) (s : State)
    (m : Memory) : Memory :=
  m.setList (contig (p.oldTss + BitVec.ofNat 32 (saveOffset s.tr.is32)) (saveLength s.tr.is32))
    (saveBytes e s retEip (savedFlags kind s.eflags))

/-- Memory after step 9: the back link in the new task's TSS, when nesting (R173). -/
def memAfter9 (e : Config.Env) (p : Plan) (kind : SwitchKind) (nd : Desc) (s : State) (m : Memory) :
    Memory :=
  if kind.nesting then
    m.setList (contig p.newTss (linkLength nd.is32))
      (linkBytes nd.is32 s.tr.sel (e.draw16 (s.draws + saveDraws s.tr.is32)))
  else m

/-- Memory after step 10: the new task's busy flag, set unless the kind is IRET (R175). -/
def memAfter10 (p : Plan) (kind : SwitchKind) (m : Memory) : Memory :=
  if kind = .iret then m else lockedRmw m p.newAccess setBusy

/-- How many free values steps 6 to 12 draw (20_memory.md R78). -/
def commitDraws (s : State) (kind : SwitchKind) (nd : Desc) : Nat :=
  saveDraws s.tr.is32 + (if kind.nesting && nd.is32 then 1 else 0)

/-- TR after step 12 (R177). -/
def newTaskReg (newSel : Half) (nd : Desc) : TaskReg :=
  { sel := newSel, base := nd.base, limit := nd.effLimit, attr := busyAttr nd.attr, loaded := true }

/-- The state at the commit point: steps 6 to 12 (R160, R179). -/
def commit (e : Config.Env) (p : Plan) (kind : SwitchKind) (newSel : Half) (nd : Desc) (retEip : Word)
    (s : State) : State :=
  { s with
    mem := memAfter10 p kind (memAfter9 e p kind nd s
      (memAfter8 e p kind retEip s (memAfter6 p kind s.mem)))
    cr0 := setTS s.cr0
    tr := newTaskReg newSel nd
    draws := s.draws + commitDraws s kind nd }

/-! ## Step 13: loading the registers (R186, R188) -/

/-- CR3 after the load: the image's, under the condition of R186; a 16-bit TSS leaves it (R188). -/
def loadedCr3 (s : State) (img : TssImage) : Word :=
  match img.cr3 with
  | some v => if s.paging || !s.params.cr3LoadNeedsPg then v else s.cr3
  | none => s.cr3

/-- Every byte from an address on maps alike under CR3 and under another value of it (R271, U6). -/
def sameMapping (e : Config.Env) (s : State) (new la : Word) (n : Nat) : Bool :=
  (contig la n).all fun a =>
    (e.translate s.mem s.cr3 a sysRead == e.translate s.mem new a sysRead) &&
    (e.translate s.mem s.cr3 a sysWrite == e.translate s.mem new a sysWrite)

/-- A whole TSS maps alike: the part a task switch accesses, and every byte up to its limit (R271). -/
def tssMapping (e : Config.Env) (s : State) (new base limit : Word) (is32 : Bool) : Bool :=
  sameMapping e s new base (max (tssSize is32) (limit.toNat + 1))

/-- The TSS that entry `i` of the GDT describes, if it describes one, maps alike (R271: "the TSSs for all
tasks"; the tasks are the TSS descriptors of the GDT, log 30). -/
def entryMapping (e : Config.Env) (s : State) (new : Word) (i : Nat) : Bool :=
  match descAt e s (entryAddr s.gdtr.base i) with
  | some d => !d.isTss || tssMapping e s new d.base d.effLimit d.is32
  | none => true

/-- Every byte of the GDT and of every task's TSS maps alike under CR3 and under another value of it (R271,
20_memory.md R97, U6): the old TSS, the new one, and those the GDT describes. With paging off, or where CR3
keeps its value, they do. -/
def mappingKept (e : Config.Env) (old s : State) (nd : Desc) (new : Word) : Bool :=
  !s.paging || new == s.cr3 ||
    (tssMapping e s new old.tr.base old.tr.limit old.tr.is32 &&
     tssMapping e s new nd.base nd.effLimit nd.is32 &&
     sameMapping e s new s.gdtr.base (s.gdtr.limit.toNat + 1) &&
     (List.range ((s.gdtr.limit.toNat + 1) / 8)).all (entryMapping e s new))

/-- How many free values loading a TSS draws: the upper halves of a 16-bit one, and two for the
reserved EFLAGS positions (R188, U9). -/
def loadDraws (is32 : Bool) : Nat := if is32 then 2 else 10

/-- The free value that picks the reserved EFLAGS positions (U9). -/
def flagPick (e : Config.Env) (n : Nat) : Word := e.draw16 n ++ e.draw16 (n + 1)

/-- The registers of R186 and R188 written from an image; the hidden parts are not usable until the
checks qualify them. -/
def loadRegisters (e : Config.Env) (kind : SwitchKind) (img : TssImage) (is32 : Bool) (s : State) :
    State :=
  { s with
    cr3 := loadedCr3 s img
    ldtr := { sel := img.ldt, hidden := none }
    eflags := nestedFlags kind (loadFlags (flagPick e (s.draws + loadDraws is32 - 2)) img.eflags)
    eip := img.eip
    gpr := img.gpr
    es := { sel := img.es, hidden := none }
    cs := { sel := img.cs, hidden := none }
    ss := { sel := img.ss, hidden := none }
    ds := { sel := img.ds, hidden := none }
    fs := { sel := img.fs, hidden := none }
    gs := { sel := img.gs, hidden := none }
    draws := s.draws + loadDraws is32 }

/-- The image of the new task that step 13 loads, read at the commit point. -/
def newImage (e : Config.Env) (p : Plan) (nd : Desc) (s : State) : TssImage :=
  tssImage e s.draws s.mem p.newTss nd.is32

/-- Step 13, first part: the registers, and whether the new TSS's T flag is set. Refused: a
virtual-8086 task (R186, D24); a TSS or the GDT that moves with CR3 (R271, U6). `old` is the state on
entry, `s` the state at the commit point. -/
def load (e : Config.Env) (p : Plan) (kind : SwitchKind) (nd : Desc) (old s : State) :
    Except Stop (State × Bool) :=
  let img := newImage e p nd s
  if flagVM img.eflags then .error (.refused .virtual8086Task)
  else if mappingKept e old s nd (loadedCr3 s img) then
    .ok (loadRegisters e kind img nd.is32 s, img.trap)
  else .error (.refused .mappingChangesWithCr3)

/-! ## Step 13: qualifying LDTR and the segment registers (R189 to R202) -/

/-- The data registers in the order R164 takes them inside each check. -/
inductive DataSeg where
  | ds | es | fs | gs
  deriving DecidableEq, Repr

/-- The data registers in that order. -/
def DataSeg.all : List DataSeg := [.ds, .es, .fs, .gs]

/-- The segment register of a data register name. -/
def DataSeg.name : DataSeg → SegName
  | .ds => .ds | .es => .es | .fs => .fs | .gs => .gs

/-- One elementary check of K5 to K17; K14 to K17 have one for each data register. -/
inductive Check where
  | ldtValid | csDpl | ssValid | ssPresent | ssDplCpl | ldtPresent | csValid | csPresent | ssDplRpl
  | dataValid (r : DataSeg) | dataReadable (r : DataSeg) | dataPresent (r : DataSeg)
  | dataDpl (r : DataSeg)
  deriving DecidableEq, Repr

/-- The elementary checks of a check of Table 6-1 (R164). -/
def checksOf : CheckId → List Check
  | .k1 | .k2 | .k3 | .k4 => []
  | .k5 => [.ldtValid] | .k6 => [.csDpl] | .k7 => [.ssValid] | .k8 => [.ssPresent]
  | .k9 => [.ssDplCpl] | .k10 => [.ldtPresent] | .k11 => [.csValid] | .k12 => [.csPresent]
  | .k13 => [.ssDplRpl]
  | .k14 => DataSeg.all.map .dataValid | .k15 => DataSeg.all.map .dataReadable
  | .k16 => DataSeg.all.map .dataPresent | .k17 => DataSeg.all.map .dataDpl

/-- Why a check fails: an exception whose error code names a selector, or a page fault while its
descriptor is read (R202). -/
inductive Failure where
  | fails (x : Exc) (sel : Half)
  | pageFault
  deriving DecidableEq, Repr

/-- What looking a selector up gives: a null selector; a selector with TI set while the new LDT is not
in force because K5 or K10 fails (its checks are skipped, R164); an entry outside its table; a page
fault; a descriptor. -/
inductive Lookup where
  | null | skipped | outside | absent
  | found (d : Desc)
  deriving DecidableEq, Repr

/-- The new task's LDT selector looked up in the GDT (R189). -/
def ldtLookup (e : Config.Env) (s : State) : Lookup :=
  if selNull s.ldtr.sel then .null
  else if selTI s.ldtr.sel || !inGdt s s.ldtr.sel then .outside
  else
    match descAt e s (gdtAddr s s.ldtr.sel) with
    | some d => .found d
    | none => .absent

/-- K5 (R189). -/
def ldtValid (l : Lookup) (sel : Half) : Option Failure :=
  match l with
  | .null => none
  | .absent => some .pageFault
  | .found d => if d.isLdt then none else some (.fails .ts sel)
  | .skipped | .outside => some (.fails .ts sel)

/-- K10 (R194); it needs K5. -/
def ldtPresent (l : Lookup) (sel : Half) : Option Failure :=
  match l with
  | .found d => if d.isLdt && !d.p then some (.fails .ts sel) else none
  | .absent => some .pageFault
  | .null | .skipped | .outside => none

/-- The new LDT is in force, or there is none: K5 and K10 hold (R189, R194). -/
def ldtOk (e : Config.Env) (s : State) : Bool :=
  (ldtValid (ldtLookup e s) s.ldtr.sel).isNone && (ldtPresent (ldtLookup e s) s.ldtr.sel).isNone

/-- The hidden part of LDTR once K5 and K10 hold: none for a null selector (R189, R194). -/
def ldtHidden (e : Config.Env) (s : State) : Option Hidden :=
  match ldtLookup e s with
  | .found d => if ldtOk e s then some d.hidden else none
  | _ => none

/-- The state whose LDTR is the new task's, for looking selectors with TI set up (R65). -/
def withNewLdt (e : Config.Env) (s : State) : State :=
  s.setLdtr { sel := s.ldtr.sel, hidden := ldtHidden e s }

/-- A segment selector of the new task looked up in its table (R65, R164). -/
def segLookup (e : Config.Env) (s : State) (sel : Half) : Lookup :=
  if selNull sel then .null
  else if selTI sel && !ldtOk e s then .skipped
  else if !inTable (withNewLdt e s) sel then .outside
  else
    match descAt e s (descAddr (withNewLdt e s) sel) with
    | some d => .found d
    | none => .absent

/-- A validity check (K7, K11): a null selector, an entry outside its table and a descriptor of
another kind fail it with #TS (R191, R195). -/
def validCheck (l : Lookup) (ok : Desc → Bool) (sel : Half) : Option Failure :=
  match l with
  | .found d => if ok d then none else some (.fails .ts sel)
  | .absent => some .pageFault
  | .skipped => none
  | .null | .outside => some (.fails .ts sel)

/-- K14: as a validity check, but a null selector holds (R198). -/
def dataValidCheck (l : Lookup) (ok : Desc → Bool) (sel : Half) : Option Failure :=
  match l with
  | .null => none
  | l => validCheck l ok sel

/-- A check on a descriptor that needs the validity check to have made it available; it is skipped
where that failed (R164). -/
def descCheck (l : Lookup) (valid ok : Desc → Bool) (x : Exc) (sel : Half) : Option Failure :=
  match l with
  | .found d => if valid d && !ok d then some (.fails x sel) else none
  | .absent => some .pageFault
  | .null | .skipped | .outside => none

/-- K6's condition (R190): a non-conforming code segment's DPL equals the selector's RPL, a conforming
one's is at most it. -/
def codeDplOk (rpl : BitVec 2) (d : Desc) : Bool :=
  if d.conforming then decide (d.dpl.toNat ≤ rpl.toNat) else d.dpl == rpl

/-- K17's condition (R201): a conforming code segment, or DPL at least CPL. -/
def dataDplOk (cpl : BitVec 2) (d : Desc) : Bool :=
  (d.isCode && d.conforming) || decide (cpl.toNat ≤ d.dpl.toNat)

/-- The failure of an elementary check in the state the load leaves; none where it holds or is skipped
(R189 to R201). -/
def checkFailure (e : Config.Env) (s : State) : Check → Option Failure
  | .ldtValid => ldtValid (ldtLookup e s) s.ldtr.sel
  | .ldtPresent => ldtPresent (ldtLookup e s) s.ldtr.sel
  | .csValid => validCheck (segLookup e s s.cs.sel) Desc.isCode s.cs.sel
  | .csDpl => descCheck (segLookup e s s.cs.sel) Desc.isCode (codeDplOk (selRPL s.cs.sel)) .ts s.cs.sel
  | .csPresent => descCheck (segLookup e s s.cs.sel) Desc.isCode Desc.p .np s.cs.sel
  | .ssValid => validCheck (segLookup e s s.ss.sel) Desc.isWritableData s.ss.sel
  | .ssPresent => descCheck (segLookup e s s.ss.sel) Desc.isWritableData Desc.p .sf s.ss.sel
  | .ssDplCpl =>
    descCheck (segLookup e s s.ss.sel) Desc.isWritableData (fun d => d.dpl == s.cpl) .ts s.ss.sel
  | .ssDplRpl =>
    descCheck (segLookup e s s.ss.sel) Desc.isWritableData (fun d => d.dpl == selRPL s.ss.sel) .ts
      s.ss.sel
  | .dataValid r =>
    dataValidCheck (segLookup e s (s.seg r.name).sel) Desc.s (s.seg r.name).sel
  | .dataReadable r =>
    descCheck (segLookup e s (s.seg r.name).sel) Desc.s Desc.readable .ts (s.seg r.name).sel
  | .dataPresent r =>
    descCheck (segLookup e s (s.seg r.name).sel) Desc.s Desc.p .np (s.seg r.name).sel
  | .dataDpl r =>
    descCheck (segLookup e s (s.seg r.name).sel) Desc.s (dataDplOk s.cpl) .ts (s.seg r.name).sel

/-- Running checks in order: those that held before the first failure, and that failure. -/
def runChecks (v : Check → Option Failure) : List Check → List Check × Option Failure
  | [] => ([], none)
  | c :: cs =>
    match v c with
    | some f => ([], some f)
    | none => (c :: (runChecks v cs).1, (runChecks v cs).2)

/-- The elementary checks of step 13 by falling priority (R164). -/
def loadChecks (s : State) : List Check := (checkOrder s).flatMap checksOf

/-- The checks that must hold before a register's hidden part is loaded (R202). -/
def SegName.checks : SegName → List Check
  | .cs => [.csValid, .csDpl, .csPresent]
  | .ss => [.ssValid, .ssPresent, .ssDplCpl, .ssDplRpl]
  | .ds => [.dataValid .ds, .dataReadable .ds, .dataPresent .ds, .dataDpl .ds]
  | .es => [.dataValid .es, .dataReadable .es, .dataPresent .es, .dataDpl .es]
  | .fs => [.dataValid .fs, .dataReadable .fs, .dataPresent .fs, .dataDpl .fs]
  | .gs => [.dataValid .gs, .dataReadable .gs, .dataPresent .gs, .dataDpl .gs]

/-- A segment register's hidden part once the checks `passed` have held: loaded when all of its own
are among them and its selector names a descriptor (R202). -/
def segHidden (e : Config.Env) (s : State) (passed : List Check) (r : SegName) : Option Hidden :=
  if (SegName.checks r).all (passed.contains ·) then
    match segLookup e s (s.seg r).sel with
    | .found d => some d.hidden
    | _ => none
  else none

/-- A segment register with the hidden part the checks give it. -/
def qualifySeg (e : Config.Env) (s : State) (passed : List Check) (r : SegName) : SegReg :=
  { sel := (s.seg r).sel, hidden := segHidden e s passed r }

/-- LDTR with the hidden part the checks give it (R194, R202). -/
def qualifyLdt (e : Config.Env) (s : State) (passed : List Check) : SegReg :=
  { sel := s.ldtr.sel,
    hidden := if passed.contains .ldtValid && passed.contains .ldtPresent then ldtHidden e s else none }

/-- The segment registers in the order their accessed bits are taken. -/
def allSegs : List SegName := [.cs, .ss, .ds, .es, .fs, .gs]

/-- The accessed bit of a descriptor's access byte: the old bit, or a free value where it was clear;
it is never cleared (D30). -/
def accessedByte (b : Byte) (free : Bool) : Byte := if free then b ||| 0x01#8 else b

/-- The access byte at a physical address with its accessed bit taken (D30). -/
def markAccessed (e : Config.Env) (s : State) (p : Word) : State :=
  if (s.mem.get p.toNat).getLsbD 0 then s
  else { s with mem := lockedRmw s.mem p (accessedByte · (e.draw1 s.draws)), draws := s.draws + 1 }

/-- The linear addresses of the descriptors whose hidden parts were loaded. -/
def loadedDescs (e : Config.Env) (s : State) (passed : List Check) : List Word :=
  (allSegs.filter fun r => (segHidden e s passed r).isSome).map fun r =>
    descAddr (withNewLdt e s) (s.seg r).sel

/-- The access bytes of those descriptors in physical memory; one that cannot be written is left out
and keeps its value (D30, log 27). -/
def accessedPlaces (e : Config.Env) (s : State) (passed : List Check) : List Word :=
  (loadedDescs e s passed).filterMap fun la => physical e s sysWrite (la + 5#32)

/-- Every hidden part the checks `passed` give, loaded (R202). -/
def qualifyAll (e : Config.Env) (s : State) (passed : List Check) : State :=
  (s.setLdtr (qualifyLdt e s passed)).setSegs (qualifySeg e s passed .es) (qualifySeg e s passed .cs)
    (qualifySeg e s passed .ss) (qualifySeg e s passed .ds) (qualifySeg e s passed .fs)
    (qualifySeg e s passed .gs)

/-- The hidden parts loaded and the accessed bits taken. -/
def qualified (e : Config.Env) (s : State) (passed : List Check) : State :=
  (accessedPlaces e s passed).foldl (markAccessed e) (qualifyAll e s passed)

/-- `pending_task_trap` when a check fails: a free value when the new TSS's T flag is set (R203). -/
def trapAfterFailure (e : Config.Env) (trap : Bool) (s : State) : State :=
  if trap then { s with pendingTaskTrap := e.draw1 s.draws, draws := s.draws + 1 } else s

/-- Step 13, second part: the checks K5 to K17 in `CHECK_ORDER`. All hold: the switch is complete, and
the T flag leaves a pending trap (R203). One fails: its exception, raised in the new task (R202). -/
def qualify (e : Config.Env) (kind : SwitchKind) (trap : Bool) (s : State) : Except Stop State :=
  let r := runChecks (checkFailure e s) (loadChecks s)
  let q := qualified e s r.1
  match r.2 with
  | none => .ok (if trap then q.setTrap true else q)
  | some (.fails x sel) =>
    .error (.raised x (some (errSel sel ||| kind.ext)) (trapAfterFailure e trap q))
  | some .pageFault => .error (pageFault e (trapAfterFailure e trap q))

/-- The task switch (R160). -/
def taskSwitch (e : Config.Env) (kind : SwitchKind) (newSel : Half) (retEip : Word) (s : State) :
    Except Stop State :=
  if !s.tr.loaded then .error (.refused .taskRegisterNotLoaded)
  else
    match preChecks e kind newSel s with
    | .error x => .error x
    | .ok nd =>
      match plan e kind newSel nd s with
      | .error x => .error x
      | .ok p =>
        match load e p kind nd s (commit e p kind newSel nd retEip s) with
        | .error x => .error x
        | .ok r => qualify e kind r.2 r.1

end Sys2Proof.Machine
end

