-- ==== Sys2Proof/Machine/Ops.lean ====
section
/-! DEFINITION. The shared operations of the meanings: ending an instruction, entering a task through
a gate, taking an exception (60_exceptions.md R233, R237), delivering an event (41_task_dispatch.md
R148), and the return from a task beside them (R146). -/

namespace Sys2Proof.Machine

/-- `EIP <- next_eip`: an instruction that completes in its own task (10_state.md R22). -/
def advance (s : State) : State := s.setEip s.nextEip

/-- A raised exception (00_scope.md R11). -/
def raise {α : Type} (x : Exc) (code : Option Half) (s : State) : Except Stop α :=
  .error (.raised x code s)

/-! ## Entering through the IDT -/

/-- The IDT entry of a vector; none where the vector is outside the table or its read page-faults. -/
def idtEntry? (e : Config.Env) (s : State) (n : Byte) : Option Desc :=
  if inIdt s n then descAt e s (idtAddr s n) else none

/-- The IDT entry of a vector is a task gate: the case in which this spec has a `Deliver`
(60_exceptions.md R233). -/
def gateIsTaskGate (e : Config.Env) (s : State) (n : Byte) : Bool :=
  match idtEntry? e s n with
  | some g => g.isTaskGate
  | none => false

/-- `EVENT` (41_task_dispatch.md R148), lines E1 to E4: the switch to the task the vector's gate
names, with no DPL check (R145) and the EXT bit in its own error codes. -/
def eventEntry (e : Config.Env) (kind : SwitchKind) (n : Byte) (retEip : Word) (s : State) :
    Except Stop State :=
  if !inIdt s n then raise .gp (some (errIdt n ||| 1#16)) s
  else
    match descAt e s (idtAddr s n) with
    | none => .error (pageFault e s)
    | some g =>
      if g.isTaskGate then
        if g.p then taskSwitch e kind g.gateSel retEip s
        else raise .np (some (errIdt n ||| 1#16)) s
      else .error (.refused .sameTaskInterrupt)

/-! ## The error code of an exception handled by a task (41_task_dispatch.md R151) -/

/-- The stack offset after a push of `n` bytes: ESP, or SP alone in a 16-bit stack segment (PRESUMED,
log 16). -/
def pushOffset (h : Hidden) (esp : Word) (n : Nat) : Word :=
  if h.big then esp - BitVec.ofNat 32 n else (low esp - BitVec.ofNat 16 n).setWidth 32

/-- ESP after a push to an offset. -/
def espAfterPush (h : Hidden) (esp off : Word) : Word :=
  if h.big then off else withLow esp (low off)

/-- The bytes pushed for an error code: 32 bits with an unspecified upper half for a 32-bit TSS, 16
bits for a 16-bit one (R151, 60_exceptions.md R232). -/
def errorCodeBytes (is32 : Bool) (code free : Half) : List Byte :=
  if is32 then Half.bytes code ++ Half.bytes free else Half.bytes code

/-- The push of an error code on the new task's stack, after the switch (R151, G22; PRESUMED, log 16).
A page fault in it is one in the new task; another fault of the push is outside the spec. -/
def pushErrorCode (e : Config.Env) (code : Half) (s : State) : Except Stop State :=
  match s.ss.hidden with
  | none => .error (.refused .errorCodePushFails)
  | some h =>
    let bs := errorCodeBytes s.tr.is32 code (e.draw16 s.draws)
    let off := pushOffset h s.gpr.esp bs.length
    if h.writable && h.covers off bs.length then
      match writeBytes e s (userAccess s .write) (linearAddr h off) bs with
      | none => .error (pageFault e s)
      | some t =>
        .ok { t with gpr := t.gpr.set .esp (espAfterPush h s.gpr.esp off), draws := s.draws + 1 }
    else .error (.refused .errorCodePushFails)

/-- The error code, where there is one, pushed after the switch. -/
def withErrorCode (e : Config.Env) (code : Option Half) (s : State) : Except Stop State :=
  match code with
  | none => .ok s
  | some c => pushErrorCode e c s

/-! ## Taking an exception, delivering an event -/

/-- The end of a delivery: an exception raised on the way is one during delivery, which the spec does
not continue (U22, R239; log 15). -/
def endDelivery : Except Stop State → Result
  | .ok s => .next s
  | .error (.raised x code s) => .fault (.exceptionDuringDelivery x code s)
  | .error (.refused r) => .refused r

/-- A switch to a handler task and the push of the error code. -/
def enterHandler (e : Config.Env) (kind : SwitchKind) (n : Byte) (code : Option Half) (retEip : Word)
    (s : State) : Result :=
  match eventEntry e kind n retEip s with
  | .error x => endDelivery (.error x)
  | .ok t => endDelivery (withErrorCode e code t)

/-- TAKING AN EXCEPTION: `Deliver` of 00_scope.md R8 and 60_exceptions.md R233, on the state the
exception is raised in. Where the IDT entry of its vector is a task gate it is `EVENT` with kind EXC:
the whole state is saved in the current task's TSS with the EIP that state holds, TR names the
handler, EFLAGS, CPL, CS:EIP and the stack come from the handler's TSS (R237), and the error code is
pushed there (R151). Elsewhere the spec has no `Deliver` and the exception is the outcome (log 14). -/
def takeException (e : Config.Env) (x : Exc) (code : Option Half) (s : State) : Result :=
  if s.protectedMode && gateIsTaskGate e s x.vector then
    enterHandler e .exc x.vector code s.eip s
  else .fault (.exception x code s)

/-- An event the environment presents, taken at an instruction boundary (R148, 60_exceptions.md R235):
an interrupt saves the EIP of the next instruction, an exception the one its class gives. -/
def deliverEvent (e : Config.Env) (ev : Event) (s : State) : Result :=
  match ev with
  | .intr n => enterHandler e .intr n none s.eip s
  | .exc n code retEip => enterHandler e .exc n code retEip s

/-- The end of an instruction: its next state, the exception it raises taken, or a refusal. -/
def settle (e : Config.Env) : Except Stop State → Result
  | .ok s => .next s
  | .error (.raised x code s) => takeException e x code s
  | .error (.refused r) => .refused r

/-! ## The return from a task (41_task_dispatch.md R146, 60_exceptions.md R238) -/

/-- Line I2: the previous task link of the current TSS, 2 bytes at offset 0 (R146, 20_memory.md R84).
#PF where the TSS's first byte is absent; refused where the two admitted translations differ (log 31). -/
def previousLink (e : Config.Env) (s : State) : Except Stop Half :=
  match physical e s sysRead s.tr.base with
  | none => .error (pageFault e s)
  | some p =>
    if physRange e s sysRead s.tr.base 2 = some (contig p 2) then
      .ok (ofLe 16 (tssBytes s.mem p TssField.link.at32.1 2))
    else .error (.refused .tssNotContiguous)

/-- THE RETURN FROM A TASK, lines I1 to I3 (R146): with NT set, the switch to the task the previous
task link names; with NT clear an ordinary return, outside the spec. -/
def returnFromTask (e : Config.Env) (s : State) : Except Stop State :=
  if !flagNT s.eflags then .error (.refused .sameTaskReturn)
  else if !s.tr.loaded then .error (.refused .taskRegisterNotLoaded)
  else
    match previousLink e s with
    | .error x => .error x
    | .ok link => taskSwitch e .iret link s.nextEip s

end Sys2Proof.Machine
end

