-- ==== Sys2Proof/Machine/FarTransfer.lean ====
section
/-! DEFINITION. Far JMP and far CALL, the task-switch case (41_task_dispatch.md R141, R142). -/

namespace Sys2Proof.Machine

/-- The facilities are available in protected mode only; elsewhere the model refuses
(70_reset_and_hazards.md R262). -/
def requireProtectedMode (s : State) (body : Except Stop State) : Except Stop State :=
  if s.protectedMode then body else .error (.refused .notProtectedMode)

/-- `AccessOk`: CPL and RPL at most DPL (R143, R144). -/
def accessOk (s : State) (sel : Half) (d : Desc) : Bool :=
  decide (s.cpl.toNat ≤ d.dpl.toNat) && decide ((selRPL sel).toNat ≤ d.dpl.toNat)

/-- Lines J4 to J6, on the descriptor the selector names (R141). -/
def farToDescriptor (e : Config.Env) (kind : SwitchKind) (sel : Half) (d : Desc) (s : State) :
    Except Stop State :=
  if d.isTss then
    if selTI sel then raise .gp (some (errSel sel)) s
    else if !accessOk s sel d then raise .gp (some (errSel sel)) s
    else taskSwitch e kind sel s.nextEip s
  else if d.isTaskGate then
    if !accessOk s sel d then raise .gp (some (errSel sel)) s
    else if !d.p then raise .np (some (errSel sel)) s
    else taskSwitch e kind d.gateSel s.nextEip s
  else .error (.refused .sameTaskTransfer)

/-- Lines J1 to J6 (R141); CALL has the same ones with its own kind (R142). The offset is not used when
the target is a task (R149), so it is no argument. -/
def farTransfer (e : Config.Env) (kind : SwitchKind) (sel : Half) (s : State) : Except Stop State :=
  if selNull sel then raise .gp (some 0#16) s
  else if !inTable s sel then raise .gp (some (errSel sel)) s
  else
    match descAt e s (descAddr s sel) with
    | none => .error (pageFault e s)
    | some d => farToDescriptor e kind sel d s

/-- A far transfer through a pointer in memory (30_encoding.md R117). -/
def farThroughMemory (e : Config.Env) (kind : SwitchKind) (size : OpSize) (m : MemRef) (s : State) :
    Except Stop State :=
  match farPointer e s size m with
  | .error x => .error x
  | .ok ptr => farTransfer e kind ptr.1 s

/-- `CALL ptr16:32` (R142). -/
def execCallPtr32 (sel : Half) (_off : Word) (s : State) : Result :=
  settle Config.env (requireProtectedMode s (farTransfer Config.env .call sel s))

/-- `CALL ptr16:16` (R142). -/
def execCallPtr16 (sel : Half) (_off : Half) (s : State) : Result :=
  settle Config.env (requireProtectedMode s (farTransfer Config.env .call sel s))

/-- `CALL m16:32` and `CALL m16:16` (R142). -/
def execCallMem (size : OpSize) (m : MemRef) (s : State) : Result :=
  settle Config.env (requireProtectedMode s (farThroughMemory Config.env .call size m s))

/-- `JMP ptr16:32` (R141). -/
def execJmpPtr32 (sel : Half) (_off : Word) (s : State) : Result :=
  settle Config.env (requireProtectedMode s (farTransfer Config.env .jmp sel s))

/-- `JMP ptr16:16` (R141). -/
def execJmpPtr16 (sel : Half) (_off : Half) (s : State) : Result :=
  settle Config.env (requireProtectedMode s (farTransfer Config.env .jmp sel s))

/-- `JMP m16:32` and `JMP m16:16` (R141). -/
def execJmpMem (size : OpSize) (m : MemRef) (s : State) : Result :=
  settle Config.env (requireProtectedMode s (farThroughMemory Config.env .jmp size m s))

end Sys2Proof.Machine
end

