-- ==== Sys2Proof/Machine/Interrupt.lean ====
section
/-! DEFINITION. IRET and INT n, the task-switch case (41_task_dispatch.md R146, R147). -/

namespace Sys2Proof.Machine

/-- Lines N1 to N4 of INT n (R147): the DPL of the gate is checked (R145). -/
def softwareInterrupt (e : Config.Env) (n : Byte) (s : State) : Except Stop State :=
  if !inIdt s n then raise .gp (some (errIdt n)) s
  else
    match descAt e s (idtAddr s n) with
    | none => .error (pageFault e s)
    | some g =>
      if g.isTaskGate then
        if decide (g.dpl.toNat < s.cpl.toNat) then raise .gp (some (errIdt n)) s
        else if !g.p then raise .np (some (errIdt n)) s
        else taskSwitch e .intN g.gateSel s.nextEip s
      else .error (.refused .sameTaskInterrupt)

/-- `IRET` and `IRETD` (R146); the operand size has no effect on a task switch. -/
def execIret (_size : OpSize) (s : State) : Result :=
  settle Config.env (requireProtectedMode s (returnFromTask Config.env s))

/-- `INT imm8` (R147). -/
def execIntImm8 (n : Byte) (s : State) : Result :=
  settle Config.env (requireProtectedMode s (softwareInterrupt Config.env n s))

end Sys2Proof.Machine
end

