-- ==== Sys2Proof/Machine/TaskRegister.lean ====
section
/-! DEFINITION. The task-register instructions LTR and STR (40_task_register_instructions.md). -/

namespace Sys2Proof.Machine

/-- LTR and STR are recognised only in protected mode; elsewhere they raise #UD (30_encoding.md R118). -/
def inProtectedMode (s : State) (body : Except Stop State) : Except Stop State :=
  if s.protectedMode then body else raise .ud none s

/-- Line L6's test: an available TSS descriptor (R130). -/
def availableTss (d : Desc) : Bool := !d.s && (d.type == 9#4 || d.type == 1#4)

/-- TR after LTR: lines L9 and L10 (R130). -/
def ltrTaskReg (sel : Half) (d : Desc) : TaskReg :=
  { sel := sel, base := d.base, limit := d.effLimit, attr := busyAttr d.attr, loaded := true }

/-- Lines L8 to L11 of LTR: the busy flag set by a locked read-modify-write, TR loaded, EIP advanced
(R130). The rule does not say how `LockedRMW` goes through `Translate`. DESIGN CHOICE (log 39): entry + 5 is
translated once, as a write with supervisor rights, and the byte read and written is the one there, whatever
place line L5 read it from. -/
def ltrLoad (e : Config.Env) (sel : Half) (d : Desc) (s : State) : Except Stop State :=
  match physical e s sysWrite (gdtAddr s sel + 5#32) with
  | none => .error (pageFault e s)
  | some p =>
    .ok (advance ((s.setMem (lockedRmw s.mem p setBusy)).setTr (ltrTaskReg sel d)))

/-- Lines L3 to L11 of LTR, on the selector (R130). -/
def ltrSelector (e : Config.Env) (sel : Half) (s : State) : Except Stop State :=
  if selNull sel then raise .gp (some 0#16) s
  else if selTI sel || !inGdt s sel then raise .gp (some (errSel sel)) s
  else
    match descAt e s (gdtAddr s sel) with
    | none => .error (pageFault e s)
    | some d =>
      if !availableTss d then raise .gp (some (errSel sel)) s
      else if !d.p then raise .np (some (errSel sel)) s
      else ltrLoad e sel d s

/-- LTR (R130), from line L1. -/
def ltr (e : Config.Env) (src : LtrSrc) (s : State) : Except Stop State :=
  if s.cpl ≠ 0#2 then raise .gp (some 0#16) s
  else
    match ltrSource e s src with
    | .error x => .error x
    | .ok sel => ltrSelector e sel s

/-- STR (R131): lines S1 to S3. The upper half of a 32-bit register is a free value (D10). -/
def str (e : Config.Env) (dst : StrDest) (s : State) : Except Stop State :=
  match dst with
  | .reg16 r => .ok (advance (s.setGpr (s.gpr.set r (withLow (s.gpr.get r) s.tr.sel))))
  | .reg32 r =>
    .ok (advance ((s.setGpr (s.gpr.set r (e.draw16 s.draws ++ s.tr.sel))).setDraws (s.draws + 1)))
  | .mem m =>
    match writeOperand e s m (Half.bytes s.tr.sel) with
    | .error x => .error x
    | .ok t => .ok (advance t)

/-- `LTR r/m16` (R130). -/
def execLtrRm16 (src : LtrSrc) (s : State) : Result :=
  settle Config.env (inProtectedMode s (ltr Config.env src s))

/-- `STR r/m16` (R131). -/
def execStrRm16 (dst : StrDest) (s : State) : Result :=
  settle Config.env (inProtectedMode s (str Config.env dst s))

end Sys2Proof.Machine
end

