-- ==== Sys2Proof/Machine/Dispatch.lean ====
section
/-! DEFINITION. One arm per instruction (30_encoding.md R115). -/

namespace Sys2Proof.Machine

def exec (i : Instr) (s : State) : Host.Outcome State Fault Refusal :=
  match i with
  | .strRm16 dst => Sys2Proof.Machine.execStrRm16 dst s
  | .ltrRm16 src => Sys2Proof.Machine.execLtrRm16 src s
  | .callPtr32 sel off => Sys2Proof.Machine.execCallPtr32 sel off s
  | .callPtr16 sel off => Sys2Proof.Machine.execCallPtr16 sel off s
  | .callMem size m => Sys2Proof.Machine.execCallMem size m s
  | .jmpPtr32 sel off => Sys2Proof.Machine.execJmpPtr32 sel off s
  | .jmpPtr16 sel off => Sys2Proof.Machine.execJmpPtr16 sel off s
  | .jmpMem size m => Sys2Proof.Machine.execJmpMem size m s
  | .iret size => Sys2Proof.Machine.execIret size s
  | .intImm8 n => Sys2Proof.Machine.execIntImm8 n s

end Sys2Proof.Machine
end

