-- ==== Sys2Proof/WellFormed.lean ====
section
/-! DEFINITION. Which instruction terms the encoding can name (30_encoding.md R114). -/

namespace Sys2Proof

/-- A memory operand is well formed when its index is not ESP: the index number 100B means "no
index" (30_encoding.md R114). -/
def MemRef.wellFormed (m : MemRef) : Bool :=
  match m.index with
  | some (r, _) => r != .esp
  | none => true

/-- An instruction is well formed when its memory operand, if it has one, is. -/
def Instr.wellFormed : Instr → Bool
  | .strRm16 (.mem m) => m.wellFormed
  | .strRm16 (.reg16 _) => true
  | .strRm16 (.reg32 _) => true
  | .ltrRm16 (.mem m) => m.wellFormed
  | .ltrRm16 (.reg _) => true
  | .callPtr32 _ _ => true
  | .callPtr16 _ _ => true
  | .callMem _ m => m.wellFormed
  | .jmpPtr32 _ _ => true
  | .jmpPtr16 _ _ => true
  | .jmpMem _ m => m.wellFormed
  | .iret _ => true
  | .intImm8 _ => true

end Sys2Proof
end

