-- ==== Sys2Proof/Decode.lean ====
section
/-! DEFINITION. Decoding bytes into instructions and encoding instructions into bytes
(30_encoding.md R112 to R119). `decode` is total on every byte string and names what it rejects. -/

namespace Sys2Proof

/-- The prefixes read so far (30_encoding.md R113). A prefix that occurs again has no further
effect, and of several segment overrides the last one holds (PRESUMED, log 21). -/
structure Prefixes where
  opSize : Bool
  addrSize : Bool
  seg : Option SegName
  lock : Bool
  deriving DecidableEq, Repr

/-- No prefix. -/
def Prefixes.none : Prefixes := { opSize := false, addrSize := false, seg := Option.none, lock := false }

/-- The prefixes with one more prefix byte, or nothing where the byte is no prefix (R113). -/
def Prefixes.add (p : Prefixes) (b : Byte) : Option Prefixes :=
  if b = 0x66#8 then some { p with opSize := true }
  else if b = 0x67#8 then some { p with addrSize := true }
  else if b = 0x26#8 then some { p with seg := some .es }
  else if b = 0x2E#8 then some { p with seg := some .cs }
  else if b = 0x36#8 then some { p with seg := some .ss }
  else if b = 0x3E#8 then some { p with seg := some .ds }
  else if b = 0x64#8 then some { p with seg := some .fs }
  else if b = 0x65#8 then some { p with seg := some .gs }
  else if b = 0xF0#8 then some { p with lock := true }
  else Option.none

/-- Reading prefixes until a byte that is none (R113): the prefixes and the bytes from that one on. -/
def scanPrefixes (p : Prefixes) : List Byte → Prefixes × List Byte
  | [] => (p, [])
  | b :: bs =>
    match p.add b with
    | some q => scanPrefixes q bs
    | Option.none => (p, b :: bs)

/-- What decoding the bytes after the prefixes gives: an instruction and the bytes after it; an
invalid opcode (#UD); a memory operand with 16-bit address size (U16); a byte string that matches
no row (R118); or a string that ends before the instruction does. -/
inductive Body where
  | instr (i : Instr) (rest : List Byte)
  | undefined
  | addr16
  | outside
  | short
  deriving DecidableEq, Repr

/-- What decoding a byte string gives: an instruction with its length in bytes, or the name of
what was rejected. -/
inductive Decoded where
  | instr (i : Instr) (len : Nat)
  /-- The encoding raises #UD (R113, R117, R118, U21). -/
  | undefined
  /-- A memory operand with 16-bit address size, which the spec refuses (R114, U16). -/
  | addr16
  /-- The byte string matches no row of R115 (R118). -/
  | outside
  /-- The byte string ends before the instruction does. -/
  | short
  /-- The instruction has more than 15 bytes (R112). -/
  | tooLong
  deriving DecidableEq, Repr

/-- The displacement a mod field asks for, 0, 1 or 4 bytes (R114), and the bytes after it. -/
def displacement (md : BitVec 2) (bs : List Byte) : Option (Word × List Byte) :=
  if md = 0#2 then some (0#32, bs)
  else if md = 1#2 then
    match bs with
    | b :: rest => some (b.signExtend 32, rest)
    | [] => none
  else
    match bs with
    | b0 :: b1 :: b2 :: b3 :: rest => some (ofLe 32 [b0, b1, b2, b3], rest)
    | _ => none

/-- The default segment: SS when the base register is ESP or EBP, DS otherwise (R114). -/
def defaultSeg : Option Reg → SegName
  | some .esp => .ss
  | some .ebp => .ss
  | _ => .ds

/-- A memory operand from its parts; a segment override replaces the default segment (R113, R114). -/
def memRef (ovr : Option SegName) (base : Option Reg) (index : Option (Reg × BitVec 2)) (disp : Word) :
    MemRef :=
  { seg := ovr.getD (defaultSeg base), base := base, index := index, disp := disp }

/-- The index of a SIB byte: none when its number is 100B (R114). -/
def sibIndex (sib : Byte) : Option (Reg × BitVec 2) :=
  if sib.extractLsb' 3 3 = 4#3 then none
  else some (Reg.ofNum (sib.extractLsb' 3 3), sib.extractLsb' 6 2)

/-- A memory operand with 32-bit address size (R114) and the bytes after it; `md` is not 11B. -/
def memOperand (ovr : Option SegName) (md : BitVec 2) (rm : BitVec 3) (bs : List Byte) :
    Option (MemRef × List Byte) :=
  if rm = 4#3 then
    match bs with
    | [] => none
    | sib :: bs =>
      if sib.extractLsb' 0 3 = 5#3 ∧ md = 0#2 then
        (displacement 2#2 bs).map fun d => (memRef ovr none (sibIndex sib) d.1, d.2)
      else
        (displacement md bs).map fun d =>
          (memRef ovr (some (Reg.ofNum (sib.extractLsb' 0 3))) (sibIndex sib) d.1, d.2)
  else if rm = 5#3 ∧ md = 0#2 then
    (displacement 2#2 bs).map fun d => (memRef ovr none none d.1, d.2)
  else
    (displacement md bs).map fun d => (memRef ovr (some (Reg.ofNum rm)) none d.1, d.2)

/-- What a ModR/M byte and the bytes after it name. -/
inductive Operand where
  | reg (r : Reg)
  | mem (m : MemRef)
  deriving DecidableEq, Repr

/-- Decoding the operand of a ModR/M byte (R114) and going on with it; with 16-bit address size a
memory operand is refused (U16). -/
def withOperand (a32 : Bool) (ovr : Option SegName) (modrm : Byte) (bs : List Byte)
    (go : Operand → List Byte → Body) : Body :=
  if modrm.extractLsb' 6 2 = 3#2 then go (.reg (Reg.ofNum (modrm.extractLsb' 0 3))) bs
  else if a32 then
    match memOperand ovr (modrm.extractLsb' 6 2) (modrm.extractLsb' 0 3) bs with
    | some (m, rest) => go (.mem m) rest
    | none => .short
  else .addr16

/-- Opcode `0F 00` (R115, R118): /1 is STR, /3 is LTR, /6 and /7 are undefined, the rest are other
instructions. DESIGN CHOICE (log 40): the ModR/M byte alone decides the last two, whatever SIB or displacement
bytes it calls for. -/
def decode0F00 (size : OpSize) (a32 : Bool) (ovr : Option SegName) : List Byte → Body
  | [] => .short
  | modrm :: bs =>
    let ext := modrm.extractLsb' 3 3
    if ext = 1#3 then
      withOperand a32 ovr modrm bs fun o rest =>
        match o, size with
        | .reg r, .w16 => .instr (.strRm16 (.reg16 r)) rest
        | .reg r, .w32 => .instr (.strRm16 (.reg32 r)) rest
        | .mem m, _ => .instr (.strRm16 (.mem m)) rest
    else if ext = 3#3 then
      withOperand a32 ovr modrm bs fun o rest =>
        match o with
        | .reg r => .instr (.ltrRm16 (.reg r)) rest
        | .mem m => .instr (.ltrRm16 (.mem m)) rest
    else if ext = 6#3 ∨ ext = 7#3 then .undefined
    else .outside

/-- Opcode `FF` (R115, R117, R118): /3 is CALL, /5 is JMP, both with a far pointer in memory; a
register operand there is an invalid opcode, and so is /7; the rest are other instructions. DESIGN CHOICE (log
40): the ModR/M byte alone decides /7 and the rest, as for `0F 00`. -/
def decodeFF (size : OpSize) (a32 : Bool) (ovr : Option SegName) : List Byte → Body
  | [] => .short
  | modrm :: bs =>
    let ext := modrm.extractLsb' 3 3
    if ext = 3#3 then
      withOperand a32 ovr modrm bs fun o rest =>
        match o with
        | .reg _ => .undefined
        | .mem m => .instr (.callMem size m) rest
    else if ext = 5#3 then
      withOperand a32 ovr modrm bs fun o rest =>
        match o with
        | .reg _ => .undefined
        | .mem m => .instr (.jmpMem size m) rest
    else if ext = 7#3 then .undefined
    else .outside

/-- The far-pointer immediate (R116): offset, then selector, each little-endian. -/
def decodePtr (size : OpSize) (ptr32 : Half → Word → Instr) (ptr16 : Half → Half → Instr)
    (bs : List Byte) : Body :=
  match size, bs with
  | .w32, o0 :: o1 :: o2 :: o3 :: s0 :: s1 :: rest =>
    .instr (ptr32 (ofLe 16 [s0, s1]) (ofLe 32 [o0, o1, o2, o3])) rest
  | .w16, o0 :: o1 :: s0 :: s1 :: rest => .instr (ptr16 (ofLe 16 [s0, s1]) (ofLe 16 [o0, o1])) rest
  | _, _ => .short

/-- The bytes after the prefixes (R115). -/
def decodeCore (size : OpSize) (a32 : Bool) (ovr : Option SegName) : List Byte → Body
  | [] => .short
  | op :: bs =>
    if op = 0x0F#8 then
      match bs with
      | [] => .short
      | op2 :: bs => if op2 = 0x00#8 then decode0F00 size a32 ovr bs else .outside
    else if op = 0x9A#8 then decodePtr size .callPtr32 .callPtr16 bs
    else if op = 0xEA#8 then decodePtr size .jmpPtr32 .jmpPtr16 bs
    else if op = 0xFF#8 then decodeFF size a32 ovr bs
    else if op = 0xCF#8 then .instr (.iret size) bs
    else if op = 0xCD#8 then
      match bs with
      | [] => .short
      | n :: bs => .instr (.intImm8 n) bs
    else .outside

/-- The operand size from the code segment's D flag and the 66H prefix (R113). -/
def operandSize (d : Bool) (p : Prefixes) : OpSize := if d != p.opSize then .w32 else .w16

/-- The longest instruction, in bytes (R112). -/
def maxInstrBytes : Nat := 15

/-- Decoding a byte string in a code segment with D flag `d` (R113, R119). A LOCK prefix on an
instruction of the spec raises #UD (R113). DESIGN CHOICE (log 40), the rules giving no order between #UD and a
fetch that stops on a later byte: an undefined opcode extension is reported once its ModR/M byte is read, LOCK
only once the bytes of the instruction are all there (or its ModR/M byte asks for 16-bit addressing). -/
def decode (d : Bool) (bytes : List Byte) : Decoded :=
  match scanPrefixes .none bytes with
  | (p, rest) =>
    match decodeCore (operandSize d p) (d != p.addrSize) p.seg rest with
    | .instr i after =>
      if maxInstrBytes < bytes.length - after.length then .tooLong
      else if p.lock then .undefined
      else .instr i (bytes.length - after.length)
    | .undefined => .undefined
    | .addr16 => if p.lock then .undefined else .addr16
    | .outside => .outside
    | .short => .short

/-! ## Encoding -/

/-- A ModR/M or SIB byte from its three fields (R114). -/
def fieldByte (hi : BitVec 2) (mid lo : BitVec 3) : Byte := hi ++ mid ++ lo

/-- The mod field and the bytes of a displacement, the shortest form first (R114); a base EBP has
no form without a displacement. -/
def encodeDisp (base : Reg) (disp : Word) : BitVec 2 × List Byte :=
  if disp = 0#32 ∧ base ≠ .ebp then (0#2, [])
  else if (disp.setWidth 8).signExtend 32 = disp then (1#2, [disp.setWidth 8])
  else (2#2, Word.bytes disp)

/-- ModR/M, SIB and displacement of a memory operand (R114), with an opcode extension. -/
def encodeMem (ext : BitVec 3) (m : MemRef) : List Byte :=
  match m.base, m.index with
  | none, none => fieldByte 0#2 ext 5#3 :: Word.bytes m.disp
  | none, some (x, s) => fieldByte 0#2 ext 4#3 :: fieldByte s x.num 5#3 :: Word.bytes m.disp
  | some b, none =>
    let e := encodeDisp b m.disp
    if b = .esp then fieldByte e.1 ext 4#3 :: fieldByte 0#2 4#3 4#3 :: e.2
    else fieldByte e.1 ext b.num :: e.2
  | some b, some (x, s) =>
    let e := encodeDisp b m.disp
    fieldByte e.1 ext 4#3 :: fieldByte s x.num b.num :: e.2

/-- The segment-override prefix byte of a segment register (R113). -/
def segPrefix : SegName → Byte
  | .es => 0x26#8 | .cs => 0x2E#8 | .ss => 0x36#8 | .ds => 0x3E#8 | .fs => 0x64#8 | .gs => 0x65#8

/-- The override a memory operand needs: none when its segment is the default one (R114). -/
def segPrefixes (m : MemRef) : List Byte :=
  if m.seg = defaultSeg m.base then [] else [segPrefix m.seg]

/-- The 66H prefix where the code segment's default operand size is another (R113). -/
def sizePrefixes (d : Bool) : OpSize → List Byte
  | .w32 => if d then [] else [0x66#8]
  | .w16 => if d then [0x66#8] else []

/-- The 67H prefix where the code segment's default address size is 16 (R113). -/
def addrPrefixes (d : Bool) : List Byte := if d then [] else [0x67#8]

/-- The bytes of an instruction in a code segment with D flag `d` (R113 to R117). -/
def encode (d : Bool) : Instr → List Byte
  | .strRm16 (.reg16 r) => sizePrefixes d .w16 ++ [0x0F#8, 0x00#8, fieldByte 3#2 1#3 r.num]
  | .strRm16 (.reg32 r) => sizePrefixes d .w32 ++ [0x0F#8, 0x00#8, fieldByte 3#2 1#3 r.num]
  | .strRm16 (.mem m) => addrPrefixes d ++ (segPrefixes m ++ (0x0F#8 :: 0x00#8 :: encodeMem 1#3 m))
  | .ltrRm16 (.reg r) => [0x0F#8, 0x00#8, fieldByte 3#2 3#3 r.num]
  | .ltrRm16 (.mem m) => addrPrefixes d ++ (segPrefixes m ++ (0x0F#8 :: 0x00#8 :: encodeMem 3#3 m))
  | .callPtr32 sel off => sizePrefixes d .w32 ++ (0x9A#8 :: (Word.bytes off ++ Half.bytes sel))
  | .callPtr16 sel off => sizePrefixes d .w16 ++ (0x9A#8 :: (Half.bytes off ++ Half.bytes sel))
  | .callMem size m =>
    sizePrefixes d size ++ (addrPrefixes d ++ (segPrefixes m ++ (0xFF#8 :: encodeMem 3#3 m)))
  | .jmpPtr32 sel off => sizePrefixes d .w32 ++ (0xEA#8 :: (Word.bytes off ++ Half.bytes sel))
  | .jmpPtr16 sel off => sizePrefixes d .w16 ++ (0xEA#8 :: (Half.bytes off ++ Half.bytes sel))
  | .jmpMem size m =>
    sizePrefixes d size ++ (addrPrefixes d ++ (segPrefixes m ++ (0xFF#8 :: encodeMem 5#3 m)))
  | .iret size => sizePrefixes d size ++ [0xCF#8]
  | .intImm8 n => [0xCD#8, n]

/-! ## Words of the opcode table -/

/-- The bytes of a table word: bit 0 is the least significant bit of the first byte; bits at and
above `nbits` are 0, up to the longest instruction. -/
def tableBytes (nbits w : Nat) : List Byte := toLe maxInstrBytes (w % 2 ^ nbits)

/-- The instruction the decoder reads from a table word. The two sizes of a far pointer share one
opcode and the table gives no prefix, so the word is read in a 32-bit code segment (D = 1), the one
`State.reset` has (log 22). -/
def decodeTableWord (nbits w : Nat) : Option Instr :=
  match decode true (tableBytes nbits w) with
  | .instr i _ => some i
  | _ => none

end Sys2Proof
end

