-- ==== Sys2Proof/Machine/Fetch.lean ====
section
/-! DEFINITION. The instruction boundary: the pending debug trap, the event presented, and the fetch of
an instruction (60_exceptions.md R235, R245, 30_encoding.md R112, R119). -/

namespace Sys2Proof.Machine

/-- What happens at an instruction boundary: an instruction to run in a state, or an outcome. -/
inductive Boundary where
  | run (i : Instr) (s : State)
  | done (o : Result)

/-- A fetch as `Translate` sees it: "a read like any other" (20_memory.md R92, 92_eei_decisions.md D34), by the
program, so at its privilege level as its other reads are (log 39). -/
def fetchAccess (s : State) : Config.Access := userAccess s .read

/-- The bytes from CS:EIP + `k` on, as far as the code segment's limit and the translation let them be
read, at most `n` (30_encoding.md R112, 10_state.md R22). R22 leaves wrap-around at the top of the code segment
open. DESIGN CHOICE (log 42): the offset EIP + `k` does not wrap, so a byte past offset FFFFFFFFH is beyond
the limit of every segment, also of one of 4 GByte. -/
def fetchBytes (e : Config.Env) (s : State) (h : Hidden) : Nat → Nat → List Byte
  | _, 0 => []
  | k, n + 1 =>
    if s.eip.toNat + k ≤ h.limit.toNat then
      match physical e s (fetchAccess s) (h.base + s.eip + BitVec.ofNat 32 k) with
      | some p => s.mem.get p.toNat :: fetchBytes e s h (k + 1) n
      | none => []
    else []

/-- Outcomes that need protected mode (70_reset_and_hazards.md R262). -/
def inProtected (s : State) (o : Result) : Result :=
  if s.protectedMode then o else .refused .notProtectedMode

/-- An instruction that goes on past the `k` bytes that could be read: more than 15 bytes; bytes beyond
the segment's limit, outside the spec (U26), or past offset FFFFFFFFH (log 42); or a page fault. -/
def fetchRunsOut (e : Config.Env) (s : State) (h : Hidden) (k : Nat) : Result :=
  if maxInstrBytes ≤ k then .refused .instructionTooLong
  else if s.eip.toNat + k ≤ h.limit.toNat then inProtected s (settle e (.error (pageFault e s)))
  else .refused .fetchOutsideCodeSegment

/-- The instruction at CS:EIP: its bytes decoded under the code segment's D flag (R113, R119), with
`next_eip` latched modulo 2^32 (30_encoding.md R111; log 37). An invalid opcode raises #UD (R113, R117, R118). -/
def fetchDecoded (e : Config.Env) (s : State) (h : Hidden) : Boundary :=
  let bytes := fetchBytes e s h 0 maxInstrBytes
  match decode h.big bytes with
  | .instr i len => .run i (s.setNextEip (s.eip + BitVec.ofNat 32 len))
  | .undefined => .done (inProtected s (takeException e .ud none s))
  | .addr16 => .done (.refused .addressSize16)
  | .outside => .done (.refused .bytesOutsideSpec)
  | .tooLong => .done (.refused .instructionTooLong)
  | .short => .done (fetchRunsOut e s h bytes.length)

/-- What an instruction boundary does with CS's hidden part `h`. A pending task trap raises #DB and is
cleared (R245); then the event presented is taken, an interrupt only while IF is set (R235); else an
instruction is fetched. The trap comes before the event (PRESUMED, log 18). -/
def boundaryIn (e : Config.Env) (s : State) (h : Hidden) : Boundary :=
  if s.pendingTaskTrap then .done (inProtected s (takeException e .db none (s.setTrap false)))
  else
    match s.event with
    | none => fetchDecoded e s h
    | some (.intr n) =>
      if flagIF s.eflags then .done (inProtected s (deliverEvent e (.intr n) (s.setEvent none)))
      else fetchDecoded e s h
    | some (.exc n code retEip) =>
      .done (inProtected s (deliverEvent e (.exc n code retEip) (s.setEvent none)))

/-- The instruction boundary. Whatever it does needs CS to hold a usable code segment, so that CPL is
defined (70_reset_and_hazards.md R262, U12). No GDTR is refused: R262 gives no test of "GDTR names a GDT in
memory" (DESIGN CHOICE, log 41). -/
def boundary (e : Config.Env) (s : State) : Boundary :=
  match s.cs.hidden with
  | none => .done (.refused .codeSegmentUnusable)
  | some h => if h.isCode then boundaryIn e s h else .done (.refused .codeSegmentUnusable)

end Sys2Proof.Machine
end

