-- ==== Sys2Proof/Machine/Step.lean ====
section
/-! DEFINITION. One step: what the instruction boundary asks for (00_scope.md R13, R14). -/

namespace Sys2Proof.Machine

/-- One step of the machine: the trap or event of the boundary, or the instruction at CS:EIP run. -/
def step (s : State) : Host.Outcome State Fault Refusal :=
  match boundary Config.env s with
  | .run i t => exec i t
  | .done o => o

/-- A state with a table word stored where the next fetch reads (the bits above `nbits` are 0, up to
15 bytes), and no trap and no event before it, so that the next step runs it (log 9). -/
def State.withFetchWord (s : State) (nbits w : Nat) : State :=
  let base := match s.cs.hidden with
    | some h => h.base
    | none => 0#32
  match physRange Config.env s (fetchAccess s) (base + s.eip) maxInstrBytes with
  | some ps =>
    ((s.setMem (s.mem.setList ps (tableBytes nbits w))).setTrap false).setEvent none
  | none => (s.setTrap false).setEvent none

end Sys2Proof.Machine
end

