-- ==== Sys2Proof/Safety.lean ====
section
/-! DEFINITION. The states and runs that claims speak of: the states the spec's rules apply to, what a
loaded segment register and TR must hold, when a dispatch and a task switch go through, what a task
switch leaves, and the run the spec flags. -/

namespace Sys2Proof.Machine

/-- The constraints on a start state (70_reset_and_hazards.md R262): protected mode, not virtual-8086
mode, CS holding a usable code segment. The rule's fourth one, that GDTR names a GDT in memory, comes with no
test: DESIGN CHOICE (log 41), every GDTR names one. -/
def State.legal (s : State) : Bool :=
  s.protectedMode && (match s.cs.hidden with
    | some h => h.isCode
    | none => false)

/-- Bit 1 of EFLAGS reads 1 (10_state.md R24). -/
def State.bit1 (s : State) : Bool := s.eflags.getLsbD 1

/-- A hidden part's DPL, bits 6:5 of its attributes (20_memory.md R66). -/
def Hidden.dpl (h : Hidden) : BitVec 2 := h.attr.extractLsb' 5 2

/-- A hidden part's present flag, bit 7 of its attributes (20_memory.md R66). -/
def Hidden.present (h : Hidden) : Bool := h.attr.getLsbD 7

/-- The run that 42_task_switch.md R207 asks a model to flag: an IRET with NT set whose previous task
link names the current task's own descriptor (U11). -/
def returnsToItself (e : Config.Env) (s : State) : Bool :=
  flagNT s.eflags && (match previousLink e s with
    | .ok link => gdtAddr s link == gdtAddr s s.tr.sel
    | .error _ => false)

/-! ## Invariants -/

/-- CS and SS are as the checks K6 to K13 of a task switch leave them: CS a present code segment whose
DPL fits its selector's RPL, SS a present writable data segment of DPL CPL (42_task_switch.md R190 to
R197). A register whose hidden part is not usable does not fit. -/
def State.stackFits (s : State) : Bool :=
  match s.cs.hidden, s.ss.hidden with
  | some c, some k =>
    c.isCode && c.present &&
    (if c.attr.getLsbD 2 then decide (c.dpl.toNat ≤ s.cpl.toNat) else c.dpl == s.cpl) &&
    k.writable && k.present && k.dpl == s.cpl && selRPL s.ss.sel == s.cpl
  | _, _ => false

/-- TR describes a present, busy TSS: P = 1, S = 0, type[2:0] = 011B (20_memory.md R68). -/
def State.trBusy (s : State) : Bool :=
  s.tr.attr.getLsbD 7 && !s.tr.attr.getLsbD 4 && s.tr.attr.extractLsb' 0 3 == 3#3

/-! ## When a dispatch names a task -/

/-- The state an exception before any effect is raised in: the state on entry, but for the count of free
values that a page fault's error code draws from. -/
def Early (s u : State) : Prop := u = s ∨ u = s.setDraws (s.draws + 1)

/-- Lines L1 to L7 let LTR through with selector `sel` and descriptor `d`, and the access byte of the
descriptor is at physical address `q`
(40_task_register_instructions.md R130). -/
def LtrAdmits (e : Config.Env) (s : State) (src : LtrSrc) (sel : Half) (d : Desc) (q : Word) : Prop :=
  s.cpl = 0#2 ∧ ltrSource e s src = .ok sel ∧ selNull sel = false ∧ selTI sel = false ∧
  inGdt s sel = true ∧ descAt e s (gdtAddr s sel) = some d ∧ availableTss d = true ∧ d.p = true ∧
  physical e s sysWrite (gdtAddr s sel + 5#32) = some q

/-- Lines J1 to J5 of a far JMP or CALL let selector `sel` through to the TSS selector `newSel`: directly,
or through a task gate (41_task_dispatch.md R141, R143, R144). -/
def FarAdmits (e : Config.Env) (s : State) (sel newSel : Half) : Prop :=
  selNull sel = false ∧ inTable s sel = true ∧ ∃ d : Desc, descAt e s (descAddr s sel) = some d ∧
    s.cpl.toNat ≤ d.dpl.toNat ∧ (selRPL sel).toNat ≤ d.dpl.toNat ∧
    ((d.isTss = true ∧ selTI sel = false ∧ newSel = sel) ∨
     (d.isTaskGate = true ∧ d.p = true ∧ newSel = d.gateSel))

/-- Lines N1 to N3 of INT n let vector `n` through to the TSS selector `newSel` (R147). -/
def IntAdmits (e : Config.Env) (s : State) (n : Byte) (newSel : Half) : Prop :=
  inIdt s n = true ∧ ∃ g : Desc, descAt e s (idtAddr s n) = some g ∧ g.isTaskGate = true ∧
    s.cpl.toNat ≤ g.dpl.toNat ∧ g.p = true ∧ newSel = g.gateSel

/-- Lines E1 to E3 let an event with vector `n` through, with no DPL check (R148, R145). -/
def EventAdmits (e : Config.Env) (s : State) (n : Byte) (newSel : Half) : Prop :=
  inIdt s n = true ∧ ∃ g : Desc, descAt e s (idtAddr s n) = some g ∧ g.isTaskGate = true ∧
    g.p = true ∧ newSel = g.gateSel

/-- Lines I1 and I2 of IRET let it through to the TSS selector the previous task link holds (R146). -/
def IretAdmits (e : Config.Env) (s : State) (newSel : Half) : Prop :=
  flagNT s.eflags = true ∧ s.tr.loaded = true ∧ previousLink e s = .ok newSel

/-- Instruction `i` is a far transfer of `kind` whose selector is `sel`: in the instruction, or in the far
pointer its memory operand names (R141, R142, 30_encoding.md R117). -/
def FarForm (e : Config.Env) (s : State) (i : Instr) (kind : SwitchKind) (sel : Half) : Prop :=
  match i with
  | .callPtr32 x _ => kind = .call ∧ sel = x
  | .callPtr16 x _ => kind = .call ∧ sel = x
  | .callMem size m => kind = .call ∧ ∃ off, farPointer e s size m = .ok (sel, off)
  | .jmpPtr32 x _ => kind = .jmp ∧ sel = x
  | .jmpPtr16 x _ => kind = .jmp ∧ sel = x
  | .jmpMem size m => kind = .jmp ∧ ∃ off, farPointer e s size m = .ok (sel, off)
  | .strRm16 _ => False
  | .ltrRm16 _ => False
  | .iret _ => False
  | .intImm8 _ => False

/-- The next step fetches an instruction through CS's hidden part `h`: no pending trap, no event it would
take, a usable code segment (60_exceptions.md R235, R245, 70_reset_and_hazards.md R262). -/
def FetchesNext (s : State) (h : Hidden) : Prop :=
  s.pendingTaskTrap = false ∧
  (s.event = none ∨ ∃ n, s.event = some (.intr n) ∧ flagIF s.eflags = false) ∧
  s.cs.hidden = some h ∧ h.isCode = true

/-- Instruction `i` dispatches the task whose TSS selector is `newSel` with a switch of `kind`: its own lines
let it through (R141, R142, R146, R147). -/
def Dispatches (e : Config.Env) (s : State) (i : Instr) (kind : SwitchKind) (newSel : Half) : Prop :=
  (∃ sel, FarForm e s i kind sel ∧ FarAdmits e s sel newSel) ∨
  (kind = .intN ∧ ∃ n, i = .intImm8 n ∧ IntAdmits e s n newSel) ∨
  (kind = .iret ∧ ∃ size, i = .iret size ∧ IretAdmits e s newSel)

/-- `o` is #PF taken with nothing changed but the count of free values, from which its error code is drawn
(60_exceptions.md R230, log 17). -/
def TakesPageFault (e : Config.Env) (s : State) (o : Result) : Prop :=
  ∃ code : Half, o = takeException e .pf (some code) { s with draws := s.draws + 1 }

/-! ## When a task switch goes through -/

/-- Everything before the commit point holds: TR loaded (R263), K1 to K4 (42_task_switch.md R163 to R167)
on the new task's descriptor `nd`, and step 5, which finds the physical places `p` (R168). -/
structure SwitchReady (e : Config.Env) (kind : SwitchKind) (newSel : Half) (nd : Desc) (p : Plan)
    (s : State) : Prop where
  loaded : s.tr.loaded = true
  inGdt : selTI newSel = false ∧ 8 * selIndex newSel + 7 ≤ s.gdtr.limit.toNat
  desc : descAt e s (gdtAddr s newSel) = some nd
  present : nd.p = true
  busy : nd.isTss = true ∧ nd.busyBit = decide (kind = .iret)
  limit : minLimit s nd ≤ nd.effLimit.toNat
  pages : plan e kind newSel nd s = .ok p

/-- The image step 13 loads: the new TSS as it is in memory at the commit point. -/
def arrivalImage (e : Config.Env) (kind : SwitchKind) (newSel : Half) (nd : Desc) (p : Plan)
    (retEip : Word) (s : State) : TssImage :=
  newImage e p nd (commit e p kind newSel nd retEip s)

/-- The state once step 13 has loaded the registers, before any check of K5 to K17. -/
def arrivalState (e : Config.Env) (kind : SwitchKind) (newSel : Half) (nd : Desc) (p : Plan)
    (retEip : Word) (s : State) : State :=
  loadRegisters e kind (arrivalImage e kind newSel nd p retEip s) nd.is32
    (commit e p kind newSel nd retEip s)

/-- The load of step 13 is one the spec covers: no virtual-8086 task (R186, D24), and the TSSs and the
GDT do not move with CR3 (R271). -/
structure LoadReady (e : Config.Env) (kind : SwitchKind) (newSel : Half) (nd : Desc) (p : Plan)
    (retEip : Word) (s : State) : Prop where
  notV86 : flagVM (arrivalImage e kind newSel nd p retEip s).eflags = false
  mapping : mappingKept e s (commit e p kind newSel nd retEip s) nd
    (loadedCr3 s (arrivalImage e kind newSel nd p retEip s)) = true

/-- K5 to K17 hold for the new task (R189 to R201). -/
def ChecksHold (e : Config.Env) (kind : SwitchKind) (newSel : Half) (nd : Desc) (p : Plan)
    (retEip : Word) (s : State) : Prop :=
  ∀ c : Check, checkFailure e (arrivalState e kind newSel nd p retEip s) c = none

/-- A task switch to `newSel` goes through to the end. -/
structure SwitchGoes (e : Config.Env) (kind : SwitchKind) (newSel : Half) (nd : Desc) (p : Plan)
    (retEip : Word) (s : State) : Prop where
  ready : SwitchReady e kind newSel nd p s
  load : LoadReady e kind newSel nd p retEip s
  checks : ChecksHold e kind newSel nd p retEip s

/-! ## What a task switch leaves -/

/-- A segment selector of an image. -/
def TssImage.seg (i : TssImage) : SegName → Half
  | .es => i.es | .cs => i.cs | .ss => i.ss | .ds => i.ds | .fs => i.fs | .gs => i.gs

/-- The physical addresses steps 6 to 10 write, in their order. -/
def storedPlaces (kind : SwitchKind) (p : Plan) (nd : Desc) (s : State) : List Word :=
  (if kind.clearsOldBusy then [p.oldAccess] else []) ++
  (contig (p.oldTss + BitVec.ofNat 32 (saveOffset s.tr.is32)) (saveLength s.tr.is32) ++
  ((if kind.nesting then contig p.newTss (linkLength nd.is32) else []) ++
  (if kind = .iret then [] else [p.newAccess])))

/-- What every task switch past the commit point leaves, whether or not a check of K5 to K17 fails: TR,
CR0.TS, CR3, EFLAGS, EIP, the general registers and the selectors of the new task (R176, R177, R186, R188,
R174), and memory outside the bytes it stores to. `marked` are the access bytes of the descriptors it
loaded, whose accessed bit alone may have been set (D30). -/
structure InNewTask (e : Config.Env) (kind : SwitchKind) (newSel : Half) (nd : Desc) (p : Plan)
    (retEip : Word) (s : State) (marked : List Word) (t : State) : Prop where
  tr : t.tr = { sel := newSel, base := nd.base, limit := nd.effLimit, attr := nd.attr ||| 0x0002#16,
                loaded := true }
  cr0 : t.cr0 = s.cr0 ||| 0x00000008#32
  cr3 : t.cr3 = loadedCr3 s (arrivalImage e kind newSel nd p retEip s)
  eip : t.eip = (arrivalImage e kind newSel nd p retEip s).eip
  gpr : t.gpr = (arrivalImage e kind newSel nd p retEip s).gpr
  nt : flagNT t.eflags = (kind.nesting || flagNT (arrivalImage e kind newSel nd p retEip s).eflags)
  flags : t.eflags &&& ~~~(flagsReserved ||| 0x00004000#32) =
    (arrivalImage e kind newSel nd p retEip s).eflags &&& ~~~(flagsReserved ||| 0x00004000#32)
  bit1 : t.bit1 = true
  clean : (arrivalImage e kind newSel nd p retEip s).eflags &&& flagsReserved = flagsFixed →
    t.eflags = nestedFlags kind (arrivalImage e kind newSel nd p retEip s).eflags
  sel : ∀ r, (t.seg r).sel = (arrivalImage e kind newSel nd p retEip s).seg r
  ldt : t.ldtr.sel = (arrivalImage e kind newSel nd p retEip s).ldt
  gdtr : t.gdtr = s.gdtr
  idtr : t.idtr = s.idtr
  params : t.params = s.params
  event : t.event = s.event
  nextEip : t.nextEip = s.nextEip
  stored : ∀ a : Nat, (∀ q ∈ storedPlaces kind p nd s ++ marked, a ≠ q.toNat) →
    t.mem.get a = s.mem.get a
  marked : ∀ a : Nat, t.mem.get a = (commit e p kind newSel nd retEip s).mem.get a ∨
    ((∃ q ∈ marked, a = q.toNat) ∧
      t.mem.get a = (commit e p kind newSel nd retEip s).mem.get a ||| 0x01#8)

/-- The access bytes of the descriptors a completed switch loads. -/
def markedPlaces (e : Config.Env) (kind : SwitchKind) (newSel : Half) (nd : Desc) (p : Plan)
    (retEip : Word) (s : State) : List Word :=
  accessedPlaces e (arrivalState e kind newSel nd p retEip s)
    (loadChecks (arrivalState e kind newSel nd p retEip s))

/-- What a completed task switch leaves: the new task's state with every hidden part loaded, and a
pending trap when the T flag is set (R194, R202, R203). -/
structure Arrived (e : Config.Env) (kind : SwitchKind) (newSel : Half) (nd : Desc) (p : Plan)
    (retEip : Word) (s t : State) : Prop where
  inNewTask : InNewTask e kind newSel nd p retEip s (markedPlaces e kind newSel nd p retEip s) t
  hidden : ∀ r d, segLookup e (arrivalState e kind newSel nd p retEip s) (t.seg r).sel = .found d →
    (t.seg r).hidden = some { base := d.base, limit := d.effLimit, attr := d.attr }
  null : ∀ r, selNull (t.seg r).sel = true → (t.seg r).hidden = none
  ldt : ∀ d, ldtLookup e (arrivalState e kind newSel nd p retEip s) = .found d →
    t.ldtr.hidden = some { base := d.base, limit := d.effLimit, attr := d.attr }
  noLdt : selNull t.ldtr.sel = true → t.ldtr.hidden = none
  trap : t.pendingTaskTrap =
    (s.pendingTaskTrap || (arrivalImage e kind newSel nd p retEip s).trap)

/-- What a task switch leaves when a check of step 13 fails after the checks `held` have held (R202): the new
task's state; LDTR's and the segment registers' hidden parts loaded where all their checks are among `held`,
the others not usable; `pending_task_trap` free only when the new TSS's T flag is set (R203). -/
structure StoppedAfter (e : Config.Env) (kind : SwitchKind) (newSel : Half) (nd : Desc) (p : Plan)
    (retEip : Word) (s : State) (held : List Check) (u : State) : Prop where
  inNewTask : InNewTask e kind newSel nd p retEip s
    (accessedPlaces e (arrivalState e kind newSel nd p retEip s) held) u
  unloaded : ∀ r, (∃ k ∈ SegName.checks r, k ∉ held) → (u.seg r).hidden = none
  loaded : ∀ r d, (∀ k ∈ SegName.checks r, k ∈ held) →
    segLookup e (arrivalState e kind newSel nd p retEip s) (u.seg r).sel = .found d →
    (u.seg r).hidden = some { base := d.base, limit := d.effLimit, attr := d.attr }
  null : ∀ r, selNull (u.seg r).sel = true → (u.seg r).hidden = none
  ldtr : u.ldtr.hidden = if Check.ldtValid ∈ held ∧ Check.ldtPresent ∈ held then
    ldtHidden e (arrivalState e kind newSel nd p retEip s) else none
  trap : (arrivalImage e kind newSel nd p retEip s).trap = false → u.pendingTaskTrap = s.pendingTaskTrap

/-- The exception a failing check of step 13 is reported by: its own with the selector it names and the EXT
bit for an event (60_exceptions.md R232), or #PF, whose error code is free. -/
def Failure.ReportedAs (kind : SwitchKind) : Failure → Exc → Option Half → Prop
  | .fails x sel, y, code => y = x ∧ code = some (errSel sel ||| kind.ext)
  | .pageFault, y, code => y = .pf ∧ code.isSome = true

/-- The two TSSs and the two busy-flag bytes of a switch do not overlap, and none of the access bytes
`marked` lies among them. -/
def SwitchApart (p : Plan) (nd : Desc) (s : State) (marked : List Word) : Prop :=
  (p.oldAccess :: p.newAccess ::
    (contig p.oldTss (tssSize s.tr.is32) ++ contig p.newTss (tssSize nd.is32))).Nodup ∧
  ∀ q ∈ marked, q ∉ p.oldAccess :: p.newAccess ::
    (contig p.oldTss (tssSize s.tr.is32) ++ contig p.newTss (tssSize nd.is32))

/-! ## The selectors of the new task -/

/-- In the state step 13 has loaded, selector `sel` names descriptor `d`: not null, its table in force, the
entry inside it (20_memory.md R65, 42_task_switch.md R164). -/
def NamesDesc (e : Config.Env) (l : State) (sel : Half) (d : Desc) : Prop :=
  selNull sel = false ∧ (selTI sel = true → ldtOk e l = true) ∧
  inTable (withNewLdt e l) sel = true ∧ descAt e l (descAddr (withNewLdt e l) sel) = some d

/-- In that state `sel` names an entry of its table that cannot be read (U5). -/
def NamesAbsent (e : Config.Env) (l : State) (sel : Half) : Prop :=
  selNull sel = false ∧ (selTI sel = true → ldtOk e l = true) ∧
  inTable (withNewLdt e l) sel = true ∧ descAt e l (descAddr (withNewLdt e l) sel) = none

/-- In that state `sel` names no entry of its table, which is in force. -/
def OutsideTable (e : Config.Env) (l : State) (sel : Half) : Prop :=
  selNull sel = false ∧ (selTI sel = true → ldtOk e l = true) ∧ inTable (withNewLdt e l) sel = false

end Sys2Proof.Machine
end

