-- ==== Sys2Proof/Certificates/Slice0/Obligations.lean ====
section
/-! DEFINITION. The statements for the provers. Each docstring names the rules of spec/ it formalises; where a
statement rests on a choice of this model, it says so and names the log entry. -/

open Sys2Proof Sys2Proof.Machine Sys2Proof.Config

/-! ## Encoding and the step -/

/-- 30_encoding.md R112 to R117: decoding the bytes of any well-formed instruction, whatever follows them,
gives the instruction back with its length, at most 15 bytes, in a code segment of either default size. -/
def Obligations.DecodeInvertsEncode : Prop :=
  ∀ (d : Bool) (i : Instr) (rest : List Byte), i.wellFormed = true →
    decode d (encode d i ++ rest) = .instr i (encode d i).length ∧ (encode d i).length ≤ 15

/-- 30_encoding.md R115, R116 and 95_test_vectors.md V16: words written out from the encodings decode to the
instructions they stand for. -/
def Obligations.TableWordsDecode : Prop :=
  decode true [0x0F#8, 0x00#8, 0xD8#8] = .instr (.ltrRm16 (.reg .eax)) 3 ∧
  decode true [0x66#8, 0x0F#8, 0x00#8, 0xCB#8] = .instr (.strRm16 (.reg16 .ebx)) 4 ∧
  decode true [0xEA#8, 0x00#8, 0x00#8, 0x00#8, 0x00#8, 0x20#8, 0x00#8] =
    .instr (.jmpPtr32 0x0020#16 0#32) 7 ∧
  decode true [0x9A#8, 0x78#8, 0x56#8, 0x34#8, 0x12#8, 0x28#8, 0x00#8] =
    .instr (.callPtr32 0x0028#16 0x12345678#32) 7 ∧
  decode true [0xCF#8] = .instr (.iret .w32) 1 ∧
  decode true [0xCD#8, 0x40#8] = .instr (.intImm8 0x40#8) 2

/-- 30_encoding.md R113: a LOCK prefix on any instruction of the spec raises #UD. -/
def Obligations.LockPrefixIsUndefined : Prop :=
  ∀ (d : Bool) (i : Instr) (rest : List Byte), i.wellFormed = true →
    decode d (0xF0#8 :: (encode d i ++ rest)) = .undefined

/-- 30_encoding.md R117 and R118: a far transfer through a register operand and the undefined opcode
extensions raise #UD, whatever follows; that the ModR/M byte alone decides an undefined extension, also where
operand bytes after it cannot be fetched, is this model's choice (log 40). -/
def Obligations.UndefinedEncodings : Prop :=
  ∀ (d : Bool) (modrm : Byte) (rest : List Byte),
    (modrm.extractLsb' 6 2 = 3#2 → (modrm.extractLsb' 3 3 = 3#3 ∨ modrm.extractLsb' 3 3 = 5#3) →
      decode d (0xFF#8 :: modrm :: rest) = .undefined) ∧
    (modrm.extractLsb' 3 3 = 7#3 → decode d (0xFF#8 :: modrm :: rest) = .undefined) ∧
    ((modrm.extractLsb' 3 3 = 6#3 ∨ modrm.extractLsb' 3 3 = 7#3) →
      decode d (0x0F#8 :: 0x00#8 :: modrm :: rest) = .undefined)

/-- 00_scope.md R13, 30_encoding.md R111, R112, R119: when no trap and no event comes first and the bytes at
CS:EIP decode to an instruction, the step is that instruction run with `next_eip` behind it; with paging off
those bytes are the ones in memory at `CS.base + EIP`. In every environment, paging on or off, the bytes inside the
limit are the ones a read by the program at that address gives, and they end where that read page-faults: a fetch
is a read like any other (20_memory.md R92, D34; that such a read is at CPL: log 39). `next_eip` wraps modulo 2^32 (log 37); bytes past offset FFFFFFFFH are not
fetched (log 42). -/
def Obligations.StepRunsTheDecodedInstruction : Prop :=
  (∀ (s : State) (h : Hidden) (i : Instr) (len : Nat), FetchesNext s h →
    decode h.big (fetchBytes Config.env s h 0 15) = .instr i len →
    step s = exec i { s with nextEip := s.eip + BitVec.ofNat 32 len }) ∧
  (∀ (s : State) (h : Hidden), s.paging = false → s.eip.toNat + 14 ≤ h.limit.toNat →
    fetchBytes Config.env s h 0 15 = s.mem.getList (contig (h.base + s.eip) 15)) ∧
  (∀ (e : Config.Env) (s : State) (h : Hidden) (n : Nat), n ≤ 15 → s.eip.toNat + n ≤ h.limit.toNat + 1 →
    (∀ bs : List Byte, readBytes e s (userAccess s .read) (h.base + s.eip) n = some bs →
      (fetchBytes e s h 0 15).take n = bs) ∧
    (readBytes e s (userAccess s .read) (h.base + s.eip) n = none → (fetchBytes e s h 0 15).length < n))

/-- 30_encoding.md R113, R117, R118: in protected mode, bytes that are an invalid opcode make the step take #UD in
the state it began in. Which bytes are one before a later byte stops the fetch is log 40's choice. -/
def Obligations.StepTakesInvalidOpcode : Prop :=
  ∀ (s : State) (h : Hidden), s.protectedMode = true → FetchesNext s h →
    decode h.big (fetchBytes Config.env s h 0 15) = .undefined →
    step s = takeException Config.env .ud none s

/-- 60_exceptions.md R245, 42_task_switch.md R203: a pending task trap is cleared and #DB taken, with the EIP
of the instruction not executed, before any event and any instruction (before an event: log 18). -/
def Obligations.PendingTrapTakesDebugException : Prop :=
  ∀ s : State, s.legal = true → s.pendingTaskTrap = true →
    step s = takeException Config.env .db none { s with pendingTaskTrap := false }

/-- 70_reset_and_hazards.md R262, 30_encoding.md R118: a state the rules do not apply to is refused, whatever trap,
event or instruction comes next. Without a usable code segment (S = 1 and type[3] = 1, 20_memory.md R69) every
step is refused; outside protected mode every step is, but for LTR and STR, whose #UD is the outcome (log 20). The
fourth constraint of R262, that GDTR names a GDT in memory, has no test there: this model holds it of every GDTR
(log 41). -/
def Obligations.StatesOutsideTheSpecAreRefused : Prop :=
  ∀ s : State,
    ((∀ h, s.cs.hidden = some h → (h.attr.getLsbD 4 && h.attr.getLsbD 3) = false) →
      step s = .refused .codeSegmentUnusable) ∧
    (s.protectedMode = false →
      (∃ r, step s = .refused r) ∨
      ∃ i v, boundary Config.env s = .run i { s with nextEip := v } ∧
        ((∃ dst, i = .strRm16 dst) ∨ ∃ src, i = .ltrRm16 src) ∧
        step s = .fault (.exception .ud none { s with nextEip := v }))

/-! ## Reset -/

/-- 10_state.md R44 and R46: the task register after reset, and no pending task trap. -/
def Obligations.ResetTaskRegister : Prop :=
  State.reset.tr.sel = 0x0000#16 ∧ State.reset.tr.base = 0x00000000#32 ∧
  State.reset.tr.limit = 0x0000FFFF#32 ∧ State.reset.pendingTaskTrap = false

/-- 70_reset_and_hazards.md R261, R262: the state after reset is one the rules apply to, and it meets the
invariants below. The reset vector, the initial mode and the initial interrupt mask (10_state.md R47) and all
other values outside TR are this model's (log 1 to 5, 7 and 8), and of TR so is the attribute field, on which the
clause of a busy TSS rests (log 6: R44 and U14 leave it unspecified). That GDTR names a GDT is log 41. -/
def Obligations.ResetMeetsInvariants : Prop :=
  State.reset.legal = true ∧ State.reset.bit1 = true ∧ State.reset.stackFits = true ∧
  State.reset.trBusy = true ∧ State.reset.mem.wf = true ∧ State.reset.pendingTaskTrap = false ∧
  State.reset.tr.loaded = false ∧
  State.reset.eip = 0x00010000#32 ∧ cr0PE State.reset.cr0 = true ∧ flagIF State.reset.eflags = false

/-- 70_reset_and_hazards.md R263: before TR is loaded no dispatching instruction switches tasks: it is refused;
STR runs and gives the selector TR holds. -/
def Obligations.NothingSwitchesBeforeLtr : Prop :=
  ∀ s : State, s.protectedMode = true → s.tr.loaded = false →
    (∀ (i : Instr) (kind : SwitchKind) (sel newSel : Half), FarForm Config.env s i kind sel →
      FarAdmits Config.env s sel newSel → exec i s = .refused .taskRegisterNotLoaded) ∧
    (∀ size : OpSize, flagNT s.eflags = true → exec (.iret size) s = .refused .taskRegisterNotLoaded) ∧
    (∀ (n : Byte) (newSel : Half), IntAdmits Config.env s n newSel →
      exec (.intImm8 n) s = .refused .taskRegisterNotLoaded) ∧
    (∀ r : Reg, ∃ t, exec (.strRm16 (.reg16 r)) s = .next t ∧ low (t.gpr.get r) = s.tr.sel)

/-! ## Invariants -/

/-- The canonical form of memory is kept by every step, whatever it runs, delivers or refuses. -/
def Obligations.MemoryStaysCanonical : Prop :=
  ∀ s t : State, s.mem.wf = true → step s = .next t → t.mem.wf = true

/-- 70_reset_and_hazards.md R262, 10_state.md R24: protected mode, no virtual-8086 mode, a usable code segment
and EFLAGS bit 1 are kept by every step. -/
def Obligations.ModeStaysLegal : Prop :=
  ∀ s t : State, s.legal = true → s.bit1 = true → step s = .next t → t.legal = true ∧ t.bit1 = true

/-- 42_task_switch.md R190 to R197, 60_exceptions.md R242: CS stays a present code segment whose DPL fits CPL,
SS a present writable data segment of DPL and RPL equal to CPL. -/
def Obligations.CodeAndStackStayFit : Prop :=
  ∀ s t : State, s.stackFits = true → step s = .next t → t.stackFits = true

/-- 42_task_switch.md R177, 40_task_register_instructions.md R130: TR always describes a present busy TSS, and
once loaded it stays loaded. -/
def Obligations.TaskRegisterStaysBusyTss : Prop :=
  ∀ s t : State, s.trBusy = true → step s = .next t →
    t.trBusy = true ∧ (s.tr.loaded = true → t.tr.loaded = true)

/-- 10_state.md R29, R30, R31, 60_exceptions.md R249 (section 7): no step changes GDTR or IDTR; of CR0 no step
changes anything but TS, and nothing clears TS; with paging off and the default `CR3_LOAD_NEEDS_PG` CR3 stays.
No step changes a parameter: that they stand in the state is this model's choice (log 11). -/
def Obligations.TablesAndControlRegistersStay : Prop :=
  ∀ s t : State, step s = .next t →
    t.gdtr = s.gdtr ∧ t.idtr = s.idtr ∧ t.params = s.params ∧
    (t.cr0 = s.cr0 ∨ t.cr0 = s.cr0 ||| 0x00000008#32) ∧
    (s.paging = false → s.params.cr3LoadNeedsPg = true → t.cr3 = s.cr3)

/-! ## LTR and STR -/

/-- 40_task_register_instructions.md R130: LTR of an available, present TSS at CPL 0 completes for every source
form; TR and the busy flag change, EIP advances, and nothing else. That the flag is set in the byte where entry + 5
translates for a write, on the value that byte holds, is this model's choice (log 39): the rules do not say how
`LockedRMW` goes through `Translate`. -/
def Obligations.LtrCompletes : Prop :=
  ∀ (s : State) (src : LtrSrc) (sel : Half) (d : Desc) (q : Word), s.protectedMode = true →
    LtrAdmits Config.env s src sel d q →
    ∃ t, exec (.ltrRm16 src) s = .next t ∧
      t = { s with
        mem := t.mem, eip := s.nextEip
        tr := { sel := sel, base := d.base, limit := d.effLimit, attr := d.attr ||| 0x0002#16,
                loaded := true } } ∧
      t.mem.get q.toNat = s.mem.get q.toNat ||| 0x02#8 ∧
      ∀ a : Nat, a ≠ q.toNat → t.mem.get a = s.mem.get a

/-- 40_task_register_instructions.md R130 (lines L1, L3, L4, L6, L7), 60_exceptions.md R230: the faults of LTR, and in
every environment its page faults, those of a memory source, of the descriptor's read and of the locked write
(which asks `Translate` for a write, log 39). Each is taken in the state on entry, a page fault with its error
code drawn. That the CPL check comes before a memory source is read, so that a CPL other than 0 gives #GP(0)
whatever the source, is this model's choice (log 33): R130 does not specify it. -/
def Obligations.LtrFaults : Prop :=
  ∀ (s : State) (src : LtrSrc) (sel : Half), s.protectedMode = true →
    exec (.ltrRm16 src) s = settle Config.env (ltr Config.env src s) ∧
    (s.cpl ≠ 0#2 → exec (.ltrRm16 src) s = takeException Config.env .gp (some 0x0000#16) s) ∧
    (s.cpl = 0#2 → ltrSource Config.env s src = .ok sel →
      (selNull sel = true → exec (.ltrRm16 src) s = takeException Config.env .gp (some 0x0000#16) s) ∧
      (selNull sel = false → (selTI sel = true ∨ s.gdtr.limit.toNat < 8 * selIndex sel + 7) →
        exec (.ltrRm16 src) s = takeException Config.env .gp (some (errSel sel)) s) ∧
      (∀ d : Desc, selNull sel = false → selTI sel = false → 8 * selIndex sel + 7 ≤ s.gdtr.limit.toNat →
        descAt Config.env s (gdtAddr s sel) = some d →
        ((d.s = true ∨ (d.type ≠ 9#4 ∧ d.type ≠ 1#4)) →
          exec (.ltrRm16 src) s = takeException Config.env .gp (some (errSel sel)) s) ∧
        (d.s = false → (d.type = 9#4 ∨ d.type = 1#4) → d.p = false →
          exec (.ltrRm16 src) s = takeException Config.env .np (some (errSel sel)) s))) ∧
    ∀ e : Config.Env, s.cpl = 0#2 →
      (∀ (m : MemRef) (la : Word), operandAddr s m 2 Hidden.readable = .ok la →
        readBytes e s (userAccess s .read) la 2 = none → TakesPageFault e s (settle e (ltr e (.mem m) s))) ∧
      (ltrSource e s src = .ok sel → selNull sel = false → selTI sel = false →
        8 * selIndex sel + 7 ≤ s.gdtr.limit.toNat →
        (descAt e s (gdtAddr s sel) = none → TakesPageFault e s (settle e (ltr e src s))) ∧
        ∀ d : Desc, descAt e s (gdtAddr s sel) = some d → d.s = false → (d.type = 9#4 ∨ d.type = 1#4) →
          d.p = true → physical e s sysWrite (gdtAddr s sel + 5#32) = none →
          TakesPageFault e s (settle e (ltr e src s)))

/-- 40_task_register_instructions.md R131, 10_state.md R21: STR to a register completes at every CPL. A 16-bit
register gets TR's selector in its low half and keeps its upper half; a 32-bit one gets it under an upper half
that is free (D10, log 10). Nothing else changes but EIP. -/
def Obligations.StrToRegisterCompletes : Prop :=
  ∀ (s : State) (r : Reg), s.protectedMode = true →
    (∃ t, exec (.strRm16 (.reg16 r)) s = .next t ∧ t = { s with gpr := t.gpr, eip := s.nextEip } ∧
      t.gpr.get r = (s.gpr.get r).extractLsb' 16 16 ++ s.tr.sel ∧
      ∀ k, k ≠ r → t.gpr.get k = s.gpr.get k) ∧
    (∃ t, exec (.strRm16 (.reg32 r)) s = .next t ∧
      t = { s with gpr := t.gpr, eip := s.nextEip, draws := t.draws } ∧
      low (t.gpr.get r) = s.tr.sel ∧ ∀ k, k ≠ r → t.gpr.get k = s.gpr.get k)

/-- 40_task_register_instructions.md R131: STR to memory stores the 16 bits of TR's selector, low byte first, at
the address its operand names (MemoryOperandAddress says which), for any operand whose segment and pages let it
be written; where a page does not, #PF is taken with nothing written (log 35), in every environment. -/
def Obligations.StrToMemoryCompletes : Prop :=
  ∀ (s : State) (m : MemRef) (la : Word), s.protectedMode = true →
    operandAddr s m 2 Hidden.writable = .ok la →
    exec (.strRm16 (.mem m)) s = settle Config.env (str Config.env (.mem m) s) ∧
    (∀ p0 p1 : Word, physRange Config.env s (userAccess s .write) la 2 = some [p0, p1] → p0 ≠ p1 →
      ∃ t, exec (.strRm16 (.mem m)) s = .next t ∧ t = { s with mem := t.mem, eip := s.nextEip } ∧
        t.mem.get p0.toNat = s.tr.sel.extractLsb' 0 8 ∧ t.mem.get p1.toNat = s.tr.sel.extractLsb' 8 8 ∧
        ∀ a : Nat, a ≠ p0.toNat → a ≠ p1.toNat → t.mem.get a = s.mem.get a) ∧
    ∀ e : Config.Env, physRange e s (userAccess s .write) la 2 = none →
      TakesPageFault e s (settle e (str e (.mem m) s))

/-- 30_encoding.md R114: a memory operand is at its segment's base plus `base + (index << scale) + disp`, modulo
2^32, the base and the index 0 where there is none; without an override the segment is SS for a base ESP or EBP
and DS otherwise. It is used where the segment is usable and its checks hold, and refused by name elsewhere: the
checks, their faults being outside the rule, are this model's (log 24; no wrap of the offset past FFFFFFFFH: log 42),
as U12 asks for an unusable segment. -/
def Obligations.MemoryOperandAddress : Prop :=
  ∀ (s : State) (m : MemRef) (n : Nat) (ok : Hidden → Bool),
    let off : Word :=
      (match m.base with | some r => s.gpr.get r | none => 0#32) +
      (match m.index with | some (r, scale) => s.gpr.get r <<< scale.toNat | none => 0#32) + m.disp
    (∀ h : Hidden, (s.seg m.seg).hidden = some h →
      operandAddr s m n ok =
        if ok h = true ∧ h.covers off n = true then .ok (h.base + off)
        else .error (.refused .segmentCheckFails)) ∧
    ((s.seg m.seg).hidden = none → operandAddr s m n ok = .error (.refused .segmentUnusable)) ∧
    (∀ h : Hidden, (h.attr.getLsbD 3 = true ∨ h.attr.getLsbD 2 = false) →
      (h.covers off n = true ↔ off.toNat + n ≤ h.limit.toNat + 1)) ∧
    defaultSeg m.base = (if m.base = some .esp ∨ m.base = some .ebp then .ss else .ds)

/-- 30_encoding.md R118: outside protected mode LTR and STR raise #UD, in every operand form, and that is the outcome
of the run (log 14, 20). -/
def Obligations.TaskRegisterInstructionsNeedProtectedMode : Prop :=
  ∀ (s : State) (src : LtrSrc) (dst : StrDest), s.protectedMode = false →
    exec (.ltrRm16 src) s = .fault (.exception .ud none s) ∧
    exec (.strRm16 dst) s = .fault (.exception .ud none s)

/-! ## Far JMP and far CALL -/

/-- 41_task_dispatch.md R141, R143, R144: every form of far JMP to a TSS descriptor or a task gate completes with a
switch of kind JMP when its access checks and the task switch go through. -/
def Obligations.JmpToTaskCompletes : Prop :=
  ∀ (s : State) (sel newSel : Half) (nd : Desc) (p : Plan), s.protectedMode = true →
    FarAdmits Config.env s sel newSel → SwitchGoes Config.env .jmp newSel nd p s.nextEip s →
    (∀ off : Word, ∃ t, exec (.jmpPtr32 sel off) s = .next t ∧
      Arrived Config.env .jmp newSel nd p s.nextEip s t) ∧
    (∀ off : Half, ∃ t, exec (.jmpPtr16 sel off) s = .next t ∧
      Arrived Config.env .jmp newSel nd p s.nextEip s t) ∧
    (∀ (size : OpSize) (m : MemRef) (off : Word), farPointer Config.env s size m = .ok (sel, off) →
      ∃ t, exec (.jmpMem size m) s = .next t ∧ Arrived Config.env .jmp newSel nd p s.nextEip s t)

/-- 41_task_dispatch.md R142, R143, R144: every form of far CALL to a TSS descriptor or a task gate completes with a
switch of kind CALL. -/
def Obligations.CallToTaskCompletes : Prop :=
  ∀ (s : State) (sel newSel : Half) (nd : Desc) (p : Plan), s.protectedMode = true →
    FarAdmits Config.env s sel newSel → SwitchGoes Config.env .call newSel nd p s.nextEip s →
    (∀ off : Word, ∃ t, exec (.callPtr32 sel off) s = .next t ∧
      Arrived Config.env .call newSel nd p s.nextEip s t) ∧
    (∀ off : Half, ∃ t, exec (.callPtr16 sel off) s = .next t ∧
      Arrived Config.env .call newSel nd p s.nextEip s t) ∧
    (∀ (size : OpSize) (m : MemRef) (off : Word), farPointer Config.env s size m = .ok (sel, off) →
      ∃ t, exec (.callMem size m) s = .next t ∧ Arrived Config.env .call newSel nd p s.nextEip s t)

/-- 41_task_dispatch.md R141 lines J1, J2, J4, J5, R143, R144, 20_memory.md R71: the faults of every form of far JMP
and far CALL before a task switch, each taken in the state on entry; and the page faults of a far pointer in
memory and of the descriptor's read (60_exceptions.md R230), in every environment, their error code drawn. -/
def Obligations.FarTransferFaults : Prop :=
  (∀ s : State, s.protectedMode = true → ∀ (size : OpSize) (m : MemRef),
    exec (.jmpMem size m) s = settle Config.env (farThroughMemory Config.env .jmp size m s) ∧
    exec (.callMem size m) s = settle Config.env (farThroughMemory Config.env .call size m s)) ∧
  (∀ (e : Config.Env) (s : State) (kind : SwitchKind) (size : OpSize) (m : MemRef) (la : Word),
    operandAddr s m (offsetBytes size + 2) Hidden.readable = .ok la →
    readBytes e s (userAccess s .read) la (offsetBytes size + 2) = none →
    TakesPageFault e s (settle e (farThroughMemory e kind size m s))) ∧
  (∀ (e : Config.Env) (s : State) (kind : SwitchKind) (sel : Half), selNull sel = false →
    inTable s sel = true → descAt e s (descAddr s sel) = none →
    TakesPageFault e s (settle e (farTransfer e kind sel s))) ∧
  ∀ (s : State) (i : Instr) (kind : SwitchKind) (sel : Half), s.protectedMode = true →
    FarForm Config.env s i kind sel →
    exec i s = settle Config.env (farTransfer Config.env kind sel s) ∧
    (selNull sel = true → exec i s = takeException Config.env .gp (some 0x0000#16) s) ∧
    (selNull sel = false → inTable s sel = false →
      exec i s = takeException Config.env .gp (some (errSel sel)) s) ∧
    (∀ d : Desc, selNull sel = false → inTable s sel = true →
      descAt Config.env s (descAddr s sel) = some d →
      (d.isTss = true → (selTI sel = true ∨ d.dpl.toNat < s.cpl.toNat ∨ d.dpl.toNat < (selRPL sel).toNat) →
        exec i s = takeException Config.env .gp (some (errSel sel)) s) ∧
      (d.isTaskGate = true → (d.dpl.toNat < s.cpl.toNat ∨ d.dpl.toNat < (selRPL sel).toNat) →
        exec i s = takeException Config.env .gp (some (errSel sel)) s) ∧
      (d.isTaskGate = true → s.cpl.toNat ≤ d.dpl.toNat → (selRPL sel).toNat ≤ d.dpl.toNat → d.p = false →
        exec i s = takeException Config.env .np (some (errSel sel)) s))

/-- 41_task_dispatch.md R149: the offset of a far pointer in the instruction has no effect on a transfer to a task. -/
def Obligations.OffsetOfTaskTransferIsNotUsed : Prop :=
  ∀ (s : State) (sel : Half) (x y : Word) (u v : Half),
    exec (.jmpPtr32 sel x) s = exec (.jmpPtr32 sel y) s ∧
    exec (.jmpPtr16 sel u) s = exec (.jmpPtr16 sel v) s ∧
    exec (.callPtr32 sel x) s = exec (.callPtr32 sel y) s ∧
    exec (.callPtr16 sel u) s = exec (.callPtr16 sel v) s

/-- 30_encoding.md R117, R116: a far pointer in memory is the offset, 4 or 2 bytes by operand size, and the selector at
the next higher address; a 16-bit offset is zero-extended. -/
def Obligations.FarPointerInMemory : Prop :=
  ∀ (e : Config.Env) (s : State) (m : MemRef) (la : Word), s.paging = false →
    (operandAddr s m 6 Hidden.readable = .ok la →
      farPointer e s .w32 m = .ok (ofLe 16 (s.mem.getList [la + 4#32, la + 5#32]),
        ofLe 32 (s.mem.getList [la, la + 1#32, la + 2#32, la + 3#32]))) ∧
    (operandAddr s m 4 Hidden.readable = .ok la →
      farPointer e s .w16 m = .ok (ofLe 16 (s.mem.getList [la + 2#32, la + 3#32]),
        (ofLe 16 (s.mem.getList [la, la + 1#32])).setWidth 32))

/-- 41_task_dispatch.md R153, R146 line I1, R147 line N4: transfers inside the current task are outside the spec and
refused by name. -/
def Obligations.SameTaskFormsAreRefused : Prop :=
  ∀ s : State, s.protectedMode = true →
    (∀ (i : Instr) (kind : SwitchKind) (sel : Half) (d : Desc), FarForm Config.env s i kind sel →
      selNull sel = false → inTable s sel = true → descAt Config.env s (descAddr s sel) = some d →
      d.isTss = false → d.isTaskGate = false → exec i s = .refused .sameTaskTransfer) ∧
    (∀ size : OpSize, flagNT s.eflags = false → exec (.iret size) s = .refused .sameTaskReturn) ∧
    (∀ (n : Byte) (g : Desc), inIdt s n = true → descAt Config.env s (idtAddr s n) = some g →
      g.isTaskGate = false → exec (.intImm8 n) s = .refused .sameTaskInterrupt)

/-! ## INT n, IRET, events and exceptions -/

/-- 41_task_dispatch.md R147, R145: INT n through a task gate completes with a switch of kind INT_N. -/
def Obligations.IntToTaskCompletes : Prop :=
  ∀ (s : State) (n : Byte) (newSel : Half) (nd : Desc) (p : Plan), s.protectedMode = true →
    IntAdmits Config.env s n newSel → SwitchGoes Config.env .intN newSel nd p s.nextEip s →
    ∃ t, exec (.intImm8 n) s = .next t ∧ Arrived Config.env .intN newSel nd p s.nextEip s t

/-- 41_task_dispatch.md R147 lines N1 and N3, R145: the faults of INT n, each taken in the state on entry; and the
page fault of the IDT entry's read (60_exceptions.md R230), in every environment, its error code drawn. -/
def Obligations.IntFaults : Prop :=
  ∀ (s : State) (n : Byte), s.protectedMode = true →
    exec (.intImm8 n) s = settle Config.env (softwareInterrupt Config.env n s) ∧
    (∀ e : Config.Env, 8 * n.toNat + 7 ≤ s.idtr.limit.toNat → descAt e s (idtAddr s n) = none →
      TakesPageFault e s (settle e (softwareInterrupt e n s))) ∧
    (s.idtr.limit.toNat < 8 * n.toNat + 7 →
      exec (.intImm8 n) s = takeException Config.env .gp (some (errIdt n)) s) ∧
    (∀ g : Desc, 8 * n.toNat + 7 ≤ s.idtr.limit.toNat → descAt Config.env s (idtAddr s n) = some g →
      g.isTaskGate = true →
      (g.dpl.toNat < s.cpl.toNat →
        exec (.intImm8 n) s = takeException Config.env .gp (some (errIdt n)) s) ∧
      (s.cpl.toNat ≤ g.dpl.toNat → g.p = false →
        exec (.intImm8 n) s = takeException Config.env .np (some (errIdt n)) s))

/-- 41_task_dispatch.md R146, 60_exceptions.md R238: IRET with NT set, of either operand size, completes with a switch
of kind IRET to the task the previous task link names. The link is the two bytes at offset 0 of the current TSS
(line I2, 20_memory.md R84): with paging off those at TR.base, with paging on those its first byte's page holds;
where that first byte is not present, #PF is taken with nothing changed (log 31). -/
def Obligations.IretToPreviousTaskCompletes : Prop :=
  (∀ (s : State) (size : OpSize), s.protectedMode = true →
    exec (.iret size) s = settle Config.env (returnFromTask Config.env s) ∧
    ∀ (link : Half) (nd : Desc) (p : Plan), IretAdmits Config.env s link →
      SwitchGoes Config.env .iret link nd p s.nextEip s →
      ∃ t, exec (.iret size) s = .next t ∧ Arrived Config.env .iret link nd p s.nextEip s t) ∧
  ∀ (e : Config.Env) (s : State),
    (s.paging = false → previousLink e s =
      .ok (s.mem.get (s.tr.base + 1#32).toNat ++ s.mem.get s.tr.base.toNat)) ∧
    (∀ p : Word, physRange e s sysRead s.tr.base 2 = some [p, p + 1#32] → previousLink e s =
      .ok (s.mem.get (p + 1#32).toNat ++ s.mem.get p.toNat)) ∧
    (flagNT s.eflags = true → s.tr.loaded = true → physical e s sysRead s.tr.base = none →
      TakesPageFault e s (settle e (returnFromTask e s)))

/-- 41_task_dispatch.md R148, R145, R151, 60_exceptions.md R235, R237: an external interrupt with IF set, and an
exception event, are taken at an instruction boundary with a switch through their task gate, whatever its DPL; the
interrupt saves the EIP of the next instruction, the exception the EIP its class gives. An exception event with an
error code then pushes it on the new task's stack (that the model pushes is log 16; how, ErrorCodeIsPushed). That
an event is cleared when it is taken, before the switch, is this model's choice (log 18). -/
def Obligations.EventsEnterTheirTask : Prop :=
  ∀ (s : State) (n : Byte) (newSel : Half) (nd : Desc) (p : Plan), s.legal = true →
    s.pendingTaskTrap = false → EventAdmits Config.env s n newSel →
    (s.event = some (.intr n) → flagIF s.eflags = true →
      SwitchGoes Config.env .intr newSel nd p s.eip { s with event := none } →
      ∃ t, step s = .next t ∧ Arrived Config.env .intr newSel nd p s.eip { s with event := none } t) ∧
    (∀ retEip : Word, s.event = some (.exc n none retEip) →
      SwitchGoes Config.env .exc newSel nd p retEip { s with event := none } →
      ∃ t, step s = .next t ∧ Arrived Config.env .exc newSel nd p retEip { s with event := none } t) ∧
    (∀ (code : Half) (retEip : Word), s.event = some (.exc n (some code) retEip) →
      SwitchGoes Config.env .exc newSel nd p retEip { s with event := none } →
      ∃ t, Arrived Config.env .exc newSel nd p retEip { s with event := none } t ∧
        step s = endDelivery (pushErrorCode Config.env code t) ∧
        ∀ u, pushErrorCode Config.env code t = .ok u → step s = .next u)

/-- 41_task_dispatch.md R148 lines E1 and E3, 60_exceptions.md R232: an event outside the IDT or through a gate that is
not present raises #GP or #NP with the EXT bit set; it arises during delivery, which this model does not continue
(U22, log 15). That the event is cleared in the state of the fault, because it is cleared when it is taken, is this
model's choice (log 18). -/
def Obligations.EventFaults : Prop :=
  ∀ (s : State) (n : Byte), s.legal = true → s.pendingTaskTrap = false →
    ((s.event = some (.intr n) ∧ flagIF s.eflags = true) ∨
      ∃ code retEip, s.event = some (.exc n code retEip)) →
    (s.idtr.limit.toNat < 8 * n.toNat + 7 →
      step s = .fault (.exceptionDuringDelivery .gp (some (errIdt n ||| 1#16)) { s with event := none })) ∧
    (∀ g : Desc, 8 * n.toNat + 7 ≤ s.idtr.limit.toNat → descAt Config.env s (idtAddr s n) = some g →
      g.isTaskGate = true → g.p = false →
      step s = .fault (.exceptionDuringDelivery .np (some (errIdt n ||| 1#16)) { s with event := none }))

/-- 60_exceptions.md R233, R237: an exception whose vector's IDT entry is a task gate is taken by a switch of kind EXC
to the handler task, saving the EIP of the state it is raised in; an error code is pushed there afterwards (R151;
that the model goes on so is log 14 and 16). -/
def Obligations.ExceptionEntersHandlerTask : Prop :=
  ∀ (s : State) (x : Exc) (newSel : Half) (nd : Desc) (p : Plan), s.protectedMode = true →
    EventAdmits Config.env s x.vector newSel → SwitchGoes Config.env .exc newSel nd p s.eip s →
    ∃ t, takeException Config.env x none s = .next t ∧ Arrived Config.env .exc newSel nd p s.eip s t ∧
      ∀ code : Half, takeException Config.env x (some code) s =
        endDelivery (pushErrorCode Config.env code t)

/-- 60_exceptions.md R233: an exception without a task gate, or outside protected mode, is the outcome of the run, with
its name, its error code and the state it was raised in (log 14). -/
def Obligations.ExceptionWithoutTaskGateEndsTheRun : Prop :=
  ∀ (s : State) (x : Exc) (code : Option Half),
    (s.protectedMode = false ∨ gateIsTaskGate Config.env s x.vector = false) →
    takeException Config.env x code s = .fault (.exception x code s)

/-- 41_task_dispatch.md R151: the error code is pushed on the handler's stack as 32 bits for a 32-bit TSS and as 16 bits
for a 16-bit one, the upper half of the 32 bits unspecified. The rule gives it as general knowledge and leaves the
push to `Deliver`; how it is done, with ESP in a 32-bit stack segment and SP in a 16-bit one, is this model's choice
(log 16). -/
def Obligations.ErrorCodeIsPushed : Prop :=
  ∀ (e : Config.Env) (s : State) (code : Half) (h : Hidden), s.paging = false → s.ss.hidden = some h →
    h.writable = true →
    (s.tr.is32 = true → h.covers (pushOffset h s.gpr.esp 4) 4 = true →
      ∃ t, pushErrorCode e code s = .ok t ∧
        t = { s with
          gpr := { s.gpr with esp := espAfterPush h s.gpr.esp (pushOffset h s.gpr.esp 4) }
          mem := t.mem, draws := t.draws } ∧
        ofLe 16 (t.mem.getList (contig (h.base + pushOffset h s.gpr.esp 4) 2)) = code ∧
        ∀ a : Nat, (∀ q ∈ contig (h.base + pushOffset h s.gpr.esp 4) 4, a ≠ q.toNat) →
          t.mem.get a = s.mem.get a) ∧
    (s.tr.is32 = false → h.covers (pushOffset h s.gpr.esp 2) 2 = true →
      ∃ t, pushErrorCode e code s = .ok t ∧
        t = { s with
          gpr := { s.gpr with esp := espAfterPush h s.gpr.esp (pushOffset h s.gpr.esp 2) }
          mem := t.mem, draws := t.draws } ∧
        ofLe 16 (t.mem.getList (contig (h.base + pushOffset h s.gpr.esp 2) 2)) = code ∧
        ∀ a : Nat, (∀ q ∈ contig (h.base + pushOffset h s.gpr.esp 2) 2, a ≠ q.toNat) →
          t.mem.get a = s.mem.get a) ∧
    ∀ n : Nat,
      (h.big = true → pushOffset h s.gpr.esp n = s.gpr.esp - BitVec.ofNat 32 n ∧
        espAfterPush h s.gpr.esp (pushOffset h s.gpr.esp n) = s.gpr.esp - BitVec.ofNat 32 n) ∧
      (h.big = false → pushOffset h s.gpr.esp n = (low s.gpr.esp - BitVec.ofNat 16 n).setWidth 32 ∧
        espAfterPush h s.gpr.esp (pushOffset h s.gpr.esp n) =
          s.gpr.esp.extractLsb' 16 16 ++ (low s.gpr.esp - BitVec.ofNat 16 n))

/-! ## The task switch before the commit point -/

/-- 42_task_switch.md R163 (K1): a new-task selector with TI set or outside the GDT raises #GP for every kind of switch,
with nothing changed. -/
def Obligations.SelectorOutsideGdtFails : Prop :=
  ∀ (e : Config.Env) (kind : SwitchKind) (newSel : Half) (retEip : Word) (s : State),
    s.tr.loaded = true → (selTI newSel = true ∨ s.gdtr.limit.toNat < 8 * selIndex newSel + 7) →
    taskSwitch e kind newSel retEip s = .error (.raised .gp (some (errSel newSel ||| kind.ext)) s)

/-- 42_task_switch.md R165 (K2): a new task whose descriptor is not present raises #NP, with nothing changed. When other
checks fail too, that is so under the order of Table 6-1 (R164). -/
def Obligations.NotPresentTaskFails : Prop :=
  ∀ (e : Config.Env) (kind : SwitchKind) (newSel : Half) (retEip : Word) (s : State) (nd : Desc),
    s.tr.loaded = true → selTI newSel = false → 8 * selIndex newSel + 7 ≤ s.gdtr.limit.toNat →
    descAt e s (gdtAddr s newSel) = some nd → nd.p = false →
    (s.params.checkOrder = CheckId.table ∨
      (nd.isTss = true ∧ nd.busyBit = decide (kind = .iret) ∧ minLimit s nd ≤ nd.effLimit.toNat)) →
    taskSwitch e kind newSel retEip s = .error (.raised .np (some (errSel newSel ||| kind.ext)) s)

/-- 42_task_switch.md R166 (K3): a present descriptor that is no TSS descriptor, or whose busy flag is not what the kind
of switch needs, raises #GP, or #TS for IRET, with nothing changed. -/
def Obligations.BusyTestFails : Prop :=
  ∀ (e : Config.Env) (kind : SwitchKind) (newSel : Half) (retEip : Word) (s : State) (nd : Desc),
    s.tr.loaded = true → selTI newSel = false → 8 * selIndex newSel + 7 ≤ s.gdtr.limit.toNat →
    descAt e s (gdtAddr s newSel) = some nd → nd.p = true →
    (nd.isTss = false ∨ nd.busyBit = decide (kind ≠ .iret)) →
    taskSwitch e kind newSel retEip s =
      .error (.raised (if kind = .iret then .ts else .gp) (some (errSel newSel ||| kind.ext)) s)

/-- 42_task_switch.md R167 (K4), 20_memory.md R80: a TSS limit below 67H, or below `TSS16_MIN_LIMIT` for a 16-bit TSS,
raises #TS, with nothing changed. -/
def Obligations.ShortTssFails : Prop :=
  ∀ (e : Config.Env) (kind : SwitchKind) (newSel : Half) (retEip : Word) (s : State) (nd : Desc),
    s.tr.loaded = true → selTI newSel = false → 8 * selIndex newSel + 7 ≤ s.gdtr.limit.toNat →
    descAt e s (gdtAddr s newSel) = some nd → nd.p = true → nd.isTss = true →
    nd.busyBit = decide (kind = .iret) →
    nd.effLimit.toNat < (if nd.is32 then 0x67 else s.params.tss16MinLimit.toNat) →
    taskSwitch e kind newSel retEip s = .error (.raised .ts (some (errSel newSel ||| kind.ext)) s)

/-- 42_task_switch.md R168 (step 5), 20_memory.md R62: with paging off step 5 always holds and the structures are where
their linear addresses say; with a byte of either TSS or of either descriptor not present the switch raises #PF
with nothing changed but the count of free values. (The new descriptor is read first, after K1.) A structure the
switch writes of which a byte cannot be written where it is read is refused (R85, 70_reset_and_hazards.md R269,
U4): the old TSS, the new one when nesting, the descriptor whose busy flag is cleared or set. The spec speaks of
pages that are not writable; that the refusal also covers a write translation that only differs from the read one,
and bytes of such a structure that the switch does not store to, is this model's choice (log 13). -/
def Obligations.StepFive : Prop :=
  ∀ (e : Config.Env) (kind : SwitchKind) (newSel : Half) (nd : Desc) (s : State),
    (s.paging = false → plan e kind newSel nd s =
      .ok { oldTss := s.tr.base, newTss := nd.base,
            oldAccess := s.gdtr.base + BitVec.ofNat 32 (8 * selIndex s.tr.sel) + 5#32,
            newAccess := s.gdtr.base + BitVec.ofNat 32 (8 * selIndex newSel) + 5#32 }) ∧
    (∀ retEip : Word, s.tr.loaded = true → preChecks e kind newSel s = .ok nd →
      (physRange e s sysRead s.tr.base (tssSize s.tr.is32) = none ∨
       physRange e s sysRead nd.base (tssSize nd.is32) = none ∨
       physRange e s sysRead (gdtAddr s s.tr.sel) 8 = none) →
      ∃ code, taskSwitch e kind newSel retEip s =
        .error (.raised .pf (some code) { s with draws := s.draws + 1 })) ∧
    (∀ retEip : Word, s.tr.loaded = true → preChecks e kind newSel s = .ok nd →
      (physRange e s sysRead s.tr.base (tssSize s.tr.is32)).isSome = true →
      (physRange e s sysRead nd.base (tssSize nd.is32)).isSome = true →
      (physRange e s sysRead (gdtAddr s s.tr.sel) 8).isSome = true →
      (physRange e s sysWrite s.tr.base (tssSize s.tr.is32) ≠
          physRange e s sysRead s.tr.base (tssSize s.tr.is32) ∨
       (kind.nesting = true ∧ physRange e s sysWrite nd.base (tssSize nd.is32) ≠
          physRange e s sysRead nd.base (tssSize nd.is32)) ∨
       ((kind = .jmp ∨ kind = .iret) ∧ physRange e s sysWrite (gdtAddr s s.tr.sel) 8 ≠
          physRange e s sysRead (gdtAddr s s.tr.sel) 8) ∨
       (kind ≠ .iret ∧ physRange e s sysWrite (gdtAddr s newSel) 8 ≠
          physRange e s sysRead (gdtAddr s newSel) 8)) →
      ∃ r, taskSwitch e kind newSel retEip s = .error (.refused r)) ∧
    (∀ retEip : Word, s.tr.loaded = true → selTI newSel = false →
      8 * selIndex newSel + 7 ≤ s.gdtr.limit.toNat → physRange e s sysRead (gdtAddr s newSel) 8 = none →
      ∃ code, taskSwitch e kind newSel retEip s =
        .error (.raised .pf (some code) { s with draws := s.draws + 1 }))

/-- 41_task_dispatch.md R150, 43_task_linking.md R214, 42_task_switch.md R166: a far JMP, a far CALL or an INT n that names
a busy task, the current one or a suspended one, directly or through a gate, raises #GP with that task's selector,
taken in the state on entry. -/
def Obligations.BusyTaskCannotBeEntered : Prop :=
  ∀ (s : State) (newSel : Half) (nd : Desc), s.protectedMode = true → s.tr.loaded = true →
    selTI newSel = false → 8 * selIndex newSel + 7 ≤ s.gdtr.limit.toNat →
    descAt Config.env s (gdtAddr s newSel) = some nd → nd.p = true → nd.isTss = true → nd.busyBit = true →
    (∀ (i : Instr) (kind : SwitchKind) (sel : Half), FarForm Config.env s i kind sel →
      FarAdmits Config.env s sel newSel →
      exec i s = takeException Config.env .gp (some (errSel newSel)) s) ∧
    (∀ n : Byte, IntAdmits Config.env s n newSel →
      exec (.intImm8 n) s = takeException Config.env .gp (some (errSel newSel)) s)

/-! ## The commit and the load -/

/-- 42_task_switch.md R176, R177: every switch past the commit point, whatever its kind and whether or not a check of
step 13 fails, sets CR0.TS and loads TR with the selector, RPL bits included, and the descriptor of the new task,
marked busy; STR then returns that selector. -/
def Obligations.SwitchLoadsTaskRegisterAndSetsTs : Prop :=
  ∀ (e : Config.Env) (kind : SwitchKind) (newSel : Half) (retEip : Word) (s t : State) (nd : Desc),
    descAt e s (gdtAddr s newSel) = some nd →
    (taskSwitch e kind newSel retEip s = .ok t ∨
      ((∃ p, SwitchReady e kind newSel nd p s) ∧
        ∃ x code, taskSwitch e kind newSel retEip s = .error (.raised x code t))) →
    t.cr0 = s.cr0 ||| 0x00000008#32 ∧ cr0TS t.cr0 = true ∧
    t.tr.sel = newSel ∧ t.tr.base = nd.base ∧ t.tr.limit = nd.effLimit ∧
    t.tr.attr = nd.attr ||| 0x0002#16 ∧ t.tr.attr.getLsbD 1 = true ∧
    ∀ (r : Reg) (u : State), str e (.reg16 r) t = .ok u → low (u.gpr.get r) = newSel

/-- 42_task_switch.md R205, Table 6-2, with R169, R170, R173, R174, R175, R176: the busy flags, the NT flags, the previous
task links and CR0.TS before and after a completed switch of every kind, for two TSSs and two descriptors that do
not overlap. The NT flag of the old task is bit 14 of the EFLAGS image saved in its TSS. -/
def Obligations.TableSixTwo : Prop :=
  ∀ (e : Config.Env) (kind : SwitchKind) (newSel : Half) (nd : Desc) (p : Plan) (retEip : Word) (s t : State),
    SwitchGoes e kind newSel nd p retEip s → taskSwitch e kind newSel retEip s = .ok t →
    SwitchApart p nd s (markedPlaces e kind newSel nd p retEip s) →
    (s.mem.get p.newAccess.toNat).getLsbD 1 = decide (kind = .iret) ∧
    (t.mem.get p.newAccess.toNat).getLsbD 1 = true ∧
    (t.mem.get p.oldAccess.toNat).getLsbD 1 =
      (!decide (kind = .jmp ∨ kind = .iret) && (s.mem.get p.oldAccess.toNat).getLsbD 1) ∧
    flagNT t.eflags = (kind.nesting || flagNT (tssImage e 0 s.mem p.newTss nd.is32).eflags) ∧
    flagNT (tssImage e 0 t.mem p.oldTss s.tr.is32).eflags = (!decide (kind = .iret) && flagNT s.eflags) ∧
    ofLe 16 (tssBytes t.mem p.newTss 0 2) =
      (if kind.nesting then s.tr.sel else ofLe 16 (tssBytes s.mem p.newTss 0 2)) ∧
    ofLe 16 (tssBytes t.mem p.oldTss 0 2) = ofLe 16 (tssBytes s.mem p.oldTss 0 2) ∧
    cr0TS t.cr0 = true

/-- 42_task_switch.md R170, R171, R172, R180, R181, 20_memory.md R79: the old task's registers are in its TSS after a
completed switch, the static fields and the link there are as before. In a 16-bit TSS only the low halves are, and
no FS and GS. -/
def Obligations.OldTaskIsSaved : Prop :=
  ∀ (e : Config.Env) (kind : SwitchKind) (newSel : Half) (nd : Desc) (p : Plan) (retEip : Word) (s t : State),
    SwitchGoes e kind newSel nd p retEip s → taskSwitch e kind newSel retEip s = .ok t →
    SwitchApart p nd s (markedPlaces e kind newSel nd p retEip s) →
    (s.tr.is32 = true →
      image32 t.mem p.oldTss =
        { image32 s.mem p.oldTss with
          eip := retEip, eflags := if kind = .iret then s.eflags &&& 0xFFFFBFFF#32 else s.eflags
          gpr := s.gpr, es := s.es.sel, cs := s.cs.sel, ss := s.ss.sel, ds := s.ds.sel, fs := s.fs.sel
          gs := s.gs.sel } ∧
      ∀ f : TssField, f.savedOnSuspend = false →
        tssBytes t.mem p.oldTss f.at32.1 f.at32.2 = tssBytes s.mem p.oldTss f.at32.1 f.at32.2) ∧
    (s.tr.is32 = false →
      image16 e 0 t.mem p.oldTss =
        { image16 e 0 s.mem p.oldTss with
          eip := (low retEip).setWidth 32
          eflags := (low (if kind = .iret then s.eflags &&& 0xFFFFBFFF#32 else s.eflags)).setWidth 32
          gpr := { eax := e.draw16 0 ++ low s.gpr.eax, ecx := e.draw16 1 ++ low s.gpr.ecx
                   edx := e.draw16 2 ++ low s.gpr.edx, ebx := e.draw16 3 ++ low s.gpr.ebx
                   esp := e.draw16 4 ++ low s.gpr.esp, ebp := e.draw16 5 ++ low s.gpr.ebp
                   esi := e.draw16 6 ++ low s.gpr.esi, edi := e.draw16 7 ++ low s.gpr.edi }
          es := s.es.sel, cs := s.cs.sel, ss := s.ss.sel, ds := s.ds.sel } ∧
      ∀ (f : TssField) (off : Nat), f.savedOnSuspend = false → f.at16 = some off →
        tssBytes t.mem p.oldTss off 2 = tssBytes s.mem p.oldTss off 2)

/-- 42_task_switch.md R186, R188, R174: after a completed switch the registers are what the new task's TSS held before it.
A 32-bit TSS gives all 32 bits and, with paging on or `CR3_LOAD_NEEDS_PG` false, CR3; a 16-bit one gives the low
halves of the general registers, zero-extended EIP, null FS and GS, and leaves CR3. NT is set when nesting. The
EFLAGS positions compared are those with a meaning in the family (log 26). -/
def Obligations.NewTaskIsLoaded : Prop :=
  ∀ (e : Config.Env) (kind : SwitchKind) (newSel : Half) (nd : Desc) (p : Plan) (retEip : Word) (s t : State),
    SwitchGoes e kind newSel nd p retEip s → taskSwitch e kind newSel retEip s = .ok t →
    SwitchApart p nd s (markedPlaces e kind newSel nd p retEip s) →
    (nd.is32 = true →
      t.eip = (image32 s.mem p.newTss).eip ∧ t.gpr = (image32 s.mem p.newTss).gpr ∧
      (∀ r, (t.seg r).sel = (image32 s.mem p.newTss).seg r) ∧
      t.ldtr.sel = (image32 s.mem p.newTss).ldt ∧
      t.cr3 = (if s.paging = true ∨ s.params.cr3LoadNeedsPg = false then tssWord s.mem p.newTss .cr3
        else s.cr3) ∧
      t.eflags &&& ~~~flagsReserved =
        (if kind.nesting then tssWord s.mem p.newTss .eflags ||| 0x00004000#32
          else tssWord s.mem p.newTss .eflags) &&& ~~~flagsReserved ∧
      t.pendingTaskTrap = (s.pendingTaskTrap || tssTrap s.mem p.newTss)) ∧
    (nd.is32 = false →
      t.eip = (tss16Half s.mem p.newTss .eip).setWidth 32 ∧
      low t.gpr.eax = tss16Half s.mem p.newTss .eax ∧ low t.gpr.ecx = tss16Half s.mem p.newTss .ecx ∧
      low t.gpr.edx = tss16Half s.mem p.newTss .edx ∧ low t.gpr.ebx = tss16Half s.mem p.newTss .ebx ∧
      low t.gpr.esp = tss16Half s.mem p.newTss .esp ∧ low t.gpr.ebp = tss16Half s.mem p.newTss .ebp ∧
      low t.gpr.esi = tss16Half s.mem p.newTss .esi ∧ low t.gpr.edi = tss16Half s.mem p.newTss .edi ∧
      t.es.sel = tss16Half s.mem p.newTss .es ∧ t.cs.sel = tss16Half s.mem p.newTss .cs ∧
      t.ss.sel = tss16Half s.mem p.newTss .ss ∧ t.ds.sel = tss16Half s.mem p.newTss .ds ∧
      t.fs = { sel := 0#16, hidden := none } ∧ t.gs = { sel := 0#16, hidden := none } ∧
      t.ldtr.sel = tss16Half s.mem p.newTss .ldt ∧ t.cr3 = s.cr3 ∧
      t.eflags &&& ~~~flagsReserved =
        (if kind.nesting then (tss16Half s.mem p.newTss .eflags).setWidth 32 ||| 0x00004000#32
          else (tss16Half s.mem p.newTss .eflags).setWidth 32) &&& ~~~flagsReserved ∧
      t.pendingTaskTrap = s.pendingTaskTrap)

/-! ## The checks of step 13 -/

/-- 42_task_switch.md R189 and R194 (K5, K10): the LDT selector of the new task. Null holds and leaves LDTR unusable,
and then no selector with TI set is inside its table; else it must name, in the GDT, an LDT descriptor, and that
must be present; each failure is #TS with the selector, and when both hold LDTR's hidden part is the
descriptor's. -/
def Obligations.LdtChecks : Prop :=
  ∀ (e : Config.Env) (l : State),
    (selNull l.ldtr.sel = true → checkFailure e l .ldtValid = none ∧ checkFailure e l .ldtPresent = none ∧
      ldtHidden e l = none ∧
      ∀ sel, selTI sel = true → inTable (withNewLdt e l) sel = false) ∧
    (selNull l.ldtr.sel = false →
      (selTI l.ldtr.sel = true ∨ l.gdtr.limit.toNat < 8 * selIndex l.ldtr.sel + 7) →
      checkFailure e l .ldtValid = some (.fails .ts l.ldtr.sel)) ∧
    (∀ d : Desc, selNull l.ldtr.sel = false → selTI l.ldtr.sel = false →
      8 * selIndex l.ldtr.sel + 7 ≤ l.gdtr.limit.toNat →
      descAt e l (gdtAddr l l.ldtr.sel) = some d →
      checkFailure e l .ldtValid =
        (if d.s = false ∧ d.type = 2#4 then none else some (.fails .ts l.ldtr.sel)) ∧
      (d.s = false → d.type = 2#4 →
        checkFailure e l .ldtPresent = (if d.p = true then none else some (.fails .ts l.ldtr.sel)) ∧
        (d.p = true → ldtHidden e l =
          some { base := d.base, limit := d.effLimit, attr := d.attr })))

/-- 42_task_switch.md R195, R190 and R196 (K11, K6, K12): the code segment of the new task. -/
def Obligations.CodeSegmentChecks : Prop :=
  ∀ (e : Config.Env) (l : State),
    ((selNull l.cs.sel = true ∨ OutsideTable e l l.cs.sel) →
      checkFailure e l .csValid = some (.fails .ts l.cs.sel)) ∧
    (∀ d : Desc, NamesDesc e l l.cs.sel d →
      checkFailure e l .csValid =
        (if d.s = true ∧ d.type.getLsbD 3 = true then none else some (.fails .ts l.cs.sel)) ∧
      (d.s = true → d.type.getLsbD 3 = true →
        checkFailure e l .csDpl =
          (if (if d.type.getLsbD 2 then d.dpl.toNat ≤ (selRPL l.cs.sel).toNat else d.dpl = selRPL l.cs.sel)
            then none else some (.fails .ts l.cs.sel)) ∧
        checkFailure e l .csPresent = (if d.p = true then none else some (.fails .np l.cs.sel))))

/-- 42_task_switch.md R191, R192, R193 and R197 (K7, K8, K9, K13): the stack segment of the new task. -/
def Obligations.StackSegmentChecks : Prop :=
  ∀ (e : Config.Env) (l : State),
    ((selNull l.ss.sel = true ∨ OutsideTable e l l.ss.sel) →
      checkFailure e l .ssValid = some (.fails .ts l.ss.sel)) ∧
    (∀ d : Desc, NamesDesc e l l.ss.sel d →
      checkFailure e l .ssValid =
        (if d.s = true ∧ d.type.getLsbD 3 = false ∧ d.type.getLsbD 1 = true then none
          else some (.fails .ts l.ss.sel)) ∧
      (d.s = true → d.type.getLsbD 3 = false → d.type.getLsbD 1 = true →
        checkFailure e l .ssPresent = (if d.p = true then none else some (.fails .sf l.ss.sel)) ∧
        checkFailure e l .ssDplCpl = (if d.dpl = l.cpl then none else some (.fails .ts l.ss.sel)) ∧
        checkFailure e l .ssDplRpl =
          (if d.dpl = selRPL l.ss.sel then none else some (.fails .ts l.ss.sel))))

/-- 42_task_switch.md R198, R199, R200 and R201 (K14 to K17): DS, ES, FS and GS of the new task. A null selector holds
and skips the rest. -/
def Obligations.DataSegmentChecks : Prop :=
  ∀ (e : Config.Env) (l : State) (r : DataSeg),
    (selNull (l.seg r.name).sel = true →
      checkFailure e l (.dataValid r) = none ∧ checkFailure e l (.dataReadable r) = none ∧
      checkFailure e l (.dataPresent r) = none ∧ checkFailure e l (.dataDpl r) = none ∧
      ∀ passed, segHidden e l passed r.name = none) ∧
    (OutsideTable e l (l.seg r.name).sel →
      checkFailure e l (.dataValid r) = some (.fails .ts (l.seg r.name).sel)) ∧
    (∀ d : Desc, NamesDesc e l (l.seg r.name).sel d →
      checkFailure e l (.dataValid r) =
        (if d.s = true then none else some (.fails .ts (l.seg r.name).sel)) ∧
      (d.s = true →
        checkFailure e l (.dataReadable r) =
          (if d.type.getLsbD 3 = false ∨ d.type.getLsbD 1 = true then none
            else some (.fails .ts (l.seg r.name).sel)) ∧
        checkFailure e l (.dataPresent r) =
          (if d.p = true then none else some (.fails .np (l.seg r.name).sel)) ∧
        checkFailure e l (.dataDpl r) =
          (if (d.type.getLsbD 3 = true ∧ d.type.getLsbD 2 = true) ∨ l.cpl.toNat ≤ d.dpl.toNat then none
            else some (.fails .ts (l.seg r.name).sel))))

/-- 20_memory.md R64, R65: where a selector and a vector are looked up. In the current task a selector with TI clear is
in the GDT, one with TI set in the current LDT, if there is one; vector n is IDT entry n. For a selector of the new
task TI set means the new LDT, which K5 and K10 have put in force. -/
def Obligations.SelectorsAreLookedUpInTheirTable : Prop :=
  (∀ (s : State) (sel : Half),
    (selTI sel = false →
      inTable s sel = decide (8 * (sel >>> 3).toNat + 7 ≤ s.gdtr.limit.toNat) ∧
      descAddr s sel = s.gdtr.base + BitVec.ofNat 32 (8 * (sel >>> 3).toNat)) ∧
    (∀ h : Hidden, selTI sel = true → s.ldtr.hidden = some h →
      inTable s sel = decide (8 * (sel >>> 3).toNat + 7 ≤ h.limit.toNat) ∧
      descAddr s sel = h.base + BitVec.ofNat 32 (8 * (sel >>> 3).toNat)) ∧
    (selTI sel = true → s.ldtr.hidden = none → inTable s sel = false) ∧
    inGdt s sel = decide (8 * (sel >>> 3).toNat + 7 ≤ s.gdtr.limit.toNat) ∧
    gdtAddr s sel = s.gdtr.base + BitVec.ofNat 32 (8 * (sel >>> 3).toNat)) ∧
  (∀ (s : State) (n : Byte),
    inIdt s n = decide (8 * n.toNat + 7 ≤ s.idtr.limit.toNat) ∧
    idtAddr s n = s.idtr.base + BitVec.ofNat 32 (8 * n.toNat)) ∧
  ∀ (e : Config.Env) (l : State) (sel : Half),
    (selTI sel = false →
      inTable (withNewLdt e l) sel = decide (8 * (sel >>> 3).toNat + 7 ≤ l.gdtr.limit.toNat) ∧
      descAddr (withNewLdt e l) sel = l.gdtr.base + BitVec.ofNat 32 (8 * (sel >>> 3).toNat)) ∧
    (∀ h : Hidden, selTI sel = true → ldtHidden e l = some h →
      inTable (withNewLdt e l) sel = decide (8 * (sel >>> 3).toNat + 7 ≤ h.limit.toNat) ∧
      descAddr (withNewLdt e l) sel = h.base + BitVec.ofNat 32 (8 * (sel >>> 3).toNat)) ∧
    (selTI sel = true → ldtHidden e l = none → inTable (withNewLdt e l) sel = false)

/-- 42_task_switch.md R164: with the default `CHECK_ORDER` the checks of step 13 come in the order of Table 6-1, the four
data registers as DS, ES, FS, GS inside each. -/
def Obligations.DefaultCheckOrder : Prop :=
  ∀ s : State, s.params = Params.default → ∃ rest, loadChecks s =
    [.ldtValid, .csDpl, .ssValid, .ssPresent, .ssDplCpl, .ldtPresent, .csValid, .csPresent, .ssDplRpl,
     .dataValid .ds, .dataValid .es, .dataValid .fs, .dataValid .gs,
     .dataReadable .ds, .dataReadable .es, .dataReadable .fs, .dataReadable .gs,
     .dataPresent .ds, .dataPresent .es, .dataPresent .fs, .dataPresent .gs,
     .dataDpl .ds, .dataDpl .es, .dataDpl .fs, .dataDpl .gs] ++ rest

/-- 42_task_switch.md R164: a check is skipped, and counts as holding, when the check that makes its descriptor
available fails: K4 needs K3; K10 needs K5; K6 and K12 need K11; K8, K9 and K13 need K7; K15, K16 and K17 need K14 of
their register; every check on a selector with TI set needs K5 and K10. -/
def Obligations.ChecksThatNeedAFailingOneAreSkipped : Prop :=
  (∀ (kind : SwitchKind) (nd : Desc) (s : State) (x : Exc), preCheck kind nd s .k3 = some x →
    preCheck kind nd s .k4 = none) ∧
  ∀ (e : Config.Env) (l : State) (x : Exc) (sel : Half),
    (checkFailure e l .ldtValid = some (.fails x sel) → checkFailure e l .ldtPresent = none) ∧
    (checkFailure e l .csValid = some (.fails x sel) →
      checkFailure e l .csDpl = none ∧ checkFailure e l .csPresent = none) ∧
    (checkFailure e l .ssValid = some (.fails x sel) →
      checkFailure e l .ssPresent = none ∧ checkFailure e l .ssDplCpl = none ∧
      checkFailure e l .ssDplRpl = none) ∧
    (∀ r, checkFailure e l (.dataValid r) = some (.fails x sel) →
      checkFailure e l (.dataReadable r) = none ∧ checkFailure e l (.dataPresent r) = none ∧
      checkFailure e l (.dataDpl r) = none) ∧
    ((checkFailure e l .ldtValid ≠ none ∨ checkFailure e l .ldtPresent ≠ none) →
      (selTI l.cs.sel = true → checkFailure e l .csValid = none ∧ checkFailure e l .csDpl = none ∧
        checkFailure e l .csPresent = none) ∧
      (selTI l.ss.sel = true → checkFailure e l .ssValid = none ∧ checkFailure e l .ssPresent = none ∧
        checkFailure e l .ssDplCpl = none ∧ checkFailure e l .ssDplRpl = none) ∧
      ∀ r, selTI (l.seg (DataSeg.name r)).sel = true → checkFailure e l (.dataValid r) = none ∧
        checkFailure e l (.dataReadable r) = none ∧ checkFailure e l (.dataPresent r) = none ∧
        checkFailure e l (.dataDpl r) = none)

/-- 42_task_switch.md R168, R202 (U5): a descriptor of step 13 that cannot be read page-faults. The rule does not say at
which check; in this model it is every check that reads it, so the first of them in `CHECK_ORDER` reports it
(log 29). -/
def Obligations.AbsentDescriptorPageFaults : Prop :=
  ∀ (e : Config.Env) (l : State),
    (selNull l.ldtr.sel = false → selTI l.ldtr.sel = false →
      8 * selIndex l.ldtr.sel + 7 ≤ l.gdtr.limit.toNat → descAt e l (gdtAddr l l.ldtr.sel) = none →
      ∀ c ∈ [Check.ldtValid, .ldtPresent], checkFailure e l c = some .pageFault) ∧
    (NamesAbsent e l l.cs.sel →
      ∀ c ∈ [Check.csValid, .csDpl, .csPresent], checkFailure e l c = some .pageFault) ∧
    (NamesAbsent e l l.ss.sel →
      ∀ c ∈ [Check.ssValid, .ssPresent, .ssDplCpl, .ssDplRpl], checkFailure e l c = some .pageFault) ∧
    ∀ r, NamesAbsent e l (l.seg (DataSeg.name r)).sel →
      ∀ c ∈ [Check.dataValid r, .dataReadable r, .dataPresent r, .dataDpl r],
        checkFailure e l c = some .pageFault

/-- 42_task_switch.md R179, R202, 60_exceptions.md R232: the first check of step 13 that fails, or the first page fault on
a descriptor it reads, is reported in the new task: everything steps 6 to 13 write has been written, the error code
names the selector (with the EXT bit for an event; a page fault's is free), and LDTR's and the segment registers'
hidden parts are loaded where all their checks came before and held, and are not usable elsewhere. That a page fault
stands at the first check that reads its descriptor is log 29, and that the accessed bit of each descriptor loaded
may then be set is log 27. -/
def Obligations.FailedCheckIsReportedInTheNewTask : Prop :=
  ∀ (e : Config.Env) (kind : SwitchKind) (newSel : Half) (nd : Desc) (p : Plan) (retEip : Word) (s : State)
    (held after : List Check) (c : Check) (f : Failure),
    SwitchReady e kind newSel nd p s → LoadReady e kind newSel nd p retEip s →
    loadChecks (arrivalState e kind newSel nd p retEip s) = held ++ c :: after →
    (∀ k ∈ held, checkFailure e (arrivalState e kind newSel nd p retEip s) k = none) →
    checkFailure e (arrivalState e kind newSel nd p retEip s) c = some f →
    ∃ x code u, taskSwitch e kind newSel retEip s = .error (.raised x code u) ∧
      f.ReportedAs kind x code ∧ StoppedAfter e kind newSel nd p retEip s held u

/-- 42_task_switch.md R178, R179, R202, 60_exceptions.md R231, R237: every exception an instruction ends the run with was
raised either with nothing changed (but for the count of free values that a page fault's error code draws from), or
past the commit point of the switch that instruction dispatches, in the complete state of the new task and by the
first failing check of step 13; there is no third case, so every such exception is precise. -/
def Obligations.ExceptionsUndoOrComplete : Prop :=
  ∀ (i : Instr) (s u : State) (x : Exc) (code : Option Half),
    exec i s = .fault (.exception x code u) →
    u = s ∨ u = { s with draws := s.draws + 1 } ∨
    ∃ kind newSel nd p held c after f,
      Dispatches Config.env s i kind newSel ∧ SwitchReady Config.env kind newSel nd p s ∧
      LoadReady Config.env kind newSel nd p s.nextEip s ∧
      loadChecks (arrivalState Config.env kind newSel nd p s.nextEip s) = held ++ c :: after ∧
      (∀ k ∈ held, checkFailure Config.env (arrivalState Config.env kind newSel nd p s.nextEip s) k = none) ∧
      checkFailure Config.env (arrivalState Config.env kind newSel nd p s.nextEip s) c = some f ∧
      f.ReportedAs kind x code ∧ StoppedAfter Config.env kind newSel nd p s.nextEip s held u

/-! ## Descriptors, limits, error codes, byte order -/

/-- 20_memory.md R61, R66, R68, R75: the fields of a descriptor from its eight bytes in memory order, and which access
bytes (the sixth) make it a TSS descriptor, of which format and busy or not, a task gate or an LDT descriptor. -/
def Obligations.DescriptorFields : Prop :=
  ∀ b0 b1 b2 b3 b4 b5 b6 b7 : Byte,
    let d : Desc := ofLe 64 [b0, b1, b2, b3, b4, b5, b6, b7]
    d.base = b7 ++ b4 ++ b3 ++ b2 ∧
    d.limit20 = b6.extractLsb' 0 4 ++ b1 ++ b0 ∧
    d.type = b5.extractLsb' 0 4 ∧ d.s = b5.getLsbD 4 ∧ d.dpl = b5.extractLsb' 5 2 ∧ d.p = b5.getLsbD 7 ∧
    d.g = b6.getLsbD 7 ∧ d.attr = b6 ++ b5 ∧ d.gateSel = b3 ++ b2 ∧
    (d.isTss = true ↔ b5 &&& 0x1F#8 = 0x01#8 ∨ b5 &&& 0x1F#8 = 0x03#8 ∨ b5 &&& 0x1F#8 = 0x09#8 ∨
      b5 &&& 0x1F#8 = 0x0B#8) ∧
    d.is32 = b5.getLsbD 3 ∧ d.busyBit = b5.getLsbD 1 ∧
    (d.isTaskGate = true ↔ b5 &&& 0x1F#8 = 0x05#8) ∧ (d.isLdt = true ↔ b5 &&& 0x1F#8 = 0x02#8) ∧
    (availableTss d = true ↔ b5 &&& 0x1F#8 = 0x01#8 ∨ b5 &&& 0x1F#8 = 0x09#8)

/-- 20_memory.md R67: the effective limit of a descriptor. -/
def Obligations.EffectiveLimit : Prop :=
  ∀ d : Desc, (d.g = false → d.effLimit = d.limit20.setWidth 32) ∧
    (d.g = true → d.effLimit = d.limit20 ++ 0xFFF#12 ∧
      d.effLimit.toNat = d.limit20.toNat * 4096 + 4095)

/-- 60_exceptions.md R232: the error code of a selector has its index and TI bit and nothing else; the one of a vector
is its number as an index with the IDT bit. -/
def Obligations.ErrorCodeLayout : Prop :=
  ∀ (sel : Half) (n : Byte),
    (errSel sel).extractLsb' 3 13 = sel.extractLsb' 3 13 ∧ (errSel sel).getLsbD 2 = sel.getLsbD 2 ∧
    (errSel sel).getLsbD 1 = false ∧ (errSel sel).getLsbD 0 = false ∧
    (errIdt n).toNat = 8 * n.toNat + 2

/-- 20_memory.md R61, R62: with paging off a 32-bit or 16-bit value written to linear memory reads back, lowest-addressed
byte least significant, and every other byte is as before. -/
def Obligations.MemoryIsLittleEndian : Prop :=
  ∀ (e : Config.Env) (s : State) (la : Word) (v : Word) (h : Half), s.paging = false →
    (∃ t, writeBytes e s sysWrite la (Word.bytes v) = some t ∧
      (readBytes e t sysRead la 4).map (ofLe 32) = some v ∧
      t.mem.get la.toNat = v.extractLsb' 0 8 ∧ t.mem.get (la + 3#32).toNat = v.extractLsb' 24 8 ∧
      ∀ a : Nat, (∀ q ∈ contig la 4, a ≠ q.toNat) → t.mem.get a = s.mem.get a) ∧
    (∃ t, writeBytes e s sysWrite la (Half.bytes h) = some t ∧
      (readBytes e t sysRead la 2).map (ofLe 16) = some h ∧
      t.mem.get la.toNat = h.extractLsb' 0 8 ∧ t.mem.get (la + 1#32).toNat = h.extractLsb' 8 8 ∧
      ∀ a : Nat, (∀ q ∈ contig la 2, a ≠ q.toNat) → t.mem.get a = s.mem.get a)
end

