-- ==== Sys2Proof/Laws/Bits.lean ====
section
/-! SUPPORT. Byte order and register numbers: reading back what was written. -/

namespace Sys2Proof

@[simp] theorem toLe_length (n v : Nat) : (toLe n v).length = n := by
  induction n generalizing v with
  | zero => rfl
  | succ n ih => simp [toLe, ih]

theorem leNat_toLe (n v : Nat) (h : v < 256 ^ n) : leNat (toLe n v) = v := by
  induction n generalizing v with
  | zero => simp at h; simp [toLe, leNat, h]
  | succ n ih =>
    have : v / 256 < 256 ^ n := by rw [Nat.pow_succ] at h; omega
    simp only [toLe, leNat, ih _ this, BitVec.toNat_ofNat]
    omega

@[simp] theorem Half.bytes_length (v : Half) : (Half.bytes v).length = 2 := toLe_length 2 _
@[simp] theorem Word.bytes_length (v : Word) : (Word.bytes v).length = 4 := toLe_length 4 _

@[simp] theorem ofLe_halfBytes (v : Half) : ofLe 16 (Half.bytes v) = v := by
  rw [ofLe, Half.bytes, leNat_toLe _ _ (by have := v.isLt; omega), BitVec.ofNat_toNat]
  simp

@[simp] theorem ofLe_wordBytes (v : Word) : ofLe 32 (Word.bytes v) = v := by
  rw [ofLe, Word.bytes, leNat_toLe _ _ (by have := v.isLt; omega), BitVec.ofNat_toNat]
  simp

@[simp] theorem Reg.ofNum_num (r : Reg) : Reg.ofNum r.num = r := by cases r <;> rfl

theorem Reg.num_ofNum (n : BitVec 3) : (Reg.ofNum n).num = n := by revert n; decide

/-- Two bit vectors side by side, as a number. -/
theorem append_toNat {m n : Nat} (x : BitVec m) (y : BitVec n) :
    (x ++ y).toNat = x.toNat * 2 ^ n + y.toNat := by
  rw [BitVec.toNat_append, Nat.shiftLeft_eq, Nat.mul_comm, ← Nat.two_pow_add_eq_or_of_lt y.isLt]

theorem halfBytes_eq (v : Half) : Half.bytes v = [v.extractLsb' 0 8, v.extractLsb' 8 8] := by
  refine List.cons_eq_cons.mpr ⟨?_, List.cons_eq_cons.mpr ⟨?_, rfl⟩⟩
  · apply BitVec.eq_of_toNat_eq; simp
  · apply BitVec.eq_of_toNat_eq; simp [Nat.shiftRight_eq_div_pow]

theorem wordBytes_eq (v : Word) :
    Word.bytes v = [v.extractLsb' 0 8, v.extractLsb' 8 8, v.extractLsb' 16 8, v.extractLsb' 24 8] := by
  refine List.cons_eq_cons.mpr ⟨?_, List.cons_eq_cons.mpr ⟨?_, List.cons_eq_cons.mpr ⟨?_, List.cons_eq_cons.mpr ⟨?_, rfl⟩⟩⟩⟩
  all_goals apply BitVec.eq_of_toNat_eq; simp [Nat.shiftRight_eq_div_pow]
  all_goals omega

/-- Eight bytes in memory order as one value. -/
theorem ofLe_eight (b0 b1 b2 b3 b4 b5 b6 b7 : Byte) :
    (ofLe 64 [b0, b1, b2, b3, b4, b5, b6, b7] : BitVec 64) = b7 ++ (b6 ++ (b5 ++ (b4 ++ (b3 ++ (b2 ++ (b1 ++ b0)))))) := by
  apply BitVec.eq_of_toNat_eq
  have := b0.isLt; have := b1.isLt; have := b2.isLt; have := b3.isLt; have := b4.isLt; have := b5.isLt; have := b6.isLt; have := b7.isLt
  have hR : (b7 ++ (b6 ++ (b5 ++ (b4 ++ (b3 ++ (b2 ++ (b1 ++ b0)))))) : BitVec 64).toNat = b7.toNat * 2^56 + (b6.toNat * 2^48 + (b5.toNat * 2^40 + (b4.toNat * 2^32 + (b3.toNat * 2^24 + (b2.toNat * 2^16 + (b1.toNat * 2^8 + b0.toNat)))))) := by
    show (b7 ++ (b6 ++ (b5 ++ (b4 ++ (b3 ++ (b2 ++ (b1 ++ b0)))))) : BitVec (8+(8+(8+(8+(8+(8+(8+8)))))))).toNat = _
    simp only [append_toNat]
  rw [hR]
  simp only [ofLe, leNat, BitVec.toNat_ofNat]
  omega

/-- Bit `i` of eight bytes in memory order is bit `i mod 8` of byte `i / 8`. -/
theorem ofLe_eight_bit (b0 b1 b2 b3 b4 b5 b6 b7 : Byte) (i : Nat) :
    (ofLe 64 [b0, b1, b2, b3, b4, b5, b6, b7] : BitVec 64).getLsbD i =
      if i < 8 then b0.getLsbD i else if i < 16 then b1.getLsbD (i - 8)
      else if i < 24 then b2.getLsbD (i - 16) else if i < 32 then b3.getLsbD (i - 24)
      else if i < 40 then b4.getLsbD (i - 32) else if i < 48 then b5.getLsbD (i - 40)
      else if i < 56 then b6.getLsbD (i - 48) else b7.getLsbD (i - 56) := by
  rw [ofLe_eight]
  show (b7 ++ (b6 ++ (b5 ++ (b4 ++ (b3 ++ (b2 ++ (b1 ++ b0)))))) :
    BitVec (8+(8+(8+(8+(8+(8+(8+8)))))))).getLsbD i = _
  simp only [BitVec.getLsbD_append]
  repeat' split
  all_goals first | rfl | omega

end Sys2Proof
end

