-- ==== Sys2Proof/Laws/Memory.lean ====
section
/-! SUPPORT. Memory: read after write, frames, and the canonical form kept by every operation. -/

namespace Sys2Proof.Machine.Memory

theorem get_erase_same (m : Memory) (a : Nat) : (erase m a).get a = unlisted := by
  induction m with
  | nil => rfl
  | cons c t ih =>
    obtain ⟨k, v⟩ := c
    by_cases h : k = a
    · simpa [erase, h] using ih
    · simpa [erase, get, h] using ih

theorem get_erase_ne (m : Memory) {a b : Nat} (hab : b ≠ a) : (erase m a).get b = m.get b := by
  induction m with
  | nil => rfl
  | cons c t ih =>
    obtain ⟨k, v⟩ := c
    by_cases h : k = a
    · subst h
      simpa [erase, get, Ne.symm hab] using ih
    · by_cases hb : k = b
      · subst hb
        simp [erase, get, hab]
      · simpa [erase, get, h, hb] using ih

/-- No entry has this address. -/
def fresh (m : Memory) (a : Nat) : Prop := ∀ c ∈ m, c.1 ≠ a

theorem fresh_erase (m : Memory) (a : Nat) : fresh (erase m a) a := by
  induction m with
  | nil => intro c hc; cases hc
  | cons c t ih =>
    obtain ⟨k, v⟩ := c
    by_cases h : k = a
    · simpa [erase, h] using ih
    · intro c hc
      simp only [erase, h, if_false, List.mem_cons] at hc
      rcases hc with rfl | hc
      · exact h
      · exact ih c hc

theorem get_insert_same {m : Memory} {a : Nat} (v : Byte) (h : fresh m a) :
    (insert m a v).get a = v := by
  induction m with
  | nil => simp [insert, get]
  | cons c t ih =>
    obtain ⟨k, w⟩ := c
    have hk : k ≠ a := h (k, w) (by simp)
    by_cases hlt : k < a
    · simpa [insert, get, hlt, hk] using ih fun c hc => h c (by simp [hc])
    · simp [insert, get, hlt]

theorem get_insert_ne (m : Memory) {a b : Nat} (v : Byte) (h : b ≠ a) :
    (insert m a v).get b = m.get b := by
  induction m with
  | nil => simp [insert, get, h.symm]
  | cons c t ih =>
    obtain ⟨k, w⟩ := c
    by_cases hlt : k < a
    · by_cases hk : k = b
      · subst hk
        simp [insert, get, hlt]
      · simp [insert, get, hlt, hk, ih]
    · simp [insert, get, hlt, h.symm]

/-- A byte reads as what was last written to it. -/
@[simp] theorem get_set_same (m : Memory) (a : Nat) (v : Byte) : (m.set a v).get a = v := by
  unfold set
  split
  · next h => rw [get_erase_same, h]
  · exact get_insert_same v (fresh_erase m a)

/-- A write leaves every other byte alone. -/
theorem get_set_ne (m : Memory) {a b : Nat} (v : Byte) (h : b ≠ a) : (m.set a v).get b = m.get b := by
  unfold set
  split
  · exact get_erase_ne m h
  · rw [get_insert_ne _ v h, get_erase_ne m h]

theorem get_set (m : Memory) (a b : Nat) (v : Byte) :
    (m.set a v).get b = if b = a then v else m.get b := by
  split
  · next h => rw [h, get_set_same]
  · next h => exact get_set_ne m v h

/-- A list of writes leaves every byte outside its addresses alone. -/
theorem get_setList_of_notMem {ps : List Word} {b : Nat} (bs : List Byte) (m : Memory)
    (h : ∀ p ∈ ps, b ≠ p.toNat) : (m.setList ps bs).get b = m.get b := by
  induction ps generalizing m bs with
  | nil => cases bs <;> rfl
  | cons p ps ih =>
    cases bs with
    | nil => rfl
    | cons v bs =>
      rw [setList, ih bs _ fun q hq => h q (by simp [hq]), get_set_ne _ _ (h p (by simp))]

/-! ## The canonical form -/

theorem above_erase {m : Memory} {k : Nat} (a : Nat) (hw : wf m = true) (h : above m k = true) :
    above (erase m a) k = true := by
  induction m with
  | nil => rfl
  | cons c t ih =>
    obtain ⟨j, v⟩ := c
    simp only [wf, Bool.and_eq_true] at hw
    by_cases hj : j = a
    · simp only [erase, hj, if_true]
      refine ih hw.2 ?_
      cases t with
      | nil => rfl
      | cons d t =>
        obtain ⟨l, w⟩ := d
        simp only [above, decide_eq_true_eq] at h hw ⊢
        omega
    · simpa [erase, hj, above] using h

theorem wf_erase {m : Memory} (a : Nat) (h : wf m = true) : wf (erase m a) = true := by
  induction m with
  | nil => rfl
  | cons c t ih =>
    obtain ⟨k, v⟩ := c
    simp only [wf, Bool.and_eq_true] at h
    by_cases hk : k = a
    · simpa [erase, hk] using ih h.2
    · simp only [erase, hk, if_false, wf, Bool.and_eq_true]
      exact ⟨⟨h.1.1, above_erase a h.2 h.1.2⟩, ih h.2⟩

theorem above_insert {m : Memory} {a k : Nat} (v : Byte) (hk : k < a) (h : above m k = true) :
    above (insert m a v) k = true := by
  cases m with
  | nil => simpa [insert, above] using hk
  | cons c t =>
    obtain ⟨j, w⟩ := c
    by_cases hj : j < a
    · simpa [insert, hj, above] using h
    · simpa [insert, hj, above] using hk

theorem wf_insert {m : Memory} {a : Nat} {v : Byte} (ha : a < size) (hv : v ≠ unlisted)
    (h : wf m = true) (hf : fresh m a) : wf (insert m a v) = true := by
  induction m with
  | nil => simp [insert, wf, above, ha, hv]
  | cons c t ih =>
    obtain ⟨k, w⟩ := c
    have hk : k ≠ a := hf (k, w) (by simp)
    have hw := h
    simp only [wf, Bool.and_eq_true] at h
    by_cases hlt : k < a
    · simp only [insert, hlt, if_true, wf, Bool.and_eq_true]
      exact ⟨⟨h.1.1, above_insert v hlt h.1.2⟩, ih h.2 fun c hc => hf c (by simp [hc])⟩
    · have : a < k := by omega
      rw [insert, if_neg hlt]
      simp only [wf, Bool.and_eq_true, above, decide_eq_true_eq, bne_iff_ne]
      simp only [wf, Bool.and_eq_true, decide_eq_true_eq, bne_iff_ne] at hw
      exact ⟨⟨⟨ha, hv⟩, this⟩, hw⟩

/-- A write of one byte keeps the canonical form. -/
theorem wf_set {m : Memory} {a : Nat} (v : Byte) (ha : a < size) (h : wf m = true) :
    wf (m.set a v) = true := by
  unfold set
  split
  · exact wf_erase a h
  · next hv => exact wf_insert ha hv (wf_erase a h) (fresh_erase m a)

theorem toNat_lt_size (p : Word) : p.toNat < size := p.isLt

/-- A list of writes keeps the canonical form. -/
theorem wf_setList {m : Memory} (ps : List Word) (bs : List Byte) (h : wf m = true) :
    wf (m.setList ps bs) = true := by
  induction ps generalizing m bs with
  | nil => cases bs <;> exact h
  | cons p ps ih =>
    cases bs with
    | nil => exact h
    | cons v bs => exact ih bs (wf_set v (toNat_lt_size p) h)

end Sys2Proof.Machine.Memory

namespace Sys2Proof.Machine

theorem contig_length (p : Word) (n : Nat) : (contig p n).length = n := by
  induction n generalizing p with
  | zero => rfl
  | succ n ih => simp [contig, ih]

/-- The addresses of a run are its first one plus 0 to n - 1. -/
theorem mem_contig {p q : Word} {n : Nat} :
    q ∈ contig p n ↔ ∃ k, k < n ∧ q = p + BitVec.ofNat 32 k := by
  induction n generalizing p with
  | zero => simp [contig]
  | succ n ih =>
    rw [contig, List.mem_cons, ih]
    constructor
    · rintro (rfl | ⟨k, hk, rfl⟩)
      · exact ⟨0, by omega, by simp⟩
      · exact ⟨k + 1, by omega, by rw [BitVec.add_assoc]; congr 1; apply BitVec.eq_of_toNat_eq; simp; omega⟩
    · rintro ⟨k, hk, rfl⟩
      cases k with
      | zero => exact .inl (by simp)
      | succ k =>
        exact .inr ⟨k, by omega, by rw [BitVec.add_assoc]; congr 1; apply BitVec.eq_of_toNat_eq; simp; omega⟩

/-- Bytes at addresses a list of writes does not touch read as before. -/
theorem getList_setList_of_disjoint {ps qs : List Word} (bs : List Byte) (m : Memory)
    (h : ∀ q ∈ qs, q ∉ ps) : (m.setList ps bs).getList qs = m.getList qs := by
  unfold Memory.getList
  refine List.map_congr_left fun q hq => Memory.get_setList_of_notMem bs m fun p hp he => ?_
  exact h q hq ((BitVec.eq_of_toNat_eq he) ▸ hp)

/-- Bytes written at distinct addresses read back. -/
theorem getList_setList_same {ps : List Word} (bs : List Byte) (m : Memory) (hn : ps.Nodup)
    (hl : bs.length = ps.length) : (m.setList ps bs).getList ps = bs := by
  induction ps generalizing m bs with
  | nil => cases bs with
    | nil => rfl
    | cons => simp at hl
  | cons p ps ih =>
    cases bs with
    | nil => simp at hl
    | cons v bs =>
      rw [List.nodup_cons] at hn
      have := ih bs (m.set p.toNat v) hn.2 (by simpa using hl)
      unfold Memory.getList at this ⊢
      rw [List.map_cons, Memory.setList, this]
      congr 1
      rw [Memory.get_setList_of_notMem bs _ fun q hq he =>
        hn.1 (by rw [BitVec.eq_of_toNat_eq he]; exact hq)]
      exact Memory.get_set_same m p.toNat v

/-- Writes at two lists of addresses, one after the other. -/
theorem Memory.setList_append (m : Memory) {ps : List Word} (qs : List Word) {as : List Byte}
    (bs : List Byte) (h : as.length = ps.length) :
    m.setList (ps ++ qs) (as ++ bs) = (m.setList ps as).setList qs bs := by
  induction ps generalizing m as with
  | nil => cases as with
    | nil => rfl
    | cons => simp at h
  | cons p ps ih =>
    cases as with
    | nil => simp at h
    | cons b as => exact ih _ (by simpa using h)

theorem contig_nodup (p : Word) {n : Nat} (h : n ≤ 2 ^ 32) : (contig p n).Nodup := by
  induction n generalizing p with
  | zero => simp [contig]
  | succ n ih =>
    rw [contig, List.nodup_cons]
    refine ⟨?_, ih _ (by omega)⟩
    rw [mem_contig]
    rintro ⟨k, hk, he⟩
    have := congrArg BitVec.toNat he
    simp only [BitVec.toNat_add, BitVec.toNat_ofNat] at this
    have := p.isLt
    omega

theorem contig_append (p : Word) (n k : Nat) :
    contig p (n + k) = contig p n ++ contig (p + BitVec.ofNat 32 n) k := by
  induction n generalizing p with
  | zero => simp [contig]
  | succ n ih =>
    rw [Nat.succ_add, contig, contig, ih, List.cons_append, BitVec.add_assoc]
    congr 4
    apply BitVec.eq_of_toNat_eq
    simp
    omega

end Sys2Proof.Machine
end

