-- ==== Sys2Proof/Laws/State.lean ====
section
/-! SUPPORT. One lemma per field per named update of the state, and the fields of `advance`. -/

namespace Sys2Proof.Machine.State

@[simp] theorem setGpr_gpr (s : State) (v : Gprs) : (s.setGpr v).gpr = v := rfl
@[simp] theorem setGpr_eip (s : State) (v : Gprs) : (s.setGpr v).eip = s.eip := rfl
@[simp] theorem setGpr_nextEip (s : State) (v : Gprs) : (s.setGpr v).nextEip = s.nextEip := rfl
@[simp] theorem setGpr_eflags (s : State) (v : Gprs) : (s.setGpr v).eflags = s.eflags := rfl
@[simp] theorem setGpr_es (s : State) (v : Gprs) : (s.setGpr v).es = s.es := rfl
@[simp] theorem setGpr_cs (s : State) (v : Gprs) : (s.setGpr v).cs = s.cs := rfl
@[simp] theorem setGpr_ss (s : State) (v : Gprs) : (s.setGpr v).ss = s.ss := rfl
@[simp] theorem setGpr_ds (s : State) (v : Gprs) : (s.setGpr v).ds = s.ds := rfl
@[simp] theorem setGpr_fs (s : State) (v : Gprs) : (s.setGpr v).fs = s.fs := rfl
@[simp] theorem setGpr_gs (s : State) (v : Gprs) : (s.setGpr v).gs = s.gs := rfl
@[simp] theorem setGpr_ldtr (s : State) (v : Gprs) : (s.setGpr v).ldtr = s.ldtr := rfl
@[simp] theorem setGpr_tr (s : State) (v : Gprs) : (s.setGpr v).tr = s.tr := rfl
@[simp] theorem setGpr_cr0 (s : State) (v : Gprs) : (s.setGpr v).cr0 = s.cr0 := rfl
@[simp] theorem setGpr_cr3 (s : State) (v : Gprs) : (s.setGpr v).cr3 = s.cr3 := rfl
@[simp] theorem setGpr_gdtr (s : State) (v : Gprs) : (s.setGpr v).gdtr = s.gdtr := rfl
@[simp] theorem setGpr_idtr (s : State) (v : Gprs) : (s.setGpr v).idtr = s.idtr := rfl
@[simp] theorem setGpr_pendingTaskTrap (s : State) (v : Gprs) : (s.setGpr v).pendingTaskTrap = s.pendingTaskTrap := rfl
@[simp] theorem setGpr_event (s : State) (v : Gprs) : (s.setGpr v).event = s.event := rfl
@[simp] theorem setGpr_mem (s : State) (v : Gprs) : (s.setGpr v).mem = s.mem := rfl
@[simp] theorem setGpr_draws (s : State) (v : Gprs) : (s.setGpr v).draws = s.draws := rfl
@[simp] theorem setGpr_params (s : State) (v : Gprs) : (s.setGpr v).params = s.params := rfl

@[simp] theorem setEip_gpr (s : State) (v : Word) : (s.setEip v).gpr = s.gpr := rfl
@[simp] theorem setEip_eip (s : State) (v : Word) : (s.setEip v).eip = v := rfl
@[simp] theorem setEip_nextEip (s : State) (v : Word) : (s.setEip v).nextEip = s.nextEip := rfl
@[simp] theorem setEip_eflags (s : State) (v : Word) : (s.setEip v).eflags = s.eflags := rfl
@[simp] theorem setEip_es (s : State) (v : Word) : (s.setEip v).es = s.es := rfl
@[simp] theorem setEip_cs (s : State) (v : Word) : (s.setEip v).cs = s.cs := rfl
@[simp] theorem setEip_ss (s : State) (v : Word) : (s.setEip v).ss = s.ss := rfl
@[simp] theorem setEip_ds (s : State) (v : Word) : (s.setEip v).ds = s.ds := rfl
@[simp] theorem setEip_fs (s : State) (v : Word) : (s.setEip v).fs = s.fs := rfl
@[simp] theorem setEip_gs (s : State) (v : Word) : (s.setEip v).gs = s.gs := rfl
@[simp] theorem setEip_ldtr (s : State) (v : Word) : (s.setEip v).ldtr = s.ldtr := rfl
@[simp] theorem setEip_tr (s : State) (v : Word) : (s.setEip v).tr = s.tr := rfl
@[simp] theorem setEip_cr0 (s : State) (v : Word) : (s.setEip v).cr0 = s.cr0 := rfl
@[simp] theorem setEip_cr3 (s : State) (v : Word) : (s.setEip v).cr3 = s.cr3 := rfl
@[simp] theorem setEip_gdtr (s : State) (v : Word) : (s.setEip v).gdtr = s.gdtr := rfl
@[simp] theorem setEip_idtr (s : State) (v : Word) : (s.setEip v).idtr = s.idtr := rfl
@[simp] theorem setEip_pendingTaskTrap (s : State) (v : Word) : (s.setEip v).pendingTaskTrap = s.pendingTaskTrap := rfl
@[simp] theorem setEip_event (s : State) (v : Word) : (s.setEip v).event = s.event := rfl
@[simp] theorem setEip_mem (s : State) (v : Word) : (s.setEip v).mem = s.mem := rfl
@[simp] theorem setEip_draws (s : State) (v : Word) : (s.setEip v).draws = s.draws := rfl
@[simp] theorem setEip_params (s : State) (v : Word) : (s.setEip v).params = s.params := rfl

@[simp] theorem setNextEip_gpr (s : State) (v : Word) : (s.setNextEip v).gpr = s.gpr := rfl
@[simp] theorem setNextEip_eip (s : State) (v : Word) : (s.setNextEip v).eip = s.eip := rfl
@[simp] theorem setNextEip_nextEip (s : State) (v : Word) : (s.setNextEip v).nextEip = v := rfl
@[simp] theorem setNextEip_eflags (s : State) (v : Word) : (s.setNextEip v).eflags = s.eflags := rfl
@[simp] theorem setNextEip_es (s : State) (v : Word) : (s.setNextEip v).es = s.es := rfl
@[simp] theorem setNextEip_cs (s : State) (v : Word) : (s.setNextEip v).cs = s.cs := rfl
@[simp] theorem setNextEip_ss (s : State) (v : Word) : (s.setNextEip v).ss = s.ss := rfl
@[simp] theorem setNextEip_ds (s : State) (v : Word) : (s.setNextEip v).ds = s.ds := rfl
@[simp] theorem setNextEip_fs (s : State) (v : Word) : (s.setNextEip v).fs = s.fs := rfl
@[simp] theorem setNextEip_gs (s : State) (v : Word) : (s.setNextEip v).gs = s.gs := rfl
@[simp] theorem setNextEip_ldtr (s : State) (v : Word) : (s.setNextEip v).ldtr = s.ldtr := rfl
@[simp] theorem setNextEip_tr (s : State) (v : Word) : (s.setNextEip v).tr = s.tr := rfl
@[simp] theorem setNextEip_cr0 (s : State) (v : Word) : (s.setNextEip v).cr0 = s.cr0 := rfl
@[simp] theorem setNextEip_cr3 (s : State) (v : Word) : (s.setNextEip v).cr3 = s.cr3 := rfl
@[simp] theorem setNextEip_gdtr (s : State) (v : Word) : (s.setNextEip v).gdtr = s.gdtr := rfl
@[simp] theorem setNextEip_idtr (s : State) (v : Word) : (s.setNextEip v).idtr = s.idtr := rfl
@[simp] theorem setNextEip_pendingTaskTrap (s : State) (v : Word) : (s.setNextEip v).pendingTaskTrap = s.pendingTaskTrap := rfl
@[simp] theorem setNextEip_event (s : State) (v : Word) : (s.setNextEip v).event = s.event := rfl
@[simp] theorem setNextEip_mem (s : State) (v : Word) : (s.setNextEip v).mem = s.mem := rfl
@[simp] theorem setNextEip_draws (s : State) (v : Word) : (s.setNextEip v).draws = s.draws := rfl
@[simp] theorem setNextEip_params (s : State) (v : Word) : (s.setNextEip v).params = s.params := rfl

@[simp] theorem setEflags_gpr (s : State) (v : Word) : (s.setEflags v).gpr = s.gpr := rfl
@[simp] theorem setEflags_eip (s : State) (v : Word) : (s.setEflags v).eip = s.eip := rfl
@[simp] theorem setEflags_nextEip (s : State) (v : Word) : (s.setEflags v).nextEip = s.nextEip := rfl
@[simp] theorem setEflags_eflags (s : State) (v : Word) : (s.setEflags v).eflags = v := rfl
@[simp] theorem setEflags_es (s : State) (v : Word) : (s.setEflags v).es = s.es := rfl
@[simp] theorem setEflags_cs (s : State) (v : Word) : (s.setEflags v).cs = s.cs := rfl
@[simp] theorem setEflags_ss (s : State) (v : Word) : (s.setEflags v).ss = s.ss := rfl
@[simp] theorem setEflags_ds (s : State) (v : Word) : (s.setEflags v).ds = s.ds := rfl
@[simp] theorem setEflags_fs (s : State) (v : Word) : (s.setEflags v).fs = s.fs := rfl
@[simp] theorem setEflags_gs (s : State) (v : Word) : (s.setEflags v).gs = s.gs := rfl
@[simp] theorem setEflags_ldtr (s : State) (v : Word) : (s.setEflags v).ldtr = s.ldtr := rfl
@[simp] theorem setEflags_tr (s : State) (v : Word) : (s.setEflags v).tr = s.tr := rfl
@[simp] theorem setEflags_cr0 (s : State) (v : Word) : (s.setEflags v).cr0 = s.cr0 := rfl
@[simp] theorem setEflags_cr3 (s : State) (v : Word) : (s.setEflags v).cr3 = s.cr3 := rfl
@[simp] theorem setEflags_gdtr (s : State) (v : Word) : (s.setEflags v).gdtr = s.gdtr := rfl
@[simp] theorem setEflags_idtr (s : State) (v : Word) : (s.setEflags v).idtr = s.idtr := rfl
@[simp] theorem setEflags_pendingTaskTrap (s : State) (v : Word) : (s.setEflags v).pendingTaskTrap = s.pendingTaskTrap := rfl
@[simp] theorem setEflags_event (s : State) (v : Word) : (s.setEflags v).event = s.event := rfl
@[simp] theorem setEflags_mem (s : State) (v : Word) : (s.setEflags v).mem = s.mem := rfl
@[simp] theorem setEflags_draws (s : State) (v : Word) : (s.setEflags v).draws = s.draws := rfl
@[simp] theorem setEflags_params (s : State) (v : Word) : (s.setEflags v).params = s.params := rfl

@[simp] theorem setLdtr_gpr (s : State) (v : SegReg) : (s.setLdtr v).gpr = s.gpr := rfl
@[simp] theorem setLdtr_eip (s : State) (v : SegReg) : (s.setLdtr v).eip = s.eip := rfl
@[simp] theorem setLdtr_nextEip (s : State) (v : SegReg) : (s.setLdtr v).nextEip = s.nextEip := rfl
@[simp] theorem setLdtr_eflags (s : State) (v : SegReg) : (s.setLdtr v).eflags = s.eflags := rfl
@[simp] theorem setLdtr_es (s : State) (v : SegReg) : (s.setLdtr v).es = s.es := rfl
@[simp] theorem setLdtr_cs (s : State) (v : SegReg) : (s.setLdtr v).cs = s.cs := rfl
@[simp] theorem setLdtr_ss (s : State) (v : SegReg) : (s.setLdtr v).ss = s.ss := rfl
@[simp] theorem setLdtr_ds (s : State) (v : SegReg) : (s.setLdtr v).ds = s.ds := rfl
@[simp] theorem setLdtr_fs (s : State) (v : SegReg) : (s.setLdtr v).fs = s.fs := rfl
@[simp] theorem setLdtr_gs (s : State) (v : SegReg) : (s.setLdtr v).gs = s.gs := rfl
@[simp] theorem setLdtr_ldtr (s : State) (v : SegReg) : (s.setLdtr v).ldtr = v := rfl
@[simp] theorem setLdtr_tr (s : State) (v : SegReg) : (s.setLdtr v).tr = s.tr := rfl
@[simp] theorem setLdtr_cr0 (s : State) (v : SegReg) : (s.setLdtr v).cr0 = s.cr0 := rfl
@[simp] theorem setLdtr_cr3 (s : State) (v : SegReg) : (s.setLdtr v).cr3 = s.cr3 := rfl
@[simp] theorem setLdtr_gdtr (s : State) (v : SegReg) : (s.setLdtr v).gdtr = s.gdtr := rfl
@[simp] theorem setLdtr_idtr (s : State) (v : SegReg) : (s.setLdtr v).idtr = s.idtr := rfl
@[simp] theorem setLdtr_pendingTaskTrap (s : State) (v : SegReg) : (s.setLdtr v).pendingTaskTrap = s.pendingTaskTrap := rfl
@[simp] theorem setLdtr_event (s : State) (v : SegReg) : (s.setLdtr v).event = s.event := rfl
@[simp] theorem setLdtr_mem (s : State) (v : SegReg) : (s.setLdtr v).mem = s.mem := rfl
@[simp] theorem setLdtr_draws (s : State) (v : SegReg) : (s.setLdtr v).draws = s.draws := rfl
@[simp] theorem setLdtr_params (s : State) (v : SegReg) : (s.setLdtr v).params = s.params := rfl

@[simp] theorem setTr_gpr (s : State) (v : TaskReg) : (s.setTr v).gpr = s.gpr := rfl
@[simp] theorem setTr_eip (s : State) (v : TaskReg) : (s.setTr v).eip = s.eip := rfl
@[simp] theorem setTr_nextEip (s : State) (v : TaskReg) : (s.setTr v).nextEip = s.nextEip := rfl
@[simp] theorem setTr_eflags (s : State) (v : TaskReg) : (s.setTr v).eflags = s.eflags := rfl
@[simp] theorem setTr_es (s : State) (v : TaskReg) : (s.setTr v).es = s.es := rfl
@[simp] theorem setTr_cs (s : State) (v : TaskReg) : (s.setTr v).cs = s.cs := rfl
@[simp] theorem setTr_ss (s : State) (v : TaskReg) : (s.setTr v).ss = s.ss := rfl
@[simp] theorem setTr_ds (s : State) (v : TaskReg) : (s.setTr v).ds = s.ds := rfl
@[simp] theorem setTr_fs (s : State) (v : TaskReg) : (s.setTr v).fs = s.fs := rfl
@[simp] theorem setTr_gs (s : State) (v : TaskReg) : (s.setTr v).gs = s.gs := rfl
@[simp] theorem setTr_ldtr (s : State) (v : TaskReg) : (s.setTr v).ldtr = s.ldtr := rfl
@[simp] theorem setTr_tr (s : State) (v : TaskReg) : (s.setTr v).tr = v := rfl
@[simp] theorem setTr_cr0 (s : State) (v : TaskReg) : (s.setTr v).cr0 = s.cr0 := rfl
@[simp] theorem setTr_cr3 (s : State) (v : TaskReg) : (s.setTr v).cr3 = s.cr3 := rfl
@[simp] theorem setTr_gdtr (s : State) (v : TaskReg) : (s.setTr v).gdtr = s.gdtr := rfl
@[simp] theorem setTr_idtr (s : State) (v : TaskReg) : (s.setTr v).idtr = s.idtr := rfl
@[simp] theorem setTr_pendingTaskTrap (s : State) (v : TaskReg) : (s.setTr v).pendingTaskTrap = s.pendingTaskTrap := rfl
@[simp] theorem setTr_event (s : State) (v : TaskReg) : (s.setTr v).event = s.event := rfl
@[simp] theorem setTr_mem (s : State) (v : TaskReg) : (s.setTr v).mem = s.mem := rfl
@[simp] theorem setTr_draws (s : State) (v : TaskReg) : (s.setTr v).draws = s.draws := rfl
@[simp] theorem setTr_params (s : State) (v : TaskReg) : (s.setTr v).params = s.params := rfl

@[simp] theorem setCr0_gpr (s : State) (v : Word) : (s.setCr0 v).gpr = s.gpr := rfl
@[simp] theorem setCr0_eip (s : State) (v : Word) : (s.setCr0 v).eip = s.eip := rfl
@[simp] theorem setCr0_nextEip (s : State) (v : Word) : (s.setCr0 v).nextEip = s.nextEip := rfl
@[simp] theorem setCr0_eflags (s : State) (v : Word) : (s.setCr0 v).eflags = s.eflags := rfl
@[simp] theorem setCr0_es (s : State) (v : Word) : (s.setCr0 v).es = s.es := rfl
@[simp] theorem setCr0_cs (s : State) (v : Word) : (s.setCr0 v).cs = s.cs := rfl
@[simp] theorem setCr0_ss (s : State) (v : Word) : (s.setCr0 v).ss = s.ss := rfl
@[simp] theorem setCr0_ds (s : State) (v : Word) : (s.setCr0 v).ds = s.ds := rfl
@[simp] theorem setCr0_fs (s : State) (v : Word) : (s.setCr0 v).fs = s.fs := rfl
@[simp] theorem setCr0_gs (s : State) (v : Word) : (s.setCr0 v).gs = s.gs := rfl
@[simp] theorem setCr0_ldtr (s : State) (v : Word) : (s.setCr0 v).ldtr = s.ldtr := rfl
@[simp] theorem setCr0_tr (s : State) (v : Word) : (s.setCr0 v).tr = s.tr := rfl
@[simp] theorem setCr0_cr0 (s : State) (v : Word) : (s.setCr0 v).cr0 = v := rfl
@[simp] theorem setCr0_cr3 (s : State) (v : Word) : (s.setCr0 v).cr3 = s.cr3 := rfl
@[simp] theorem setCr0_gdtr (s : State) (v : Word) : (s.setCr0 v).gdtr = s.gdtr := rfl
@[simp] theorem setCr0_idtr (s : State) (v : Word) : (s.setCr0 v).idtr = s.idtr := rfl
@[simp] theorem setCr0_pendingTaskTrap (s : State) (v : Word) : (s.setCr0 v).pendingTaskTrap = s.pendingTaskTrap := rfl
@[simp] theorem setCr0_event (s : State) (v : Word) : (s.setCr0 v).event = s.event := rfl
@[simp] theorem setCr0_mem (s : State) (v : Word) : (s.setCr0 v).mem = s.mem := rfl
@[simp] theorem setCr0_draws (s : State) (v : Word) : (s.setCr0 v).draws = s.draws := rfl
@[simp] theorem setCr0_params (s : State) (v : Word) : (s.setCr0 v).params = s.params := rfl

@[simp] theorem setCr3_gpr (s : State) (v : Word) : (s.setCr3 v).gpr = s.gpr := rfl
@[simp] theorem setCr3_eip (s : State) (v : Word) : (s.setCr3 v).eip = s.eip := rfl
@[simp] theorem setCr3_nextEip (s : State) (v : Word) : (s.setCr3 v).nextEip = s.nextEip := rfl
@[simp] theorem setCr3_eflags (s : State) (v : Word) : (s.setCr3 v).eflags = s.eflags := rfl
@[simp] theorem setCr3_es (s : State) (v : Word) : (s.setCr3 v).es = s.es := rfl
@[simp] theorem setCr3_cs (s : State) (v : Word) : (s.setCr3 v).cs = s.cs := rfl
@[simp] theorem setCr3_ss (s : State) (v : Word) : (s.setCr3 v).ss = s.ss := rfl
@[simp] theorem setCr3_ds (s : State) (v : Word) : (s.setCr3 v).ds = s.ds := rfl
@[simp] theorem setCr3_fs (s : State) (v : Word) : (s.setCr3 v).fs = s.fs := rfl
@[simp] theorem setCr3_gs (s : State) (v : Word) : (s.setCr3 v).gs = s.gs := rfl
@[simp] theorem setCr3_ldtr (s : State) (v : Word) : (s.setCr3 v).ldtr = s.ldtr := rfl
@[simp] theorem setCr3_tr (s : State) (v : Word) : (s.setCr3 v).tr = s.tr := rfl
@[simp] theorem setCr3_cr0 (s : State) (v : Word) : (s.setCr3 v).cr0 = s.cr0 := rfl
@[simp] theorem setCr3_cr3 (s : State) (v : Word) : (s.setCr3 v).cr3 = v := rfl
@[simp] theorem setCr3_gdtr (s : State) (v : Word) : (s.setCr3 v).gdtr = s.gdtr := rfl
@[simp] theorem setCr3_idtr (s : State) (v : Word) : (s.setCr3 v).idtr = s.idtr := rfl
@[simp] theorem setCr3_pendingTaskTrap (s : State) (v : Word) : (s.setCr3 v).pendingTaskTrap = s.pendingTaskTrap := rfl
@[simp] theorem setCr3_event (s : State) (v : Word) : (s.setCr3 v).event = s.event := rfl
@[simp] theorem setCr3_mem (s : State) (v : Word) : (s.setCr3 v).mem = s.mem := rfl
@[simp] theorem setCr3_draws (s : State) (v : Word) : (s.setCr3 v).draws = s.draws := rfl
@[simp] theorem setCr3_params (s : State) (v : Word) : (s.setCr3 v).params = s.params := rfl

@[simp] theorem setTrap_gpr (s : State) (v : Bool) : (s.setTrap v).gpr = s.gpr := rfl
@[simp] theorem setTrap_eip (s : State) (v : Bool) : (s.setTrap v).eip = s.eip := rfl
@[simp] theorem setTrap_nextEip (s : State) (v : Bool) : (s.setTrap v).nextEip = s.nextEip := rfl
@[simp] theorem setTrap_eflags (s : State) (v : Bool) : (s.setTrap v).eflags = s.eflags := rfl
@[simp] theorem setTrap_es (s : State) (v : Bool) : (s.setTrap v).es = s.es := rfl
@[simp] theorem setTrap_cs (s : State) (v : Bool) : (s.setTrap v).cs = s.cs := rfl
@[simp] theorem setTrap_ss (s : State) (v : Bool) : (s.setTrap v).ss = s.ss := rfl
@[simp] theorem setTrap_ds (s : State) (v : Bool) : (s.setTrap v).ds = s.ds := rfl
@[simp] theorem setTrap_fs (s : State) (v : Bool) : (s.setTrap v).fs = s.fs := rfl
@[simp] theorem setTrap_gs (s : State) (v : Bool) : (s.setTrap v).gs = s.gs := rfl
@[simp] theorem setTrap_ldtr (s : State) (v : Bool) : (s.setTrap v).ldtr = s.ldtr := rfl
@[simp] theorem setTrap_tr (s : State) (v : Bool) : (s.setTrap v).tr = s.tr := rfl
@[simp] theorem setTrap_cr0 (s : State) (v : Bool) : (s.setTrap v).cr0 = s.cr0 := rfl
@[simp] theorem setTrap_cr3 (s : State) (v : Bool) : (s.setTrap v).cr3 = s.cr3 := rfl
@[simp] theorem setTrap_gdtr (s : State) (v : Bool) : (s.setTrap v).gdtr = s.gdtr := rfl
@[simp] theorem setTrap_idtr (s : State) (v : Bool) : (s.setTrap v).idtr = s.idtr := rfl
@[simp] theorem setTrap_pendingTaskTrap (s : State) (v : Bool) : (s.setTrap v).pendingTaskTrap = v := rfl
@[simp] theorem setTrap_event (s : State) (v : Bool) : (s.setTrap v).event = s.event := rfl
@[simp] theorem setTrap_mem (s : State) (v : Bool) : (s.setTrap v).mem = s.mem := rfl
@[simp] theorem setTrap_draws (s : State) (v : Bool) : (s.setTrap v).draws = s.draws := rfl
@[simp] theorem setTrap_params (s : State) (v : Bool) : (s.setTrap v).params = s.params := rfl

@[simp] theorem setEvent_gpr (s : State) (v : Option Event) : (s.setEvent v).gpr = s.gpr := rfl
@[simp] theorem setEvent_eip (s : State) (v : Option Event) : (s.setEvent v).eip = s.eip := rfl
@[simp] theorem setEvent_nextEip (s : State) (v : Option Event) : (s.setEvent v).nextEip = s.nextEip := rfl
@[simp] theorem setEvent_eflags (s : State) (v : Option Event) : (s.setEvent v).eflags = s.eflags := rfl
@[simp] theorem setEvent_es (s : State) (v : Option Event) : (s.setEvent v).es = s.es := rfl
@[simp] theorem setEvent_cs (s : State) (v : Option Event) : (s.setEvent v).cs = s.cs := rfl
@[simp] theorem setEvent_ss (s : State) (v : Option Event) : (s.setEvent v).ss = s.ss := rfl
@[simp] theorem setEvent_ds (s : State) (v : Option Event) : (s.setEvent v).ds = s.ds := rfl
@[simp] theorem setEvent_fs (s : State) (v : Option Event) : (s.setEvent v).fs = s.fs := rfl
@[simp] theorem setEvent_gs (s : State) (v : Option Event) : (s.setEvent v).gs = s.gs := rfl
@[simp] theorem setEvent_ldtr (s : State) (v : Option Event) : (s.setEvent v).ldtr = s.ldtr := rfl
@[simp] theorem setEvent_tr (s : State) (v : Option Event) : (s.setEvent v).tr = s.tr := rfl
@[simp] theorem setEvent_cr0 (s : State) (v : Option Event) : (s.setEvent v).cr0 = s.cr0 := rfl
@[simp] theorem setEvent_cr3 (s : State) (v : Option Event) : (s.setEvent v).cr3 = s.cr3 := rfl
@[simp] theorem setEvent_gdtr (s : State) (v : Option Event) : (s.setEvent v).gdtr = s.gdtr := rfl
@[simp] theorem setEvent_idtr (s : State) (v : Option Event) : (s.setEvent v).idtr = s.idtr := rfl
@[simp] theorem setEvent_pendingTaskTrap (s : State) (v : Option Event) : (s.setEvent v).pendingTaskTrap = s.pendingTaskTrap := rfl
@[simp] theorem setEvent_event (s : State) (v : Option Event) : (s.setEvent v).event = v := rfl
@[simp] theorem setEvent_mem (s : State) (v : Option Event) : (s.setEvent v).mem = s.mem := rfl
@[simp] theorem setEvent_draws (s : State) (v : Option Event) : (s.setEvent v).draws = s.draws := rfl
@[simp] theorem setEvent_params (s : State) (v : Option Event) : (s.setEvent v).params = s.params := rfl

@[simp] theorem setMem_gpr (s : State) (v : Memory) : (s.setMem v).gpr = s.gpr := rfl
@[simp] theorem setMem_eip (s : State) (v : Memory) : (s.setMem v).eip = s.eip := rfl
@[simp] theorem setMem_nextEip (s : State) (v : Memory) : (s.setMem v).nextEip = s.nextEip := rfl
@[simp] theorem setMem_eflags (s : State) (v : Memory) : (s.setMem v).eflags = s.eflags := rfl
@[simp] theorem setMem_es (s : State) (v : Memory) : (s.setMem v).es = s.es := rfl
@[simp] theorem setMem_cs (s : State) (v : Memory) : (s.setMem v).cs = s.cs := rfl
@[simp] theorem setMem_ss (s : State) (v : Memory) : (s.setMem v).ss = s.ss := rfl
@[simp] theorem setMem_ds (s : State) (v : Memory) : (s.setMem v).ds = s.ds := rfl
@[simp] theorem setMem_fs (s : State) (v : Memory) : (s.setMem v).fs = s.fs := rfl
@[simp] theorem setMem_gs (s : State) (v : Memory) : (s.setMem v).gs = s.gs := rfl
@[simp] theorem setMem_ldtr (s : State) (v : Memory) : (s.setMem v).ldtr = s.ldtr := rfl
@[simp] theorem setMem_tr (s : State) (v : Memory) : (s.setMem v).tr = s.tr := rfl
@[simp] theorem setMem_cr0 (s : State) (v : Memory) : (s.setMem v).cr0 = s.cr0 := rfl
@[simp] theorem setMem_cr3 (s : State) (v : Memory) : (s.setMem v).cr3 = s.cr3 := rfl
@[simp] theorem setMem_gdtr (s : State) (v : Memory) : (s.setMem v).gdtr = s.gdtr := rfl
@[simp] theorem setMem_idtr (s : State) (v : Memory) : (s.setMem v).idtr = s.idtr := rfl
@[simp] theorem setMem_pendingTaskTrap (s : State) (v : Memory) : (s.setMem v).pendingTaskTrap = s.pendingTaskTrap := rfl
@[simp] theorem setMem_event (s : State) (v : Memory) : (s.setMem v).event = s.event := rfl
@[simp] theorem setMem_mem (s : State) (v : Memory) : (s.setMem v).mem = v := rfl
@[simp] theorem setMem_draws (s : State) (v : Memory) : (s.setMem v).draws = s.draws := rfl
@[simp] theorem setMem_params (s : State) (v : Memory) : (s.setMem v).params = s.params := rfl

@[simp] theorem setDraws_gpr (s : State) (v : Nat) : (s.setDraws v).gpr = s.gpr := rfl
@[simp] theorem setDraws_eip (s : State) (v : Nat) : (s.setDraws v).eip = s.eip := rfl
@[simp] theorem setDraws_nextEip (s : State) (v : Nat) : (s.setDraws v).nextEip = s.nextEip := rfl
@[simp] theorem setDraws_eflags (s : State) (v : Nat) : (s.setDraws v).eflags = s.eflags := rfl
@[simp] theorem setDraws_es (s : State) (v : Nat) : (s.setDraws v).es = s.es := rfl
@[simp] theorem setDraws_cs (s : State) (v : Nat) : (s.setDraws v).cs = s.cs := rfl
@[simp] theorem setDraws_ss (s : State) (v : Nat) : (s.setDraws v).ss = s.ss := rfl
@[simp] theorem setDraws_ds (s : State) (v : Nat) : (s.setDraws v).ds = s.ds := rfl
@[simp] theorem setDraws_fs (s : State) (v : Nat) : (s.setDraws v).fs = s.fs := rfl
@[simp] theorem setDraws_gs (s : State) (v : Nat) : (s.setDraws v).gs = s.gs := rfl
@[simp] theorem setDraws_ldtr (s : State) (v : Nat) : (s.setDraws v).ldtr = s.ldtr := rfl
@[simp] theorem setDraws_tr (s : State) (v : Nat) : (s.setDraws v).tr = s.tr := rfl
@[simp] theorem setDraws_cr0 (s : State) (v : Nat) : (s.setDraws v).cr0 = s.cr0 := rfl
@[simp] theorem setDraws_cr3 (s : State) (v : Nat) : (s.setDraws v).cr3 = s.cr3 := rfl
@[simp] theorem setDraws_gdtr (s : State) (v : Nat) : (s.setDraws v).gdtr = s.gdtr := rfl
@[simp] theorem setDraws_idtr (s : State) (v : Nat) : (s.setDraws v).idtr = s.idtr := rfl
@[simp] theorem setDraws_pendingTaskTrap (s : State) (v : Nat) : (s.setDraws v).pendingTaskTrap = s.pendingTaskTrap := rfl
@[simp] theorem setDraws_event (s : State) (v : Nat) : (s.setDraws v).event = s.event := rfl
@[simp] theorem setDraws_mem (s : State) (v : Nat) : (s.setDraws v).mem = s.mem := rfl
@[simp] theorem setDraws_draws (s : State) (v : Nat) : (s.setDraws v).draws = v := rfl
@[simp] theorem setDraws_params (s : State) (v : Nat) : (s.setDraws v).params = s.params := rfl

@[simp] theorem setSegs_gpr (s : State) (es' cs' ss' ds' fs' gs' : SegReg) :
    (s.setSegs es' cs' ss' ds' fs' gs').gpr = s.gpr := rfl
@[simp] theorem setSegs_eip (s : State) (es' cs' ss' ds' fs' gs' : SegReg) :
    (s.setSegs es' cs' ss' ds' fs' gs').eip = s.eip := rfl
@[simp] theorem setSegs_nextEip (s : State) (es' cs' ss' ds' fs' gs' : SegReg) :
    (s.setSegs es' cs' ss' ds' fs' gs').nextEip = s.nextEip := rfl
@[simp] theorem setSegs_eflags (s : State) (es' cs' ss' ds' fs' gs' : SegReg) :
    (s.setSegs es' cs' ss' ds' fs' gs').eflags = s.eflags := rfl
@[simp] theorem setSegs_es (s : State) (es' cs' ss' ds' fs' gs' : SegReg) :
    (s.setSegs es' cs' ss' ds' fs' gs').es = es' := rfl
@[simp] theorem setSegs_cs (s : State) (es' cs' ss' ds' fs' gs' : SegReg) :
    (s.setSegs es' cs' ss' ds' fs' gs').cs = cs' := rfl
@[simp] theorem setSegs_ss (s : State) (es' cs' ss' ds' fs' gs' : SegReg) :
    (s.setSegs es' cs' ss' ds' fs' gs').ss = ss' := rfl
@[simp] theorem setSegs_ds (s : State) (es' cs' ss' ds' fs' gs' : SegReg) :
    (s.setSegs es' cs' ss' ds' fs' gs').ds = ds' := rfl
@[simp] theorem setSegs_fs (s : State) (es' cs' ss' ds' fs' gs' : SegReg) :
    (s.setSegs es' cs' ss' ds' fs' gs').fs = fs' := rfl
@[simp] theorem setSegs_gs (s : State) (es' cs' ss' ds' fs' gs' : SegReg) :
    (s.setSegs es' cs' ss' ds' fs' gs').gs = gs' := rfl
@[simp] theorem setSegs_ldtr (s : State) (es' cs' ss' ds' fs' gs' : SegReg) :
    (s.setSegs es' cs' ss' ds' fs' gs').ldtr = s.ldtr := rfl
@[simp] theorem setSegs_tr (s : State) (es' cs' ss' ds' fs' gs' : SegReg) :
    (s.setSegs es' cs' ss' ds' fs' gs').tr = s.tr := rfl
@[simp] theorem setSegs_cr0 (s : State) (es' cs' ss' ds' fs' gs' : SegReg) :
    (s.setSegs es' cs' ss' ds' fs' gs').cr0 = s.cr0 := rfl
@[simp] theorem setSegs_cr3 (s : State) (es' cs' ss' ds' fs' gs' : SegReg) :
    (s.setSegs es' cs' ss' ds' fs' gs').cr3 = s.cr3 := rfl
@[simp] theorem setSegs_gdtr (s : State) (es' cs' ss' ds' fs' gs' : SegReg) :
    (s.setSegs es' cs' ss' ds' fs' gs').gdtr = s.gdtr := rfl
@[simp] theorem setSegs_idtr (s : State) (es' cs' ss' ds' fs' gs' : SegReg) :
    (s.setSegs es' cs' ss' ds' fs' gs').idtr = s.idtr := rfl
@[simp] theorem setSegs_pendingTaskTrap (s : State) (es' cs' ss' ds' fs' gs' : SegReg) :
    (s.setSegs es' cs' ss' ds' fs' gs').pendingTaskTrap = s.pendingTaskTrap := rfl
@[simp] theorem setSegs_event (s : State) (es' cs' ss' ds' fs' gs' : SegReg) :
    (s.setSegs es' cs' ss' ds' fs' gs').event = s.event := rfl
@[simp] theorem setSegs_mem (s : State) (es' cs' ss' ds' fs' gs' : SegReg) :
    (s.setSegs es' cs' ss' ds' fs' gs').mem = s.mem := rfl
@[simp] theorem setSegs_draws (s : State) (es' cs' ss' ds' fs' gs' : SegReg) :
    (s.setSegs es' cs' ss' ds' fs' gs').draws = s.draws := rfl
@[simp] theorem setSegs_params (s : State) (es' cs' ss' ds' fs' gs' : SegReg) :
    (s.setSegs es' cs' ss' ds' fs' gs').params = s.params := rfl

@[simp] theorem advance_gpr (s : State) : (advance s).gpr = s.gpr := rfl
@[simp] theorem advance_eip (s : State) : (advance s).eip = s.nextEip := rfl
@[simp] theorem advance_nextEip (s : State) : (advance s).nextEip = s.nextEip := rfl
@[simp] theorem advance_eflags (s : State) : (advance s).eflags = s.eflags := rfl
@[simp] theorem advance_es (s : State) : (advance s).es = s.es := rfl
@[simp] theorem advance_cs (s : State) : (advance s).cs = s.cs := rfl
@[simp] theorem advance_ss (s : State) : (advance s).ss = s.ss := rfl
@[simp] theorem advance_ds (s : State) : (advance s).ds = s.ds := rfl
@[simp] theorem advance_fs (s : State) : (advance s).fs = s.fs := rfl
@[simp] theorem advance_gs (s : State) : (advance s).gs = s.gs := rfl
@[simp] theorem advance_ldtr (s : State) : (advance s).ldtr = s.ldtr := rfl
@[simp] theorem advance_tr (s : State) : (advance s).tr = s.tr := rfl
@[simp] theorem advance_cr0 (s : State) : (advance s).cr0 = s.cr0 := rfl
@[simp] theorem advance_cr3 (s : State) : (advance s).cr3 = s.cr3 := rfl
@[simp] theorem advance_gdtr (s : State) : (advance s).gdtr = s.gdtr := rfl
@[simp] theorem advance_idtr (s : State) : (advance s).idtr = s.idtr := rfl
@[simp] theorem advance_pendingTaskTrap (s : State) : (advance s).pendingTaskTrap = s.pendingTaskTrap := rfl
@[simp] theorem advance_event (s : State) : (advance s).event = s.event := rfl
@[simp] theorem advance_mem (s : State) : (advance s).mem = s.mem := rfl
@[simp] theorem advance_draws (s : State) : (advance s).draws = s.draws := rfl
@[simp] theorem advance_params (s : State) : (advance s).params = s.params := rfl

end Sys2Proof.Machine.State
end

