-- ==== Sys2Proof/Laws/Access.lean ====
section
/-! SUPPORT. Linear memory: what reads and writes are with paging off, and that a write keeps the form
of memory and every other field. -/

namespace Sys2Proof.Machine

theorem physical_flat {e : Config.Env} {s : State} (h : s.paging = false) (acc : Config.Access)
    (la : Word) : physical e s acc la = some la := by
  simp [physical, h]

theorem physRange_flat {e : Config.Env} {s : State} (h : s.paging = false) (acc : Config.Access)
    (la : Word) (n : Nat) : physRange e s acc la n = some (contig la n) := by
  induction n generalizing la with
  | zero => rfl
  | succ n ih => simp [physRange, physical_flat h, ih, contig]

theorem readBytes_flat {e : Config.Env} {s : State} (h : s.paging = false) (acc : Config.Access)
    (la : Word) (n : Nat) : readBytes e s acc la n = some (s.mem.getList (contig la n)) := by
  simp [readBytes, physRange_flat h]

theorem writeBytes_flat {e : Config.Env} {s : State} (h : s.paging = false) (acc : Config.Access)
    (la : Word) (bs : List Byte) : writeBytes e s acc la bs =
      some (s.setMem (s.mem.setList (contig la bs.length) bs)) := by
  simp [writeBytes, physRange_flat h]

theorem descAt_flat {e : Config.Env} {s : State} (h : s.paging = false) (la : Word) :
    descAt e s la = some (ofLe 64 (s.mem.getList (contig la 8))) := by
  simp [descAt, readBytes_flat h]

theorem physRange_length {e : Config.Env} {s : State} {acc : Config.Access} {la : Word} {n : Nat}
    {ps : List Word} (h : physRange e s acc la n = some ps) : ps.length = n := by
  induction n generalizing la ps with
  | zero => cases h; rfl
  | succ n ih =>
    simp only [physRange] at h
    split at h
    · next hp hr => cases h; simp [ih hr]
    · cases h

/-- Everything a write can do. -/
theorem writeBytes_some {e : Config.Env} {s t : State} {acc : Config.Access} {la : Word}
    {bs : List Byte} (h : writeBytes e s acc la bs = some t) :
    ∃ ps, physRange e s acc la bs.length = some ps ∧ t = s.setMem (s.mem.setList ps bs) := by
  simp only [writeBytes, Option.map_eq_some_iff] at h
  obtain ⟨ps, hp, rfl⟩ := h
  exact ⟨ps, hp, rfl⟩

/-- Everything a store to a memory operand can do. -/
theorem writeOperand_ok {e : Config.Env} {s t : State} {m : MemRef} {bs : List Byte}
    (h : writeOperand e s m bs = .ok t) :
    ∃ la ps, operandAddr s m bs.length Hidden.writable = .ok la ∧
      physRange e s (userAccess s .write) la bs.length = some ps ∧
      t = s.setMem (s.mem.setList ps bs) := by
  unfold writeOperand at h
  split at h
  · cases h
  · next la ha =>
    unfold orPageFault at h
    split at h
    · next hw =>
      cases h
      obtain ⟨ps, hp, ht⟩ := writeBytes_some hw
      exact ⟨la, ps, ha, hp, ht⟩
    · cases h

theorem readOperand_error {e : Config.Env} {s u : State} {m : MemRef} {n : Nat} {x : Exc}
    {c : Option Half} (h : readOperand e s m n = .error (.raised x c u)) :
    u = s.setDraws (s.draws + 1) ∧ x = .pf := by
  unfold readOperand operandAddr at h
  split at h
  · next he => split at he <;> (try split at he) <;> cases he <;> cases h
  · unfold orPageFault at h
    split at h
    · cases h
    · simp only [pageFault, Except.error.injEq, Stop.raised.injEq] at h
      exact ⟨h.2.2.symm, h.1.symm⟩

theorem writeOperand_error {e : Config.Env} {s u : State} {m : MemRef} {bs : List Byte} {x : Exc}
    {c : Option Half} (h : writeOperand e s m bs = .error (.raised x c u)) :
    u = s.setDraws (s.draws + 1) ∧ x = .pf := by
  unfold writeOperand operandAddr at h
  split at h
  · next he => split at he <;> (try split at he) <;> cases he <;> cases h
  · unfold orPageFault at h
    split at h
    · cases h
    · simp only [pageFault, Except.error.injEq, Stop.raised.injEq] at h
      exact ⟨h.2.2.symm, h.1.symm⟩

/-- A locked read-modify-write changes one byte. -/
theorem lockedRmw_get (m : Memory) (p : Word) (f : Byte → Byte) (a : Nat) :
    (lockedRmw m p f).get a = if a = p.toNat then f (m.get a) else m.get a := by
  unfold lockedRmw
  rw [Memory.get_set]
  split
  · next h => rw [h]
  · rfl

theorem lockedRmw_wf {m : Memory} (p : Word) (f : Byte → Byte) (h : m.wf = true) :
    (lockedRmw m p f).wf = true := Memory.wf_set _ p.isLt h

theorem Gprs.get_set_same (g : Gprs) (r : Reg) (v : Word) : (g.set r v).get r = v := by
  cases r <;> rfl

theorem Gprs.get_set_ne (g : Gprs) {r k : Reg} (v : Word) (h : k ≠ r) :
    (g.set r v).get k = g.get k := by
  cases r <;> cases k <;> first | rfl | exact absurd rfl h

theorem low_append (a b : Half) : low (a ++ b) = b := by
  unfold low
  apply BitVec.eq_of_getLsbD_eq
  intro i hi
  have : (a ++ b : BitVec (16+16)).getLsbD i = b.getLsbD i := by rw [BitVec.getLsbD_append]; simp [hi]
  simpa [hi] using this

end Sys2Proof.Machine
end

