-- ==== Sys2Proof/Laws/Decode.lean ====
section
/-! SUPPORT. The decoder reads back what the encoder writes: operands, prefixes, whole instructions. -/

namespace Sys2Proof

theorem Reg.num_eq_four {r : Reg} : r.num = 4#3 ↔ r = .esp := by revert r; intro r; cases r <;> decide

theorem Reg.num_eq_five {r : Reg} : r.num = 5#3 ↔ r = .ebp := by revert r; intro r; cases r <;> decide

theorem fieldByte_lo (a : BitVec 2) (b c : BitVec 3) : (fieldByte a b c).extractLsb' 0 3 = c := by
  revert a b c; decide
theorem fieldByte_mid (a : BitVec 2) (b c : BitVec 3) : (fieldByte a b c).extractLsb' 3 3 = b := by
  revert a b c; decide
theorem fieldByte_hi (a : BitVec 2) (b c : BitVec 3) : (fieldByte a b c).extractLsb' 6 2 = a := by
  revert a b c; decide

theorem wordBytes_cons (v : Word) : ∃ a b c d, Word.bytes v = [a, b, c, d] ∧ ofLe 32 [a, b, c, d] = v := by
  refine ⟨_, _, _, _, rfl, ?_⟩
  exact ofLe_wordBytes v

theorem halfBytes_cons (v : Half) : ∃ a b, Half.bytes v = [a, b] ∧ ofLe 16 [a, b] = v := by
  refine ⟨_, _, rfl, ?_⟩
  exact ofLe_halfBytes v

/-- The displacement form the encoder picks reads back. -/
theorem displacement_encodeDisp (b : Reg) (v : Word) (rest : List Byte) :
    displacement (encodeDisp b v).1 ((encodeDisp b v).2 ++ rest) = some (v, rest) := by
  unfold encodeDisp
  split
  · next h => simp [displacement, h.1]
  · split
    · next h => simp [displacement, h]
    · obtain ⟨a, b, c, d, hb, hv⟩ := wordBytes_cons v
      simp [displacement, hb, hv]

theorem displacement_two (v : Word) (rest : List Byte) :
    displacement 2#2 (Word.bytes v ++ rest) = some (v, rest) := by
  obtain ⟨a, b, c, d, hb, hv⟩ := wordBytes_cons v
  simp [displacement, hb, hv]

theorem encodeDisp_mod (b : Reg) (v : Word) : (encodeDisp b v).1 ≠ 3#2 ∧
    (b = .ebp → (encodeDisp b v).1 ≠ 0#2) := by
  unfold encodeDisp
  split
  · next h => exact ⟨by decide, fun hb => absurd hb h.2⟩
  · split <;> exact ⟨by simp, fun _ => by simp⟩

theorem encodeDisp_length (b : Reg) (v : Word) : (encodeDisp b v).2.length ≤ 4 := by
  unfold encodeDisp
  split
  · simp
  · split <;> simp

/-- A memory operand reads back from its ModR/M, SIB and displacement. -/
theorem withOperand_encodeMem (ovr : Option SegName) (ext : BitVec 3) (m : MemRef)
    (hw : m.wellFormed = true) (hs : ovr.getD (defaultSeg m.base) = m.seg) (rest : List Byte) :
    ∃ modrm tail, encodeMem ext m = modrm :: tail ∧ modrm.extractLsb' 3 3 = ext ∧
      ∀ go : Operand → List Byte → Body,
        withOperand true ovr modrm (tail ++ rest) go = go (.mem m) rest := by
  obtain ⟨seg, base, index, disp⟩ := m
  simp only at hs
  cases base with
  | none =>
    cases index with
    | none =>
      refine ⟨_, _, rfl, fieldByte_mid _ _ _, fun go => ?_⟩
      simp only [withOperand, fieldByte_hi, fieldByte_lo, memOperand, displacement_two]
      simp [memRef, hs]
    | some xs =>
      obtain ⟨x, s⟩ := xs
      refine ⟨_, _, rfl, fieldByte_mid _ _ _, fun go => ?_⟩
      have hx : x.num ≠ 4#3 := by
        simp only [MemRef.wellFormed, bne_iff_ne] at hw
        exact fun h => hw (Reg.num_eq_four.mp h)
      simp only [withOperand, fieldByte_hi, fieldByte_lo, memOperand, List.cons_append,
        displacement_two, sibIndex, fieldByte_mid, hx]
      simp [memRef, hs]
  | some b =>
    cases index with
    | none =>
      by_cases hb : b = .esp
      · subst hb
        obtain ⟨h3, -⟩ := encodeDisp_mod .esp disp
        refine ⟨fieldByte (encodeDisp .esp disp).1 ext 4#3,
          fieldByte 0#2 4#3 4#3 :: (encodeDisp .esp disp).2, by simp [encodeMem], fieldByte_mid _ _ _,
          fun go => ?_⟩
        simp only [withOperand, fieldByte_hi, fieldByte_lo, memOperand, List.cons_append, sibIndex,
          fieldByte_mid, h3, displacement_encodeDisp]
        simp [memRef, ← hs]
        rfl
      · obtain ⟨h3, h0⟩ := encodeDisp_mod b disp
        refine ⟨fieldByte (encodeDisp b disp).1 ext b.num, (encodeDisp b disp).2,
          by simp [encodeMem, hb], fieldByte_mid _ _ _, fun go => ?_⟩
        have h4 : b.num ≠ 4#3 := fun h => hb (Reg.num_eq_four.mp h)
        have h5 : ¬ (b.num = 5#3 ∧ (encodeDisp b disp).1 = 0#2) := by
          rintro ⟨h, hz⟩
          exact h0 (Reg.num_eq_five.mp h) hz
        simp only [withOperand, fieldByte_hi, fieldByte_lo, memOperand, h3, h4, h5,
          displacement_encodeDisp]
        simp [memRef, hs]
    | some xs =>
      obtain ⟨x, s⟩ := xs
      have hx : x.num ≠ 4#3 := by
        simp only [MemRef.wellFormed, bne_iff_ne] at hw
        exact fun h => hw (Reg.num_eq_four.mp h)
      obtain ⟨h3, h0⟩ := encodeDisp_mod b disp
      have h5 : ¬ (b.num = 5#3 ∧ (encodeDisp b disp).1 = 0#2) := by
        rintro ⟨h, hz⟩
        exact h0 (Reg.num_eq_five.mp h) hz
      refine ⟨_, _, rfl, fieldByte_mid _ _ _, fun go => ?_⟩
      simp only [withOperand, fieldByte_hi, fieldByte_lo, memOperand, List.cons_append, sibIndex,
        fieldByte_mid, h3, h5, hx, displacement_encodeDisp]
      simp [memRef, hs]

theorem encodeMem_length (ext : BitVec 3) (m : MemRef) : (encodeMem ext m).length ≤ 6 := by
  unfold encodeMem
  split
  · simp
  · simp
  · next b _ _ =>
    have := encodeDisp_length b m.disp
    split <;> simp <;> omega
  · next b _ _ _ _ =>
    have := encodeDisp_length b m.disp
    simp; omega

/-! ## Prefixes -/

/-- A byte that is no prefix, whatever came before it. -/
def NoPrefix (b : Byte) : Prop := ∀ p, Prefixes.add p b = none

theorem noPrefix_0F : NoPrefix 0x0F#8 := fun _ => rfl
theorem noPrefix_9A : NoPrefix 0x9A#8 := fun _ => rfl
theorem noPrefix_EA : NoPrefix 0xEA#8 := fun _ => rfl
theorem noPrefix_FF : NoPrefix 0xFF#8 := fun _ => rfl
theorem noPrefix_CF : NoPrefix 0xCF#8 := fun _ => rfl
theorem noPrefix_CD : NoPrefix 0xCD#8 := fun _ => rfl

theorem scan_stop (p : Prefixes) {b : Byte} (h : NoPrefix b) (bs : List Byte) :
    scanPrefixes p (b :: bs) = (p, b :: bs) := by
  simp [scanPrefixes, h p]

theorem scan_size (p : Prefixes) (d : Bool) (sz : OpSize) (bs : List Byte) :
    scanPrefixes p (sizePrefixes d sz ++ bs) =
      scanPrefixes { p with opSize := p.opSize || (d != decide (sz = .w32)) } bs := by
  cases d <;> cases sz <;> simp [sizePrefixes, scanPrefixes, Prefixes.add]

theorem scan_addr (p : Prefixes) (d : Bool) (bs : List Byte) :
    scanPrefixes p (addrPrefixes d ++ bs) = scanPrefixes { p with addrSize := p.addrSize || !d } bs := by
  cases d <;> simp [addrPrefixes, scanPrefixes, Prefixes.add]

theorem scan_seg (p : Prefixes) (m : MemRef) (bs : List Byte) :
    scanPrefixes p (segPrefixes m ++ bs) =
      scanPrefixes { p with seg := if m.seg = defaultSeg m.base then p.seg else some m.seg } bs := by
  unfold segPrefixes
  split
  · rfl
  · cases m.seg <;> simp [scanPrefixes, Prefixes.add, segPrefix]

theorem segOverride (m : MemRef) :
    (if m.seg = defaultSeg m.base then none else some m.seg : Option SegName).getD (defaultSeg m.base) =
      m.seg := by
  split
  · next h => exact h.symm
  · rfl

/-! ## Instructions -/

/-- The bytes of an encoded instruction are read as that instruction, after prefixes that may have held a
LOCK, whatever bytes follow. -/
theorem decodeCore_encode (d lock : Bool) (i : Instr) (rest : List Byte) (hw : i.wellFormed = true) :
    ∃ q bs, scanPrefixes { Prefixes.none with lock := lock } (encode d i ++ rest) = (q, bs) ∧
      q.lock = lock ∧ decodeCore (operandSize d q) (d != q.addrSize) q.seg bs = .instr i rest := by
  have hsz : ∀ sz : OpSize, (if sz = .w32 then OpSize.w32 else OpSize.w16) = sz := by
    intro sz; cases sz <;> rfl
  have ha : (d != (false || !d)) = true := by cases d <;> rfl
  cases i with
  | strRm16 dst =>
    cases dst with
    | reg16 r =>
      refine ⟨_, _, by simp only [encode, List.append_assoc, scan_size, List.cons_append,
        scan_stop _ noPrefix_0F]; rfl, rfl, ?_⟩
      simp [decodeCore, decode0F00, withOperand, fieldByte_mid, fieldByte_hi, fieldByte_lo, operandSize,
        Prefixes.none]
    | reg32 r =>
      refine ⟨_, _, by simp only [encode, List.append_assoc, scan_size, List.cons_append,
        scan_stop _ noPrefix_0F]; rfl, rfl, ?_⟩
      simp [decodeCore, decode0F00, withOperand, fieldByte_mid, fieldByte_hi, fieldByte_lo, operandSize,
        Prefixes.none]
    | mem m =>
      refine ⟨_, _, by simp only [encode, List.append_assoc, scan_addr, scan_seg, List.cons_append,
        scan_stop _ noPrefix_0F]; rfl, rfl, ?_⟩
      obtain ⟨modrm, tail, hm, he, hgo⟩ := withOperand_encodeMem
        (if m.seg = defaultSeg m.base then none else some m.seg) 1#3 m hw (segOverride m) rest
      simp [decodeCore, decode0F00, hm, he, Prefixes.none, hgo]
  | ltrRm16 src =>
    cases src with
    | reg r =>
      refine ⟨_, _, by simp only [encode, List.cons_append, scan_stop _ noPrefix_0F]; rfl, rfl, ?_⟩
      simp [decodeCore, decode0F00, withOperand, fieldByte_mid, fieldByte_hi, fieldByte_lo]
    | mem m =>
      refine ⟨_, _, by simp only [encode, List.append_assoc, scan_addr, scan_seg, List.cons_append,
        scan_stop _ noPrefix_0F]; rfl, rfl, ?_⟩
      obtain ⟨modrm, tail, hm, he, hgo⟩ := withOperand_encodeMem
        (if m.seg = defaultSeg m.base then none else some m.seg) 3#3 m hw (segOverride m) rest
      simp [decodeCore, decode0F00, hm, he, Prefixes.none, hgo]
  | callPtr32 sel off =>
    obtain ⟨a, b, c, e, hb, hv⟩ := wordBytes_cons off
    obtain ⟨x, y, hs, hz⟩ := halfBytes_cons sel
    refine ⟨_, _, by simp only [encode, List.append_assoc, scan_size, List.cons_append,
      scan_stop _ noPrefix_9A]; rfl, rfl, ?_⟩
    simp only [operandSize, Prefixes.none]
    simp [decodeCore, decodePtr, hb, hs, hv, hz]
  | callPtr16 sel off =>
    obtain ⟨a, b, hb, hv⟩ := halfBytes_cons off
    obtain ⟨x, y, hs, hz⟩ := halfBytes_cons sel
    refine ⟨_, _, by simp only [encode, List.append_assoc, scan_size, List.cons_append,
      scan_stop _ noPrefix_9A]; rfl, rfl, ?_⟩
    simp only [operandSize, Prefixes.none]
    simp [decodeCore, decodePtr, hb, hs, hv, hz]
  | jmpPtr32 sel off =>
    obtain ⟨a, b, c, e, hb, hv⟩ := wordBytes_cons off
    obtain ⟨x, y, hs, hz⟩ := halfBytes_cons sel
    refine ⟨_, _, by simp only [encode, List.append_assoc, scan_size, List.cons_append,
      scan_stop _ noPrefix_EA]; rfl, rfl, ?_⟩
    simp only [operandSize, Prefixes.none]
    simp [decodeCore, decodePtr, hb, hs, hv, hz]
  | jmpPtr16 sel off =>
    obtain ⟨a, b, hb, hv⟩ := halfBytes_cons off
    obtain ⟨x, y, hs, hz⟩ := halfBytes_cons sel
    refine ⟨_, _, by simp only [encode, List.append_assoc, scan_size, List.cons_append,
      scan_stop _ noPrefix_EA]; rfl, rfl, ?_⟩
    simp only [operandSize, Prefixes.none]
    simp [decodeCore, decodePtr, hb, hs, hv, hz]
  | callMem size m =>
    refine ⟨_, _, by simp only [encode, List.append_assoc, scan_size, scan_addr, scan_seg, List.cons_append,
      scan_stop _ noPrefix_FF]; rfl, rfl, ?_⟩
    obtain ⟨modrm, tail, hm, he, hgo⟩ := withOperand_encodeMem
      (if m.seg = defaultSeg m.base then none else some m.seg) 3#3 m hw (segOverride m) rest
    simp only [operandSize, Prefixes.none, ha]
    simp [decodeCore, decodeFF, hm, he, hgo, hsz]
  | jmpMem size m =>
    refine ⟨_, _, by simp only [encode, List.append_assoc, scan_size, scan_addr, scan_seg, List.cons_append,
      scan_stop _ noPrefix_FF]; rfl, rfl, ?_⟩
    obtain ⟨modrm, tail, hm, he, hgo⟩ := withOperand_encodeMem
      (if m.seg = defaultSeg m.base then none else some m.seg) 5#3 m hw (segOverride m) rest
    simp only [operandSize, Prefixes.none, ha]
    simp [decodeCore, decodeFF, hm, he, hgo, hsz]
  | iret size =>
    refine ⟨_, _, by simp only [encode, List.append_assoc, scan_size, List.cons_append,
      scan_stop _ noPrefix_CF]; rfl, rfl, ?_⟩
    simp only [operandSize, Prefixes.none]
    simp [decodeCore, hsz]
  | intImm8 n =>
    refine ⟨_, _, by simp only [encode, List.cons_append, scan_stop _ noPrefix_CD]; rfl, rfl, ?_⟩
    simp [decodeCore]

theorem sizePrefixes_length (d : Bool) (sz : OpSize) : (sizePrefixes d sz).length ≤ 1 := by
  cases d <;> cases sz <;> decide

theorem addrPrefixes_length (d : Bool) : (addrPrefixes d).length ≤ 1 := by cases d <;> decide

theorem segPrefixes_length (m : MemRef) : (segPrefixes m).length ≤ 1 := by
  unfold segPrefixes; split <;> simp

/-- No encoding is longer than 11 bytes. -/
theorem encode_length (d : Bool) (i : Instr) : (encode d i).length ≤ 11 := by
  have h0 := sizePrefixes_length d
  have h1 := addrPrefixes_length d
  cases i with
  | strRm16 dst =>
    cases dst with
    | reg16 r => have := h0 .w16; simp [encode]; omega
    | reg32 r => have := h0 .w32; simp [encode]; omega
    | mem m =>
      have := segPrefixes_length m; have := encodeMem_length 1#3 m; simp [encode]; omega
  | ltrRm16 src =>
    cases src with
    | reg r => simp [encode]
    | mem m =>
      have := segPrefixes_length m; have := encodeMem_length 3#3 m; simp [encode]; omega
  | callPtr32 _ _ => have := h0 .w32; simp [encode]; omega
  | callPtr16 _ _ => have := h0 .w16; simp [encode]; omega
  | jmpPtr32 _ _ => have := h0 .w32; simp [encode]; omega
  | jmpPtr16 _ _ => have := h0 .w16; simp [encode]; omega
  | callMem size m =>
    have := h0 size; have := segPrefixes_length m; have := encodeMem_length 3#3 m; simp [encode]; omega
  | jmpMem size m =>
    have := h0 size; have := segPrefixes_length m; have := encodeMem_length 5#3 m; simp [encode]; omega
  | iret size => have := h0 size; simp [encode]; omega
  | intImm8 n => simp [encode]

end Sys2Proof
end

