-- ==== Sys2Proof/Laws/TaskSwitch.lean ====
section
/-! SUPPORT. The task switch: what each of its parts can do, and the two lemmas that say when it completes
and what it then leaves. -/

namespace Sys2Proof.Machine

open Config (CheckId)

/-! ## Checks in order -/

theorem runChecks_none {v : Check → Option Failure} {cs : List Check} (h : ∀ c ∈ cs, v c = none) :
    runChecks v cs = (cs, none) := by
  induction cs with
  | nil => rfl
  | cons c cs ih =>
    have hc := h c (by simp)
    have := ih fun d hd => h d (by simp [hd])
    simp [runChecks, hc, this]

theorem runChecks_snd_none {v : Check → Option Failure} {cs : List Check}
    (h : (runChecks v cs).2 = none) : ∀ c ∈ cs, v c = none := by
  induction cs with
  | nil => simp
  | cons c cs ih =>
    cases hv : v c with
    | some f => simp [runChecks, hv] at h
    | none =>
      simp only [runChecks, hv] at h
      intro d hd
      rcases List.mem_cons.mp hd with rfl | hd
      · exact hv
      · exact ih h d hd

/-- Checks up to the first one that fails. -/
theorem runChecks_first {v : Check → Option Failure} {held after : List Check} {c : Check} {f : Failure}
    (h : ∀ k ∈ held, v k = none) (hc : v c = some f) :
    runChecks v (held ++ c :: after) = (held, some f) := by
  induction held with
  | nil => simp [runChecks, hc]
  | cons k held ih =>
    have := ih fun d hd => h d (by simp [hd])
    simp [runChecks, h k (by simp), this]

/-- The failure reported is that of the first failing check, and the checks before it have held. -/
theorem runChecks_snd_some {v : Check → Option Failure} {cs : List Check} {f : Failure}
    (h : (runChecks v cs).2 = some f) :
    ∃ pre c post, cs = pre ++ c :: post ∧ (∀ d ∈ pre, v d = none) ∧ v c = some f ∧
      (runChecks v cs).1 = pre := by
  induction cs with
  | nil => simp [runChecks] at h
  | cons c cs ih =>
    cases hv : v c with
    | some g =>
      simp only [runChecks, hv, Option.some.injEq] at h
      subst h
      exact ⟨[], c, cs, rfl, by simp, hv, by simp [runChecks, hv]⟩
    | none =>
      simp only [runChecks, hv] at h
      obtain ⟨pre, d, post, rfl, hp, hd, hr⟩ := ih h
      refine ⟨c :: pre, d, post, rfl, ?_, hd, by simp [runChecks, hv, hr]⟩
      intro x hx
      rcases List.mem_cons.mp hx with rfl | hx
      · exact hv
      · exact hp x hx

theorem mem_table (k : CheckId) : k ∈ CheckId.table := by cases k <;> decide

theorem mem_checkOrder (s : State) (k : CheckId) : k ∈ checkOrder s := by
  simp [checkOrder, mem_table k]

/-- Every elementary check is among those of step 13. -/
theorem mem_loadChecks (s : State) (c : Check) : c ∈ loadChecks s := by
  have : ∃ k : CheckId, c ∈ checksOf k := by
    cases c with
    | ldtValid => exact ⟨.k5, by simp [checksOf]⟩
    | csDpl => exact ⟨.k6, by simp [checksOf]⟩
    | ssValid => exact ⟨.k7, by simp [checksOf]⟩
    | ssPresent => exact ⟨.k8, by simp [checksOf]⟩
    | ssDplCpl => exact ⟨.k9, by simp [checksOf]⟩
    | ldtPresent => exact ⟨.k10, by simp [checksOf]⟩
    | csValid => exact ⟨.k11, by simp [checksOf]⟩
    | csPresent => exact ⟨.k12, by simp [checksOf]⟩
    | ssDplRpl => exact ⟨.k13, by simp [checksOf]⟩
    | dataValid r => exact ⟨.k14, by cases r <;> decide⟩
    | dataReadable r => exact ⟨.k15, by cases r <;> decide⟩
    | dataPresent r => exact ⟨.k16, by cases r <;> decide⟩
    | dataDpl r => exact ⟨.k17, by cases r <;> decide⟩
  obtain ⟨k, hk⟩ := this
  exact List.mem_flatMap.mpr ⟨k, mem_checkOrder s k, hk⟩

/-! ## K1 to K4 -/

theorem preCheck_none {kind : SwitchKind} {nd : Desc} {s : State} {k : CheckId} (hp : nd.p = true)
    (hb : busyTestOk kind nd = true) (hl : minLimit s nd ≤ nd.effLimit.toNat) :
    preCheck kind nd s k = none := by
  cases k <;> simp [preCheck, hp, hb]
  omega

theorem busyTestOk_iff {kind : SwitchKind} {nd : Desc} :
    busyTestOk kind nd = true ↔ nd.isTss = true ∧ nd.busyBit = decide (kind = .iret) := by
  cases kind <;> cases h : nd.busyBit <;> simp [busyTestOk, h]

/-- K1 to K4 hold exactly when the descriptor is there, present, available or busy, and large enough. -/
theorem preChecks_ok_iff {e : Config.Env} {kind : SwitchKind} {newSel : Half} {s : State} {nd : Desc} :
    preChecks e kind newSel s = .ok nd ↔
      (selTI newSel = false ∧ 8 * selIndex newSel + 7 ≤ s.gdtr.limit.toNat) ∧
      descAt e s (gdtAddr s newSel) = some nd ∧ nd.p = true ∧
      (nd.isTss = true ∧ nd.busyBit = decide (kind = .iret)) ∧
      minLimit s nd ≤ nd.effLimit.toNat := by
  unfold preChecks
  have hg : (selTI newSel || !inGdt s newSel) = false ↔
      selTI newSel = false ∧ 8 * selIndex newSel + 7 ≤ s.gdtr.limit.toNat := by
    simp [inGdt, withinLimit]
  cases hs : (selTI newSel || !inGdt s newSel) with
  | true => simp [← hg, hs]
  | false =>
    simp only [← hg, hs, Bool.false_eq_true, if_false, true_and]
    cases hd : descAt e s (gdtAddr s newSel) with
    | none => simp
    | some d =>
      simp only [Option.some.injEq]
      constructor
      · intro h
        split at h
        · cases h
        · next hf =>
          cases h
          rw [List.findSome?_eq_none_iff] at hf
          have h2 := hf .k2 (mem_checkOrder s _)
          have h3 := hf .k3 (mem_checkOrder s _)
          have h4 := hf .k4 (mem_checkOrder s _)
          simp only [preCheck] at h2 h3 h4
          have h2 : nd.p = true := by cases hp : nd.p <;> simp [hp] at h2 ⊢
          have h3 : busyTestOk kind nd = true := by
            cases hp : busyTestOk kind nd <;> simp [hp] at h3 ⊢
          refine ⟨rfl, h2, busyTestOk_iff.mp h3, ?_⟩
          simp [h3] at h4
          exact h4
      · rintro ⟨rfl, hp, hb, hl⟩
        have : (checkOrder s).findSome? (preCheck kind d s) = none := by
          rw [List.findSome?_eq_none_iff]
          exact fun k _ => preCheck_none hp (busyTestOk_iff.mpr hb) hl
        rw [this]

/-- An exception of K1 to K4 is raised in the state on entry, but for the count of free values. -/
theorem preChecks_raised {e : Config.Env} {kind : SwitchKind} {newSel : Half} {s u : State} {x : Exc}
    {c : Option Half} (h : preChecks e kind newSel s = .error (.raised x c u)) :
    u = s ∨ u = s.setDraws (s.draws + 1) := by
  unfold preChecks at h
  split at h
  · cases h; exact .inl rfl
  · split at h
    · cases h; exact .inr rfl
    · split at h
      · cases h; exact .inl rfl
      · cases h

/-! ## Step 5 -/

theorem runsOn_contig (p : Word) {n : Nat} : runsOn (contig p n) = true := by
  cases n with
  | zero => rfl
  | succ n => simp [runsOn, contig, contig_length]

/-- With paging off memory is writable where it is read. -/
theorem writableAt_flat {e : Config.Env} {s : State} (h : s.paging = false) (la : Word) (n : Nat) :
    writableAt e s la (contig la n) = true := by
  simp [writableAt, physRange_flat h, contig_length]

/-- With paging off step 5 holds and finds the linear addresses themselves. -/
theorem plan_flat {e : Config.Env} {kind : SwitchKind} {newSel : Half} {nd : Desc} {s : State}
    (h : s.paging = false) : plan e kind newSel nd s = .ok (Plan.flat s newSel nd) := by
  have h5 (a : Word) : (contig a 8).getD 5 0#32 = a + 5#32 := by
    simp only [contig, List.getD_cons_succ, List.getD_cons_zero]
    simp only [BitVec.add_assoc]; rfl
  have h0 (a : Word) (b : Bool) : (contig a (tssSize b)).headD 0#32 = a := by cases b <;> rfl
  simp only [plan, physRange_flat h, runsOn_contig, Bool.and_self, if_true, h5, h0, planWritable,
    writableAt_flat h, Bool.or_true]
  rfl

theorem plan_raised {e : Config.Env} {kind : SwitchKind} {newSel : Half} {nd : Desc} {s u : State}
    {x : Exc} {c : Option Half} (h : plan e kind newSel nd s = .error (.raised x c u)) :
    x = .pf ∧ u = s.setDraws (s.draws + 1) := by
  unfold plan at h
  split at h
  · split at h
    · split at h <;> cases h
    · cases h
  · simp only [pageFault, Except.error.injEq, Stop.raised.injEq] at h
    exact ⟨h.1.symm, h.2.2.symm⟩

/-! ## Steps 6 to 12 -/

/-- Steps 6 to 10 leave every byte outside the ones they store to. -/
theorem commit_mem_get {e : Config.Env} {p : Plan} {kind : SwitchKind} {newSel : Half} {nd : Desc}
    {retEip : Word} {s : State} {a : Nat} (h : ∀ q ∈ storedPlaces kind p nd s, a ≠ q.toNat) :
    (commit e p kind newSel nd retEip s).mem.get a = s.mem.get a := by
  simp only [storedPlaces, List.mem_append] at h
  have h6 : (memAfter6 p kind s.mem).get a = s.mem.get a := by
    unfold memAfter6
    split
    · next hk => rw [lockedRmw_get, if_neg (h _ (.inl (by simp [hk])))]
    · rfl
  have h8 : (memAfter8 e p kind retEip s (memAfter6 p kind s.mem)).get a = s.mem.get a := by
    unfold memAfter8
    rw [Memory.get_setList_of_notMem _ _ fun q hq => h q (.inr (.inl hq)), h6]
  have h9 : (memAfter9 e p kind nd s (memAfter8 e p kind retEip s (memAfter6 p kind s.mem))).get a =
      s.mem.get a := by
    unfold memAfter9
    split
    · next hk =>
      rw [Memory.get_setList_of_notMem _ _ fun q hq => h q (.inr (.inr (.inl (by simp [hk, hq])))), h8]
    · exact h8
  show (memAfter10 p kind _).get a = _
  unfold memAfter10
  split
  · exact h9
  · next hk => rw [lockedRmw_get, if_neg (h _ (.inr (.inr (.inr (by simp [hk]))))), h9]

theorem commit_mem_wf {e : Config.Env} {p : Plan} {kind : SwitchKind} {newSel : Half} {nd : Desc}
    {retEip : Word} {s : State} (h : s.mem.wf = true) :
    (commit e p kind newSel nd retEip s).mem.wf = true := by
  have h6 : (memAfter6 p kind s.mem).wf = true := by
    unfold memAfter6; split
    · exact lockedRmw_wf _ _ h
    · exact h
  have h9 : (memAfter9 e p kind nd s (memAfter8 e p kind retEip s (memAfter6 p kind s.mem))).wf =
      true := by
    unfold memAfter9 memAfter8; split
    · exact Memory.wf_setList _ _ (Memory.wf_setList _ _ h6)
    · exact Memory.wf_setList _ _ h6
  show (memAfter10 p kind _).wf = true
  unfold memAfter10; split
  · exact h9
  · exact lockedRmw_wf _ _ h9

theorem setTS_paging (c : Word) : cr0PG (setTS c) = cr0PG c := by
  simp [cr0PG, setTS]

@[simp] theorem commit_paging (e : Config.Env) (p : Plan) (kind : SwitchKind) (newSel : Half)
    (nd : Desc) (retEip : Word) (s : State) :
    (commit e p kind newSel nd retEip s).paging = s.paging := setTS_paging s.cr0

theorem loadedCr3_commit (e : Config.Env) (p : Plan) (kind : SwitchKind) (newSel : Half) (nd : Desc)
    (retEip : Word) (s : State) (img : TssImage) :
    loadedCr3 (commit e p kind newSel nd retEip s) img = loadedCr3 s img := by
  cases h : img.cr3 with
  | none => simp [loadedCr3, h]; rfl
  | some v => simp [loadedCr3, h, commit_paging]; rfl

/-! ## EFLAGS -/

theorem nestedFlags_nt (kind : SwitchKind) (f : Word) :
    flagNT (nestedFlags kind f) = (kind.nesting || flagNT f) := by
  unfold nestedFlags
  cases h : kind.nesting <;> simp [flagNT, setNT]

theorem nestedFlags_other (kind : SwitchKind) (f : Word) {i : Nat} (h : i ≠ 14) :
    (nestedFlags kind f).getLsbD i = f.getLsbD i := by
  unfold nestedFlags
  split
  · have : (0x00004000#32).getLsbD i = false := by
      by_cases hi : i < 32
      · interval_cases i <;> first | rfl | exact absurd rfl h
      · exact BitVec.getLsbD_of_ge _ _ (by omega)
    simp [setNT, this]
  · rfl

theorem loadFlags_bit (pick image : Word) {i : Nat} (h : flagsReserved.getLsbD i = false) :
    (loadFlags pick image).getLsbD i = image.getLsbD i := by
  unfold loadFlags
  split
  · rfl
  · by_cases hi : i < 32
    · have hf : flagsFixed.getLsbD i = false := by
        revert h; interval_cases i <;> decide
      rw [BitVec.getLsbD_eq_getElem hi] at h hf
      simp [h, hf, hi]
    · rw [BitVec.getLsbD_of_ge _ _ (by omega), BitVec.getLsbD_of_ge _ _ (by omega)]

theorem loadFlags_bit1 (pick image : Word) : (loadFlags pick image).getLsbD 1 = true := by
  unfold loadFlags
  split
  · next h =>
    have := congrArg (·.getLsbD 1) h
    simpa [flagsReserved, flagsFixed] using this
  · simp [flagsFixed]

/-! ## Step 13 -/

/-- The registers of a state with LDTR's and the segment registers' hidden parts, `pending_task_trap`,
memory and the count of free values left open: what qualifying may change. -/
structure SameButHidden (s t : State) : Prop where
  gpr : t.gpr = s.gpr
  eip : t.eip = s.eip
  nextEip : t.nextEip = s.nextEip
  eflags : t.eflags = s.eflags
  tr : t.tr = s.tr
  cr0 : t.cr0 = s.cr0
  cr3 : t.cr3 = s.cr3
  gdtr : t.gdtr = s.gdtr
  idtr : t.idtr = s.idtr
  event : t.event = s.event
  params : t.params = s.params

theorem SameButHidden.trans {s t u : State} (h : SameButHidden s t) (k : SameButHidden t u) :
    SameButHidden s u :=
  ⟨k.1.trans h.1, k.2.trans h.2, k.3.trans h.3, k.4.trans h.4, k.5.trans h.5, k.6.trans h.6,
   k.7.trans h.7, k.8.trans h.8, k.9.trans h.9, k.10.trans h.10, k.11.trans h.11⟩

theorem qualifyAll_same (e : Config.Env) (s : State) (passed : List Check) :
    SameButHidden s (qualifyAll e s passed) := ⟨rfl, rfl, rfl, rfl, rfl, rfl, rfl, rfl, rfl, rfl, rfl⟩

/-- Taking accessed bits changes memory and the count of free values only. -/
structure SameButMem (s t : State) : Prop where
  same : SameButHidden s t
  seg : ∀ r, t.seg r = s.seg r
  ldtr : t.ldtr = s.ldtr
  trap : t.pendingTaskTrap = s.pendingTaskTrap

theorem markAccessed_same (e : Config.Env) (s : State) (p : Word) :
    SameButMem s (markAccessed e s p) := by
  unfold markAccessed
  split <;> exact ⟨⟨rfl, rfl, rfl, rfl, rfl, rfl, rfl, rfl, rfl, rfl, rfl⟩, fun r => by cases r <;> rfl,
    rfl, rfl⟩

theorem foldl_markAccessed_same (e : Config.Env) (ps : List Word) (s : State) :
    SameButMem s (ps.foldl (markAccessed e) s) := by
  induction ps generalizing s with
  | nil => exact ⟨⟨rfl, rfl, rfl, rfl, rfl, rfl, rfl, rfl, rfl, rfl, rfl⟩, fun _ => rfl, rfl, rfl⟩
  | cons p ps ih =>
    have h := markAccessed_same e s p
    have k := ih (markAccessed e s p)
    exact ⟨h.1.trans k.1, fun r => (k.2 r).trans (h.2 r), k.3.trans h.3, k.4.trans h.4⟩

theorem accessedByte_or (b : Byte) (f : Bool) :
    accessedByte b f = b ∨ accessedByte b f = b ||| 0x01#8 := by
  cases f
  · exact .inl rfl
  · exact .inr rfl

/-- A byte keeps its value, or is one of the marked and has its accessed bit set. -/
theorem foldl_markAccessed_get (e : Config.Env) (ps : List Word) (s : State) (a : Nat) :
    (ps.foldl (markAccessed e) s).mem.get a = s.mem.get a ∨
      ((∃ q ∈ ps, a = q.toNat) ∧ (ps.foldl (markAccessed e) s).mem.get a = s.mem.get a ||| 0x01#8) := by
  induction ps generalizing s with
  | nil => exact .inl rfl
  | cons p ps ih =>
    have hm : (markAccessed e s p).mem.get a = s.mem.get a ∨
        (a = p.toNat ∧ (markAccessed e s p).mem.get a = s.mem.get a ||| 0x01#8) := by
      unfold markAccessed
      split
      · exact .inl rfl
      · simp only [lockedRmw_get]
        split
        · next hp =>
          rcases accessedByte_or (s.mem.get a) (e.draw1 s.draws) with h | h
          · exact .inl h
          · exact .inr ⟨hp, h⟩
        · exact .inl rfl
    have hor : ∀ b : Byte, (b ||| 0x01#8) ||| 0x01#8 = b ||| 0x01#8 := by intro b; rw [BitVec.or_assoc]; rfl
    rcases ih (markAccessed e s p) with h | ⟨⟨q, hq, hqa⟩, h⟩
    · rcases hm with hm | ⟨hp, hm⟩
      · exact .inl (h.trans hm)
      · exact .inr ⟨⟨p, by simp, hp⟩, h.trans hm⟩
    · rcases hm with hm | ⟨hp, hm⟩
      · exact .inr ⟨⟨q, by simp [hq], hqa⟩, by rw [List.foldl_cons, h, hm]⟩
      · exact .inr ⟨⟨p, by simp, hp⟩, by rw [List.foldl_cons, h, hm, hor]⟩

theorem foldl_markAccessed_wf (e : Config.Env) (ps : List Word) {s : State} (h : s.mem.wf = true) :
    (ps.foldl (markAccessed e) s).mem.wf = true := by
  induction ps generalizing s with
  | nil => exact h
  | cons p ps ih =>
    refine ih ?_
    unfold markAccessed
    split
    · exact h
    · exact lockedRmw_wf _ _ h

/-- Everything qualifying can do to the state: hidden parts, accessed bits, the count of free values. -/
theorem qualified_same (e : Config.Env) (s : State) (passed : List Check) :
    SameButHidden s (qualified e s passed) ∧
    (∀ r, (qualified e s passed).seg r = qualifySeg e s passed r) ∧
    (qualified e s passed).ldtr = qualifyLdt e s passed ∧
    (qualified e s passed).pendingTaskTrap = s.pendingTaskTrap := by
  have h := foldl_markAccessed_same e (accessedPlaces e s passed) (qualifyAll e s passed)
  exact ⟨(qualifyAll_same e s passed).trans h.1, fun r => (h.2 r).trans (by cases r <;> rfl), h.3, h.4⟩

theorem qualified_get (e : Config.Env) (s : State) (passed : List Check) (a : Nat) :
    (qualified e s passed).mem.get a = s.mem.get a ∨
      ((∃ q ∈ accessedPlaces e s passed, a = q.toNat) ∧
        (qualified e s passed).mem.get a = s.mem.get a ||| 0x01#8) :=
  foldl_markAccessed_get e _ (qualifyAll e s passed) a

theorem qualified_wf (e : Config.Env) {s : State} (passed : List Check) (h : s.mem.wf = true) :
    (qualified e s passed).mem.wf = true := foldl_markAccessed_wf e _ h

/-- A hidden part is loaded exactly when all the checks of its register have held. -/
theorem segHidden_held {e : Config.Env} {s : State} {held : List Check} {r : SegName}
    (h : ∀ k ∈ SegName.checks r, k ∈ held) : segHidden e s held r =
      match segLookup e s (s.seg r).sel with
      | .found d => some d.hidden
      | _ => none := by
  refine if_pos ?_
  rw [List.all_eq_true]
  exact fun k hk => List.elem_eq_true_of_mem (h k hk)

theorem segHidden_notHeld {e : Config.Env} {s : State} {held : List Check} {r : SegName}
    (h : ∃ k ∈ SegName.checks r, k ∉ held) : segHidden e s held r = none := by
  refine if_neg fun ha => ?_
  obtain ⟨k, hk, hn⟩ := h
  rw [List.all_eq_true] at ha
  exact hn (List.mem_of_elem_eq_true (ha k hk))

/-- Qualifying in full: when every check holds, the hidden part of a register is its descriptor's. -/
theorem segHidden_all {e : Config.Env} {s : State} {r : SegName} :
    segHidden e s (loadChecks s) r =
      match segLookup e s (s.seg r).sel with
      | .found d => some d.hidden
      | _ => none := segHidden_held fun c _ => mem_loadChecks s c

theorem segLookup_null {e : Config.Env} {s : State} {sel : Half} (h : selNull sel = true) :
    segLookup e s sel = .null := by
  simp [segLookup, h]

theorem ldtLookup_null {e : Config.Env} {s : State} (h : selNull s.ldtr.sel = true) :
    ldtLookup e s = .null := by
  simp [ldtLookup, h]

/-- The common part of what a switch leaves, once its load has been made: any state that agrees with
`qualified` on everything but the pending trap and the count of free values. -/
theorem inNewTask_of_qualified {e : Config.Env} {kind : SwitchKind} {newSel : Half} {nd : Desc}
    {p : Plan} {retEip : Word} {s t : State} {passed : List Check}
    (ht : SameButMem (qualified e (arrivalState e kind newSel nd p retEip s) passed) t ∨
      ((qualified e (arrivalState e kind newSel nd p retEip s) passed).setTrap t.pendingTaskTrap).setDraws
        t.draws = t)
    (hm : t.mem = (qualified e (arrivalState e kind newSel nd p retEip s) passed).mem) :
    InNewTask e kind newSel nd p retEip s
      (accessedPlaces e (arrivalState e kind newSel nd p retEip s) passed) t := by
  obtain ⟨hs, hseg, hldt, -⟩ := qualified_same e (arrivalState e kind newSel nd p retEip s) passed
  have hq := qualified_get e (arrivalState e kind newSel nd p retEip s) passed
  have hsame : SameButHidden (qualified e (arrivalState e kind newSel nd p retEip s) passed) t ∧
      (∀ r, t.seg r = (qualified e (arrivalState e kind newSel nd p retEip s) passed).seg r) ∧
      t.ldtr = (qualified e (arrivalState e kind newSel nd p retEip s) passed).ldtr := by
    rcases ht with ht | ht
    · exact ⟨ht.1, ht.2, ht.3⟩
    · rw [← ht]
      exact ⟨⟨rfl, rfl, rfl, rfl, rfl, rfl, rfl, rfl, rfl, rfl, rfl⟩, fun r => by cases r <;> rfl, rfl⟩
  obtain ⟨h1, h2, h3⟩ := hsame
  have hfl : t.eflags = nestedFlags kind (loadFlags
      (flagPick e ((commit e p kind newSel nd retEip s).draws + loadDraws nd.is32 - 2))
      (arrivalImage e kind newSel nd p retEip s).eflags) := h1.eflags.trans hs.eflags
  refine { tr := h1.tr.trans hs.tr, cr0 := h1.cr0.trans hs.cr0, cr3 := ?_, eip := h1.eip.trans hs.eip,
           gpr := h1.gpr.trans hs.gpr, nt := ?_, flags := ?_, bit1 := ?_, clean := ?_, sel := ?_,
           ldt := by rw [h3, hldt]; rfl, gdtr := h1.gdtr.trans hs.gdtr, idtr := h1.idtr.trans hs.idtr,
           params := h1.params.trans hs.params, event := h1.event.trans hs.event,
           nextEip := h1.nextEip.trans hs.nextEip, stored := ?_, marked := ?_ }
  · exact (h1.cr3.trans hs.cr3).trans (loadedCr3_commit e p kind newSel nd retEip s _)
  · rw [hfl, nestedFlags_nt]
    congr 1
    exact loadFlags_bit _ _ (by decide)
  · rw [hfl]
    apply BitVec.eq_of_getLsbD_eq
    intro i hi
    simp only [BitVec.getLsbD_and, BitVec.getLsbD_not, BitVec.getLsbD_or, hi, decide_true,
      Bool.true_and]
    cases hr : flagsReserved.getLsbD i with
    | true => simp
    | false =>
      by_cases h14 : i = 14
      · subst h14; simp
      · rw [nestedFlags_other kind _ h14, loadFlags_bit _ _ hr]
  · show t.eflags.getLsbD 1 = true
    rw [hfl, nestedFlags_other kind _ (by decide), loadFlags_bit1]
  · intro hc
    rw [hfl]
    simp [loadFlags, hc]
  · intro r
    rw [h2, hseg]
    cases r <;> rfl
  · intro a ha
    have hc := commit_mem_get (e := e) (newSel := newSel) (retEip := retEip)
      (fun q hq => ha q (List.mem_append_left _ hq))
    rw [← hc, hm]
    rcases hq a with h | ⟨⟨q, hqm, hqa⟩, -⟩
    · exact h
    · exact absurd hqa (ha q (List.mem_append_right _ hqm))
  · intro a
    rw [hm]
    exact hq a

/-! ## The task switch as a whole -/

theorem switchReady_iff {e : Config.Env} {kind : SwitchKind} {newSel : Half} {nd : Desc} {p : Plan}
    {s : State} : SwitchReady e kind newSel nd p s ↔
      s.tr.loaded = true ∧ preChecks e kind newSel s = .ok nd ∧ plan e kind newSel nd s = .ok p := by
  rw [preChecks_ok_iff]
  constructor
  · rintro ⟨a, b, c, d, f, g, h⟩
    exact ⟨a, ⟨b, c, d, f, g⟩, h⟩
  · rintro ⟨a, ⟨b, c, d, f, g⟩, h⟩
    exact ⟨a, b, c, d, f, g, h⟩

/-- The part of a switch after the commit point, once everything before it holds and the load is one
the spec covers. -/
theorem taskSwitch_ready {e : Config.Env} {kind : SwitchKind} {newSel : Half} {nd : Desc} {p : Plan}
    {retEip : Word} {s : State} (hr : SwitchReady e kind newSel nd p s)
    (hl : LoadReady e kind newSel nd p retEip s) :
    taskSwitch e kind newSel retEip s =
      qualify e kind (arrivalImage e kind newSel nd p retEip s).trap
        (arrivalState e kind newSel nd p retEip s) := by
  obtain ⟨h0, h1, h2⟩ := switchReady_iff.mp hr
  have hload : load e p kind nd s (commit e p kind newSel nd retEip s) =
      .ok (arrivalState e kind newSel nd p retEip s,
        (arrivalImage e kind newSel nd p retEip s).trap) := by
    have hv := hl.notV86
    have hm := hl.mapping
    simp only [arrivalImage] at hv hm
    simp only [load, hv, loadedCr3_commit, hm, if_true, Bool.false_eq_true, if_false]
    rfl
  simp [taskSwitch, h0, h1, h2, hload]

/-- A switch goes past the commit point exactly in the states that are ready for it: whatever it answers
otherwise is an exception before the commit point or a refusal. -/
theorem taskSwitch_cases (e : Config.Env) (kind : SwitchKind) (newSel : Half) (retEip : Word)
    (s : State) :
    (∃ nd p, SwitchReady e kind newSel nd p s ∧ LoadReady e kind newSel nd p retEip s) ∨
    (∃ r, taskSwitch e kind newSel retEip s = .error (.refused r)) ∨
    (∃ x c u, taskSwitch e kind newSel retEip s = .error (.raised x c u) ∧
      (u = s ∨ u = s.setDraws (s.draws + 1))) := by
  unfold taskSwitch
  cases h0 : s.tr.loaded with
  | false => exact .inr (.inl ⟨_, rfl⟩)
  | true =>
    simp only [Bool.not_true, Bool.false_eq_true, if_false]
    cases h1 : preChecks e kind newSel s with
    | error x =>
      cases x with
      | refused r => exact .inr (.inl ⟨r, rfl⟩)
      | raised x c u => exact .inr (.inr ⟨x, c, u, rfl, preChecks_raised h1⟩)
    | ok nd =>
      simp only
      cases h2 : plan e kind newSel nd s with
      | error x =>
        cases x with
        | refused r => exact .inr (.inl ⟨r, rfl⟩)
        | raised x c u => exact .inr (.inr ⟨x, c, u, rfl, .inr (plan_raised h2).2⟩)
      | ok p =>
        simp only
        have hr : SwitchReady e kind newSel nd p s := switchReady_iff.mpr ⟨h0, h1, h2⟩
        cases hv : flagVM (arrivalImage e kind newSel nd p retEip s).eflags with
        | true =>
          refine .inr (.inl ⟨.virtual8086Task, ?_⟩)
          simp only [arrivalImage] at hv
          simp [load, hv]
        | false =>
          cases hm : mappingKept e s (commit e p kind newSel nd retEip s) nd
              (loadedCr3 s (arrivalImage e kind newSel nd p retEip s)) with
          | true => exact .inl ⟨nd, p, hr, hv, hm⟩
          | false =>
            refine .inr (.inl ⟨.mappingChangesWithCr3, ?_⟩)
            simp only [arrivalImage] at hv hm
            simp [load, hv, loadedCr3_commit, hm]

theorem qualify_none {e : Config.Env} {kind : SwitchKind} {trap : Bool} {s : State}
    (h : ∀ c, checkFailure e s c = none) :
    qualify e kind trap s = .ok (if trap then (qualified e s (loadChecks s)).setTrap true
      else qualified e s (loadChecks s)) := by
  simp [qualify, runChecks_none fun c (_ : c ∈ loadChecks s) => h c]

/-- The hidden parts once every check has held. -/
theorem qualified_hidden {e : Config.Env} {s : State} (h : ∀ c, checkFailure e s c = none) :
    (∀ r d, segLookup e s (s.seg r).sel = .found d →
      ((qualified e s (loadChecks s)).seg r).hidden = some d.hidden) ∧
    (∀ r, selNull (s.seg r).sel = true → ((qualified e s (loadChecks s)).seg r).hidden = none) ∧
    (∀ d, ldtLookup e s = .found d →
      (qualified e s (loadChecks s)).ldtr.hidden = some d.hidden) ∧
    (selNull s.ldtr.sel = true → (qualified e s (loadChecks s)).ldtr.hidden = none) := by
  obtain ⟨-, hseg, hldt, -⟩ := qualified_same e s (loadChecks s)
  have hok : ldtOk e s = true := by
    have h5 := h .ldtValid
    have h10 := h .ldtPresent
    simp only [checkFailure] at h5 h10
    simp [ldtOk, h5, h10]
  have hl : (qualifyLdt e s (loadChecks s)).hidden = ldtHidden e s := by
    have h1 : (loadChecks s).contains .ldtValid = true :=
      List.elem_eq_true_of_mem (mem_loadChecks s _)
    have h2 : (loadChecks s).contains .ldtPresent = true :=
      List.elem_eq_true_of_mem (mem_loadChecks s _)
    simp [qualifyLdt, -List.contains_eq_mem, h1, h2]
  refine ⟨fun r d hd => ?_, fun r hn => ?_, fun d hd => ?_, fun hn => ?_⟩
  · rw [hseg]
    show segHidden e s (loadChecks s) r = _
    rw [segHidden_all, hd]
  · rw [hseg]
    show segHidden e s (loadChecks s) r = _
    rw [segHidden_all, segLookup_null hn]
  · rw [hldt, hl, ldtHidden, hd]
    simp [hok]
  · rw [hldt, hl, ldtHidden, ldtLookup_null hn]

/-- What a switch leaves when K5 to K17 hold. -/
theorem arrived_qualified {e : Config.Env} {kind : SwitchKind} {newSel : Half} {nd : Desc} {p : Plan}
    {retEip : Word} {s : State} (h : ChecksHold e kind newSel nd p retEip s) :
    Arrived e kind newSel nd p retEip s
      (if (arrivalImage e kind newSel nd p retEip s).trap then
        (qualified e (arrivalState e kind newSel nd p retEip s)
          (loadChecks (arrivalState e kind newSel nd p retEip s))).setTrap true
       else qualified e (arrivalState e kind newSel nd p retEip s)
          (loadChecks (arrivalState e kind newSel nd p retEip s))) := by
  obtain ⟨hs, hseg, hldt, htrap⟩ := qualified_same e (arrivalState e kind newSel nd p retEip s)
    (loadChecks (arrivalState e kind newSel nd p retEip s))
  obtain ⟨h1, h2, h3, h4⟩ := qualified_hidden h
  generalize hq : qualified e (arrivalState e kind newSel nd p retEip s)
    (loadChecks (arrivalState e kind newSel nd p retEip s)) = q at hs hseg hldt htrap h1 h2 h3 h4
  have hsel (r : SegName) : (q.seg r).sel = ((arrivalState e kind newSel nd p retEip s).seg r).sel := by
    rw [hseg]; rfl
  have hlsel : q.ldtr.sel = (arrivalState e kind newSel nd p retEip s).ldtr.sel := by rw [hldt]; rfl
  have htr : q.pendingTaskTrap = s.pendingTaskTrap := htrap
  have main (t : State) (hseg : ∀ r, t.seg r = q.seg r) (hl : t.ldtr = q.ldtr)
      (htp : t.pendingTaskTrap =
        (s.pendingTaskTrap || (arrivalImage e kind newSel nd p retEip s).trap))
      (hin : InNewTask e kind newSel nd p retEip s (markedPlaces e kind newSel nd p retEip s) t) :
      Arrived e kind newSel nd p retEip s t := by
    refine ⟨hin, fun r d hd => ?_, fun r hn => ?_, fun d hd => ?_, fun hn => ?_, htp⟩
    · rw [hseg, hsel] at hd; rw [hseg]; exact h1 r d hd
    · rw [hseg, hsel] at hn; rw [hseg]; exact h2 r hn
    · rw [hl]; exact h3 d hd
    · rw [hl, hlsel] at hn; rw [hl]; exact h4 hn
  cases ht : (arrivalImage e kind newSel nd p retEip s).trap with
  | true =>
    refine main _ (fun r => by cases r <;> rfl) rfl (by simp [ht]) ?_
    exact inNewTask_of_qualified (.inr (by rw [hq]; rfl)) (by rw [hq]; rfl)
  | false =>
    refine main _ (fun r => rfl) rfl (by simp [ht, htr]) ?_
    refine inNewTask_of_qualified (.inl ?_) (by rw [hq]; rfl)
    rw [hq]
    exact ⟨⟨rfl, rfl, rfl, rfl, rfl, rfl, rfl, rfl, rfl, rfl, rfl⟩, fun _ => rfl, rfl, rfl⟩

/-- A switch that goes through completes, and this is what it leaves. -/
theorem taskSwitch_goes {e : Config.Env} {kind : SwitchKind} {newSel : Half} {nd : Desc} {p : Plan}
    {retEip : Word} {s : State} (h : SwitchGoes e kind newSel nd p retEip s) :
    ∃ t, taskSwitch e kind newSel retEip s = .ok t ∧ Arrived e kind newSel nd p retEip s t :=
  ⟨_, by rw [taskSwitch_ready h.ready h.load, qualify_none h.checks], arrived_qualified h.checks⟩

/-- What a switch leaves when only the checks `held` have held before a failure. -/
theorem stoppedAfter_qualified {e : Config.Env} {kind : SwitchKind} {newSel : Half} {nd : Desc} {p : Plan}
    {retEip : Word} {s u : State} {held : List Check} {b : Bool} {n : Nat}
    (hu : u = ((qualified e (arrivalState e kind newSel nd p retEip s) held).setTrap b).setDraws n)
    (hb : (arrivalImage e kind newSel nd p retEip s).trap = false → b = s.pendingTaskTrap) :
    StoppedAfter e kind newSel nd p retEip s held u := by
  obtain ⟨-, hseg, hldt, -⟩ := qualified_same e (arrivalState e kind newSel nd p retEip s) held
  have hs (r : SegName) : u.seg r = qualifySeg e (arrivalState e kind newSel nd p retEip s) held r := by
    rw [← hseg, hu]; cases r <;> rfl
  have hh (r : SegName) : (u.seg r).hidden = segHidden e (arrivalState e kind newSel nd p retEip s) held r := by
    rw [hs]; rfl
  have hl : u.ldtr = qualifyLdt e (arrivalState e kind newSel nd p retEip s) held := by rw [← hldt, hu]; rfl
  refine ⟨inNewTask_of_qualified (.inr (by rw [hu]; rfl)) (by rw [hu]; rfl), fun r hr => ?_,
    fun r d hr hd => ?_, fun r hr => ?_, ?_, fun ht => by rw [hu, ← hb ht]; rfl⟩
  · rw [hh, segHidden_notHeld hr]
  · rw [hs] at hd
    change segLookup e _ ((arrivalState e kind newSel nd p retEip s).seg r).sel = _ at hd
    rw [hh, segHidden_held hr, hd]
    rfl
  · rw [hs] at hr
    change selNull ((arrivalState e kind newSel nd p retEip s).seg r).sel = true at hr
    by_cases ha : ∀ k ∈ SegName.checks r, k ∈ held
    · rw [hh, segHidden_held ha, segLookup_null hr]
    · rw [hh, segHidden_notHeld (by simpa using ha)]
  · rw [hl]
    by_cases h5 : Check.ldtValid ∈ held <;> by_cases h10 : Check.ldtPresent ∈ held <;>
      simp [qualifyLdt, h5, h10]

/-- Everything a failing check of step 13 can do. -/
theorem qualify_error {e : Config.Env} {kind : SwitchKind} {trap : Bool} {s : State} {held after : List Check}
    {c : Check} {f : Failure} (ho : loadChecks s = held ++ c :: after)
    (hh : ∀ k ∈ held, checkFailure e s k = none) (hc : checkFailure e s c = some f) :
    ∃ x code u, qualify e kind trap s = .error (.raised x code u) ∧ f.ReportedAs kind x code ∧
      ∃ b n, u = ((qualified e s held).setTrap b).setDraws n ∧ (trap = false → b = s.pendingTaskTrap) := by
  have hr : runChecks (checkFailure e s) (loadChecks s) = (held, some f) := by
    rw [ho]; exact runChecks_first hh hc
  have ht : ∃ b n, trapAfterFailure e trap (qualified e s held) = ((qualified e s held).setTrap b).setDraws n ∧
      (trap = false → b = s.pendingTaskTrap) := by
    cases trap
    · exact ⟨_, (qualified e s held).draws, rfl, fun _ => (qualified_same e s held).2.2.2⟩
    · exact ⟨e.draw1 (qualified e s held).draws, (qualified e s held).draws + 1, rfl, fun h => by cases h⟩
  obtain ⟨b, n, hb, hn⟩ := ht
  cases f with
  | fails x sel =>
    exact ⟨x, _, _, by simp only [qualify, hr], ⟨rfl, rfl⟩, b, n, hb, hn⟩
  | pageFault =>
    exact ⟨.pf, _, _, by simp only [qualify, hr]; rfl, ⟨rfl, rfl⟩, b, _, by rw [hb]; rfl, hn⟩

/-- A switch that is ready and meets a failing check reports it in the new task. -/
theorem taskSwitch_stopped {e : Config.Env} {kind : SwitchKind} {newSel : Half} {nd : Desc} {p : Plan}
    {retEip : Word} {s : State} {held after : List Check} {c : Check} {f : Failure}
    (hr : SwitchReady e kind newSel nd p s) (hl : LoadReady e kind newSel nd p retEip s)
    (ho : loadChecks (arrivalState e kind newSel nd p retEip s) = held ++ c :: after)
    (hh : ∀ k ∈ held, checkFailure e (arrivalState e kind newSel nd p retEip s) k = none)
    (hc : checkFailure e (arrivalState e kind newSel nd p retEip s) c = some f) :
    ∃ x code u, taskSwitch e kind newSel retEip s = .error (.raised x code u) ∧ f.ReportedAs kind x code ∧
      (∃ b n, u = ((qualified e (arrivalState e kind newSel nd p retEip s) held).setTrap b).setDraws n) ∧
      StoppedAfter e kind newSel nd p retEip s held u := by
  obtain ⟨x, code, u, hx, hf, b, n, hu, hb⟩ := qualify_error (kind := kind)
    (trap := (arrivalImage e kind newSel nd p retEip s).trap) ho hh hc
  exact ⟨x, code, u, by rw [taskSwitch_ready hr hl, hx], hf, ⟨b, n, hu⟩, stoppedAfter_qualified hu hb⟩

/-- A switch that is ready meets a failing check, or goes through. -/
theorem ready_cases {e : Config.Env} {kind : SwitchKind} {newSel : Half} {nd : Desc} {p : Plan}
    {retEip : Word} {s : State} :
    ChecksHold e kind newSel nd p retEip s ∨
    ∃ held c after f, loadChecks (arrivalState e kind newSel nd p retEip s) = held ++ c :: after ∧
      (∀ k ∈ held, checkFailure e (arrivalState e kind newSel nd p retEip s) k = none) ∧
      checkFailure e (arrivalState e kind newSel nd p retEip s) c = some f := by
  cases hf : (runChecks (checkFailure e (arrivalState e kind newSel nd p retEip s))
      (loadChecks (arrivalState e kind newSel nd p retEip s))).2 with
  | none => exact .inl fun c => runChecks_snd_none hf c (mem_loadChecks _ c)
  | some f =>
    obtain ⟨held, c, after, ho, hh, hc, -⟩ := runChecks_snd_some hf
    exact .inr ⟨held, c, after, f, ho, hh, hc⟩

/-- A switch completes only if it goes through. -/
theorem taskSwitch_ok {e : Config.Env} {kind : SwitchKind} {newSel : Half} {retEip : Word} {s t : State}
    (h : taskSwitch e kind newSel retEip s = .ok t) :
    ∃ nd p, SwitchGoes e kind newSel nd p retEip s ∧ Arrived e kind newSel nd p retEip s t := by
  rcases taskSwitch_cases e kind newSel retEip s with ⟨nd, p, hr, hl⟩ | ⟨r, hx⟩ | ⟨x, c, u, hx, -⟩
  · rcases ready_cases (e := e) (kind := kind) (newSel := newSel) (nd := nd) (p := p) (retEip := retEip) (s := s)
      with hc | ⟨held, c, after, f, ho, hh, hc⟩
    · rw [taskSwitch_ready hr hl, qualify_none hc] at h
      cases h
      exact ⟨nd, p, ⟨hr, hl, hc⟩, arrived_qualified hc⟩
    · obtain ⟨x, code, u, hx, -⟩ := taskSwitch_stopped hr hl ho hh hc
      rw [hx] at h; cases h
  · rw [hx] at h; cases h
  · rw [hx] at h; cases h

/-- An exception of a task switch is raised in the state on entry, but for the count of free values, or
after the commit point in the new task, by the first check of step 13 that fails. -/
theorem taskSwitch_raised {e : Config.Env} {kind : SwitchKind} {newSel : Half} {retEip : Word}
    {s u : State} {x : Exc} {code : Option Half}
    (h : taskSwitch e kind newSel retEip s = .error (.raised x code u)) :
    Early s u ∨
    ∃ nd p held c after f, SwitchReady e kind newSel nd p s ∧ LoadReady e kind newSel nd p retEip s ∧
      loadChecks (arrivalState e kind newSel nd p retEip s) = held ++ c :: after ∧
      (∀ k ∈ held, checkFailure e (arrivalState e kind newSel nd p retEip s) k = none) ∧
      checkFailure e (arrivalState e kind newSel nd p retEip s) c = some f ∧ f.ReportedAs kind x code ∧
      (∃ b n, u = ((qualified e (arrivalState e kind newSel nd p retEip s) held).setTrap b).setDraws n) ∧
      StoppedAfter e kind newSel nd p retEip s held u := by
  rcases taskSwitch_cases e kind newSel retEip s with ⟨nd, p, hr, hl⟩ | ⟨r, hx⟩ | ⟨y, d, v, hx, hv⟩
  · rcases ready_cases (e := e) (kind := kind) (newSel := newSel) (nd := nd) (p := p) (retEip := retEip) (s := s)
      with hc | ⟨held, c, after, f, ho, hh, hc⟩
    · rw [taskSwitch_ready hr hl, qualify_none hc] at h; cases h
    · obtain ⟨y, d, v, hx, hf, hu, hs⟩ := taskSwitch_stopped hr hl ho hh hc
      rw [hx] at h
      cases h
      exact .inr ⟨nd, p, held, c, after, f, hr, hl, ho, hh, hc, hf, hu, hs⟩
  · rw [hx] at h; cases h
  · rw [hx] at h; cases h; exact .inl hv

/-- A switch that is ready and raises an exception has gone past the commit point. -/
theorem inNewTask_of_raised {e : Config.Env} {kind : SwitchKind} {newSel : Half} {nd : Desc} {p : Plan}
    {retEip : Word} {s u : State} {x : Exc} {c : Option Half} (hr : SwitchReady e kind newSel nd p s)
    (h : taskSwitch e kind newSel retEip s = .error (.raised x c u)) :
    ∃ marked, InNewTask e kind newSel nd p retEip s marked u := by
  obtain ⟨h0, h1, h2⟩ := switchReady_iff.mp hr
  have hl : LoadReady e kind newSel nd p retEip s := by
    cases hv : flagVM (arrivalImage e kind newSel nd p retEip s).eflags with
    | true =>
      simp only [arrivalImage] at hv
      simp [taskSwitch, h0, h1, h2, load, hv] at h
    | false =>
      cases hm : mappingKept e s (commit e p kind newSel nd retEip s) nd
          (loadedCr3 s (arrivalImage e kind newSel nd p retEip s)) with
      | true => exact ⟨hv, hm⟩
      | false =>
        simp only [arrivalImage] at hv hm
        simp [taskSwitch, h0, h1, h2, load, hv, loadedCr3_commit, hm] at h
  rcases ready_cases (e := e) (kind := kind) (newSel := newSel) (nd := nd) (p := p) (retEip := retEip) (s := s)
    with hc | ⟨held, c, after, f, ho, hh, hc⟩
  · rw [taskSwitch_ready hr hl, qualify_none hc] at h; cases h
  · obtain ⟨y, d, v, hx, -, -, hs⟩ := taskSwitch_stopped hr hl ho hh hc
    rw [hx] at h
    cases h
    exact ⟨_, hs.inNewTask⟩

/-! ## Selectors of the new task -/

/-- A selector that names a descriptor is looked up to it. -/
theorem segLookup_found {e : Config.Env} {l : State} {sel : Half} {d : Desc} (h : NamesDesc e l sel d) :
    segLookup e l sel = .found d := by
  obtain ⟨h1, h2, h3, h4⟩ := h
  unfold segLookup
  rw [h1, h3, h4]
  cases ht : selTI sel
  · simp
  · simp [h2 ht]

/-- A selector outside its table is looked up to nothing. -/
theorem segLookup_outside {e : Config.Env} {l : State} {sel : Half} (h : OutsideTable e l sel) :
    segLookup e l sel = .outside := by
  obtain ⟨h1, h2, h3⟩ := h
  unfold segLookup
  rw [h1, h3]
  cases ht : selTI sel
  · simp
  · simp [h2 ht]

/-- A selector whose descriptor cannot be read is looked up to a page fault. -/
theorem segLookup_absent {e : Config.Env} {l : State} {sel : Half} (h : NamesAbsent e l sel) :
    segLookup e l sel = .absent := by
  obtain ⟨h1, h2, h3, h4⟩ := h
  unfold segLookup
  rw [h1, h3, h4]
  cases ht : selTI sel
  · simp
  · simp [h2 ht]

/-- When every check holds, CS names a present code segment whose DPL fits. -/
theorem cs_found {e : Config.Env} {l : State} (h : ∀ c, checkFailure e l c = none) :
    ∃ d, segLookup e l l.cs.sel = .found d ∧ d.isCode = true ∧
    codeDplOk (selRPL l.cs.sel) d = true ∧ d.p = true := by
  have hok : ldtOk e l = true := by
    have h5 := h .ldtValid
    have h10 := h .ldtPresent
    simp only [checkFailure] at h5 h10
    simp [ldtOk, h5, h10]
  have h1 := h .csValid
  have h2 := h .csDpl
  have h3 := h .csPresent
  simp only [checkFailure] at h1 h2 h3
  cases hs : segLookup e l l.cs.sel with
  | null => simp [hs, validCheck] at h1
  | outside => simp [hs, validCheck] at h1
  | absent => simp [hs, validCheck] at h1
  | skipped =>
    unfold segLookup at hs
    split at hs
    · cases hs
    · simp [hok] at hs
      split at hs
      · cases hs
      · split at hs <;> cases hs
  | found d =>
    rw [hs] at h1 h2 h3
    simp only [validCheck, descCheck] at h1 h2 h3
    have hc : d.isCode = true := by cases hc : d.isCode <;> simp [hc] at h1 ⊢
    rw [hc] at h2 h3
    refine ⟨d, rfl, hc, ?_, ?_⟩
    · cases hc : codeDplOk (selRPL l.cs.sel) d <;> simp [hc] at h2 ⊢
    · cases hc : d.p <;> simp [hc] at h3 ⊢

/-- When every check holds, SS names a present writable data segment of DPL CPL. -/
theorem ss_found {e : Config.Env} {l : State} (h : ∀ c, checkFailure e l c = none) :
    ∃ d, segLookup e l l.ss.sel = .found d ∧ d.isWritableData = true ∧
    d.dpl = l.cpl ∧ d.dpl = selRPL l.ss.sel ∧ d.p = true := by
  have hok : ldtOk e l = true := by
    have h5 := h .ldtValid
    have h10 := h .ldtPresent
    simp only [checkFailure] at h5 h10
    simp [ldtOk, h5, h10]
  have h1 := h .ssValid
  have h2 := h .ssDplCpl
  have h4 := h .ssDplRpl
  have h3 := h .ssPresent
  simp only [checkFailure] at h1 h2 h3 h4
  cases hs : segLookup e l l.ss.sel with
  | null => simp [hs, validCheck] at h1
  | outside => simp [hs, validCheck] at h1
  | absent => simp [hs, validCheck] at h1
  | skipped =>
    unfold segLookup at hs
    split at hs
    · cases hs
    · simp [hok] at hs
      split at hs
      · cases hs
      · split at hs <;> cases hs
  | found d =>
    rw [hs] at h1 h2 h3 h4
    simp only [validCheck, descCheck] at h1 h2 h3 h4
    have hc : d.isWritableData = true := by cases hc : d.isWritableData <;> simp [hc] at h1 ⊢
    rw [hc] at h2 h3 h4
    refine ⟨d, rfl, hc, ?_, ?_, ?_⟩
    · by_cases hd : d.dpl = l.cpl
      · exact hd
      · simp [hd] at h2
    · by_cases hd : d.dpl = selRPL l.ss.sel
      · exact hd
      · simp [hd] at h4
    · cases hc : d.p <;> simp [hc] at h3 ⊢

/-- The first failure in `CHECK_ORDER`, when only one check fails. -/
theorem findSome_order {s : State} {f : CheckId → Option Exc} {x : Exc} (k : CheckId) (h : f k = some x) (ho : ∀ j, j ≠ k → f j = none) :
   (checkOrder s).findSome? f = some x := by
  have hm := mem_checkOrder s k
  generalize checkOrder s = l at hm
  induction l with
  | nil => cases hm
  | cons j l ih =>
    by_cases hj : j = k
    · subst hj; simp [h]
    · simp only [List.findSome?_cons, ho j hj]
      exact ih (by rcases List.mem_cons.mp hm with hm | hm; exact absurd hm.symm hj; exact hm)

/-- A descriptor's attribute field holds its bits 55:40. -/
theorem attr_bit (d : Desc) (i : Nat) (h : i < 16) : d.attr.getLsbD i = d.getLsbD (40 + i) := by
  simp [Desc.attr, h]

theorem type_bit (d : Desc) (i : Nat) (h : i < 4) : d.type.getLsbD i = d.getLsbD (40 + i) := by
  simp [Desc.type, h]

theorem dpl_attr (d : Desc) : d.attr.extractLsb' 5 2 = d.dpl := by
  apply BitVec.eq_of_getLsbD_eq
  intro i hi
  have : 5 + i < 16 := by omega
  simp [Desc.attr, Desc.dpl, hi, this]
  congr 1; omega

end Sys2Proof.Machine
end

