-- ==== Sys2Proof/Laws/Ops.lean ====
section
/-! SUPPORT. The shared operations and the meanings: what each can answer, and when a dispatch reaches the
task switch. -/

namespace Sys2Proof.Machine

/-! ## Dispatch lines -/

theorem accessOk_iff {s : State} {sel : Half} {d : Desc} :
    accessOk s sel d = true ↔ s.cpl.toNat ≤ d.dpl.toNat ∧ (selRPL sel).toNat ≤ d.dpl.toNat := by
  simp [accessOk]

theorem isTss_not_gate {d : Desc} (h : d.isTaskGate = true) : d.isTss = false := by
  simp only [Desc.isTaskGate, Bool.and_eq_true, beq_iff_eq] at h
  simp [Desc.isTss, h.2]

/-- A far transfer that lines J1 to J5 let through is the task switch. -/
theorem farTransfer_admits {e : Config.Env} {kind : SwitchKind} {sel newSel : Half} {s : State}
    (h : FarAdmits e s sel newSel) :
    farTransfer e kind sel s = taskSwitch e kind newSel s.nextEip s := by
  obtain ⟨hn, ht, d, hd, hc, hr, hk⟩ := h
  have ha : accessOk s sel d = true := accessOk_iff.mpr ⟨hc, hr⟩
  rcases hk with ⟨h1, h2, rfl⟩ | ⟨h1, h2, rfl⟩
  · simp [farTransfer, hn, ht, hd, farToDescriptor, h1, h2, ha]
  · simp [farTransfer, hn, ht, hd, farToDescriptor, isTss_not_gate h1, h1, h2, ha]

/-- Everything a far transfer can do: the switch, an exception before any effect, or a refusal. -/
theorem farTransfer_cases (e : Config.Env) (kind : SwitchKind) (sel : Half) (s : State) :
    (∃ newSel, FarAdmits e s sel newSel ∧
      farTransfer e kind sel s = taskSwitch e kind newSel s.nextEip s) ∨
    (∃ x c u, farTransfer e kind sel s = .error (.raised x c u) ∧ Early s u) ∨
    (∃ r, farTransfer e kind sel s = .error (.refused r)) := by
  unfold farTransfer
  cases hn : selNull sel with
  | true => exact .inr (.inl ⟨_, _, _, rfl, .inl rfl⟩)
  | false =>
    cases ht : inTable s sel with
    | false => exact .inr (.inl ⟨_, _, _, rfl, .inl rfl⟩)
    | true =>
      simp only [Bool.false_eq_true, if_false, Bool.not_true]
      cases hd : descAt e s (descAddr s sel) with
      | none => exact .inr (.inl ⟨_, _, _, rfl, .inr rfl⟩)
      | some d =>
        simp only [farToDescriptor]
        cases h1 : d.isTss with
        | true =>
          cases h2 : selTI sel with
          | true => exact .inr (.inl ⟨_, _, _, rfl, .inl rfl⟩)
          | false =>
            cases h3 : accessOk s sel d with
            | false => exact .inr (.inl ⟨_, _, _, rfl, .inl rfl⟩)
            | true =>
              obtain ⟨hc, hr⟩ := accessOk_iff.mp h3
              exact .inl ⟨sel, ⟨hn, ht, d, hd, hc, hr, .inl ⟨h1, h2, rfl⟩⟩, rfl⟩
        | false =>
          cases h2 : d.isTaskGate with
          | false => exact .inr (.inr ⟨_, rfl⟩)
          | true =>
            cases h3 : accessOk s sel d with
            | false => exact .inr (.inl ⟨_, _, _, rfl, .inl rfl⟩)
            | true =>
              cases h4 : d.p with
              | false => exact .inr (.inl ⟨_, _, _, rfl, .inl rfl⟩)
              | true =>
                obtain ⟨hc, hr⟩ := accessOk_iff.mp h3
                exact .inl ⟨d.gateSel, ⟨hn, ht, d, hd, hc, hr, .inr ⟨h2, h4, rfl⟩⟩, rfl⟩

theorem farPointer_error {e : Config.Env} {s u : State} {size : OpSize} {m : MemRef} {x : Exc}
    {c : Option Half} (h : farPointer e s size m = .error (.raised x c u)) : Early s u := by
  unfold farPointer at h
  split at h
  · next hr => cases h; exact .inr (readOperand_error hr).1
  · cases h

theorem softwareInterrupt_admits {e : Config.Env} {n : Byte} {newSel : Half} {s : State}
    (h : IntAdmits e s n newSel) :
    softwareInterrupt e n s = taskSwitch e .intN newSel s.nextEip s := by
  obtain ⟨hi, g, hg, ht, hc, hp, rfl⟩ := h
  have : ¬ g.dpl.toNat < s.cpl.toNat := by omega
  simp [softwareInterrupt, hi, hg, ht, this, hp]

theorem softwareInterrupt_cases (e : Config.Env) (n : Byte) (s : State) :
    (∃ newSel, IntAdmits e s n newSel ∧
      softwareInterrupt e n s = taskSwitch e .intN newSel s.nextEip s) ∨
    (∃ x c u, softwareInterrupt e n s = .error (.raised x c u) ∧ Early s u) ∨
    (∃ r, softwareInterrupt e n s = .error (.refused r)) := by
  unfold softwareInterrupt
  cases hi : inIdt s n with
  | false => exact .inr (.inl ⟨_, _, _, rfl, .inl rfl⟩)
  | true =>
    simp only [Bool.not_true, Bool.false_eq_true, if_false]
    cases hg : descAt e s (idtAddr s n) with
    | none => exact .inr (.inl ⟨_, _, _, rfl, .inr rfl⟩)
    | some g =>
      simp only
      cases ht : g.isTaskGate with
      | false => exact .inr (.inr ⟨_, rfl⟩)
      | true =>
        by_cases hc : g.dpl.toNat < s.cpl.toNat
        · exact .inr (.inl ⟨_, _, _, by simp only [hc, decide_true, if_true]; rfl, .inl rfl⟩)
        · simp only [hc, decide_false, if_true, Bool.false_eq_true, if_false]
          cases hp : g.p with
          | false => exact .inr (.inl ⟨_, _, _, rfl, .inl rfl⟩)
          | true => exact .inl ⟨g.gateSel, ⟨hi, g, hg, ht, by omega, hp, rfl⟩, rfl⟩

theorem eventEntry_admits {e : Config.Env} {kind : SwitchKind} {n : Byte} {newSel : Half} {retEip : Word}
    {s : State} (h : EventAdmits e s n newSel) :
    eventEntry e kind n retEip s = taskSwitch e kind newSel retEip s := by
  obtain ⟨hi, g, hg, ht, hp, rfl⟩ := h
  simp [eventEntry, hi, hg, ht, hp]

theorem eventEntry_ok {e : Config.Env} {kind : SwitchKind} {n : Byte} {retEip : Word} {s t : State}
    (h : eventEntry e kind n retEip s = .ok t) :
    ∃ newSel, EventAdmits e s n newSel ∧ taskSwitch e kind newSel retEip s = .ok t := by
  unfold eventEntry at h
  cases hi : inIdt s n with
  | false => simp [hi, raise] at h
  | true =>
    simp only [hi, Bool.not_true, Bool.false_eq_true, if_false] at h
    cases hg : descAt e s (idtAddr s n) with
    | none => simp [hg] at h
    | some g =>
      simp only [hg] at h
      cases ht : g.isTaskGate with
      | false => simp [ht] at h
      | true =>
        cases hp : g.p with
        | false => simp [ht, hp, raise] at h
        | true =>
          simp only [ht, hp, if_true] at h
          exact ⟨g.gateSel, ⟨hi, g, hg, ht, hp, rfl⟩, h⟩

theorem returnFromTask_admits {e : Config.Env} {newSel : Half} {s : State} (h : IretAdmits e s newSel) :
    returnFromTask e s = taskSwitch e .iret newSel s.nextEip s := by
  obtain ⟨hn, hl, hp⟩ := h
  simp [returnFromTask, hn, hl, hp]

theorem returnFromTask_cases (e : Config.Env) (s : State) :
    (∃ newSel, IretAdmits e s newSel ∧
      returnFromTask e s = taskSwitch e .iret newSel s.nextEip s) ∨
    (∃ x c u, returnFromTask e s = .error (.raised x c u) ∧ Early s u) ∨
    (∃ r, returnFromTask e s = .error (.refused r)) := by
  unfold returnFromTask
  cases hn : flagNT s.eflags with
  | false => exact .inr (.inr ⟨_, rfl⟩)
  | true =>
    cases hl : s.tr.loaded with
    | false => exact .inr (.inr ⟨_, rfl⟩)
    | true =>
      simp only [Bool.not_true, Bool.false_eq_true, if_false]
      cases hp : previousLink e s with
      | ok link => exact .inl ⟨link, ⟨hn, hl, hp⟩, rfl⟩
      | error x =>
        cases x with
        | refused r => exact .inr (.inr ⟨r, rfl⟩)
        | raised x c u =>
          refine .inr (.inl ⟨x, c, u, rfl, ?_⟩)
          unfold previousLink at hp
          split at hp
          · cases hp; exact .inr rfl
          · split at hp <;> cases hp

/-! ## Taking an exception -/

/-- Everything the end of an instruction can do when it answers a next state. -/
theorem settle_next {e : Config.Env} {r : Except Stop State} {t : State} (h : settle e r = .next t) :
    r = .ok t ∨ ∃ x c u, r = .error (.raised x c u) ∧ takeException e x c u = .next t := by
  cases r with
  | ok s => simp only [settle, Host.Outcome.next.injEq] at h; exact .inl (by rw [h])
  | error x =>
    cases x with
    | raised x c u => exact .inr ⟨x, c, u, rfl, h⟩
    | refused r => simp [settle] at h

/-- The end of an instruction is an exception as the outcome of the run only if the instruction raised it. -/
theorem settle_fault {e : Config.Env} {r : Except Stop State} {x : Exc} {c : Option Half} {u : State}
    (h : settle e r = .fault (.exception x c u)) : r = .error (.raised x c u) := by
  cases r with
  | ok s => cases h
  | error y =>
    cases y with
    | refused r => cases h
    | raised y d v =>
      simp only [settle, takeException] at h
      split at h
      · unfold enterHandler at h
        split at h
        · next z hz => cases z <;> simp [endDelivery] at h
        · next t ht =>
          generalize withErrorCode e d t = w at h
          cases w with
          | ok s => simp [endDelivery] at h
          | error z => cases z <;> simp [endDelivery] at h
      · simp only [Host.Outcome.fault.injEq, Fault.exception.injEq] at h
        obtain ⟨rfl, rfl, rfl⟩ := h
        rfl

theorem endDelivery_next {r : Except Stop State} {t : State} (h : endDelivery r = .next t) :
    r = .ok t := by
  cases r with
  | ok s => simp only [endDelivery, Host.Outcome.next.injEq] at h; rw [h]
  | error x => cases x <;> simp [endDelivery] at h

/-- Everything the entry into a handler task can do when it answers a next state. -/
theorem enterHandler_next {e : Config.Env} {kind : SwitchKind} {n : Byte} {code : Option Half}
    {retEip : Word} {s t : State} (h : enterHandler e kind n code retEip s = .next t) :
    ∃ newSel m, EventAdmits e s n newSel ∧ taskSwitch e kind newSel retEip s = .ok m ∧
      withErrorCode e code m = .ok t := by
  unfold enterHandler at h
  split at h
  · have := endDelivery_next h; cases this
  · next m hm =>
    obtain ⟨newSel, ha, hs⟩ := eventEntry_ok hm
    exact ⟨newSel, m, ha, hs, endDelivery_next h⟩

theorem takeException_next {e : Config.Env} {x : Exc} {code : Option Half} {s t : State}
    (h : takeException e x code s = .next t) : s.protectedMode = true ∧
      enterHandler e .exc x.vector code s.eip s = .next t := by
  unfold takeException at h
  split at h
  · next hp => exact ⟨by simp at hp; exact hp.1, h⟩
  · cases h

/-- Everything the push of an error code can do. -/
theorem withErrorCode_ok {e : Config.Env} {code : Option Half} {s t : State}
    (h : withErrorCode e code s = .ok t) : t = s ∨
      ∃ ps bs v, t = { s with mem := s.mem.setList ps bs, gpr := s.gpr.set .esp v,
                              draws := s.draws + 1 } := by
  cases code with
  | none => cases h; exact .inl rfl
  | some c =>
    simp only [withErrorCode, pushErrorCode] at h
    split at h
    · cases h
    · next hd _ =>
      split at h
      · split at h
        · cases h
        · next u hw =>
          obtain ⟨ps, -, hu⟩ := writeBytes_some hw
          cases h
          exact .inr ⟨ps, _, _, by rw [hu]; rfl⟩
      · cases h

/-- The push of an error code with paging off. -/
theorem pushErrorCode_flat {e : Config.Env} {s : State} {code : Half} {h : Hidden} {n : Nat}
    (hp : s.paging = false) (hs : s.ss.hidden = some h) (hw : h.writable = true)
    (hn : (errorCodeBytes s.tr.is32 code (e.draw16 s.draws)).length = n)
    (hc : h.covers (pushOffset h s.gpr.esp n) n = true) :
    pushErrorCode e code s = .ok { s with
      mem := s.mem.setList (contig (h.base + pushOffset h s.gpr.esp n) n)
        (errorCodeBytes s.tr.is32 code (e.draw16 s.draws))
      gpr := s.gpr.set .esp (espAfterPush h s.gpr.esp (pushOffset h s.gpr.esp n))
      draws := s.draws + 1 } := by
  simp only [pushErrorCode, hs, hn, if_true, hw, hc, Bool.and_self, writeBytes_flat hp, linearAddr]
  rfl

/-! ## LTR and STR -/

/-- LTR's next state. -/
def afterLtr (s : State) (sel : Half) (d : Desc) (q : Word) : State :=
  { s with mem := lockedRmw s.mem q setBusy, tr := ltrTaskReg sel d, eip := s.nextEip }

theorem ltr_admits {e : Config.Env} {s : State} {src : LtrSrc} {sel : Half} {d : Desc} {q : Word}
    (h : LtrAdmits e s src sel d q) : ltr e src s = .ok (afterLtr s sel d q) := by
  obtain ⟨h1, h2, h3, h4, h5, h6, h7, h8, h9⟩ := h
  simp [ltr, h1, h2, ltrSelector, h3, h4, h5, h6, h7, h8, ltrLoad, h9]
  rfl

/-- Everything LTR can do. -/
theorem ltr_cases (e : Config.Env) (src : LtrSrc) (s : State) :
    (∃ sel d q, LtrAdmits e s src sel d q ∧ ltr e src s = .ok (afterLtr s sel d q)) ∨
    (∃ x c u, ltr e src s = .error (.raised x c u) ∧ Early s u) ∨
    (∃ r, ltr e src s = .error (.refused r)) := by
  by_cases h1 : s.cpl = 0#2
  · cases h2 : ltrSource e s src with
    | error x =>
      have hl : ltr e src s = .error x := by simp [ltr, h1, h2]
      cases x with
      | refused r => exact .inr (.inr ⟨r, hl⟩)
      | raised x c u =>
        refine .inr (.inl ⟨x, c, u, hl, ?_⟩)
        cases src with
        | reg r => cases h2
        | mem m =>
          simp only [ltrSource] at h2
          split at h2
          · next hr => cases h2; exact .inr (readOperand_error hr).1
          · cases h2
    | ok sel =>
      have hl : ltr e src s = ltrSelector e sel s := by simp [ltr, h1, h2]
      rw [hl]
      unfold ltrSelector
      cases h3 : selNull sel with
      | true => exact .inr (.inl ⟨_, _, _, rfl, .inl rfl⟩)
      | false =>
        cases h4 : selTI sel with
        | true => exact .inr (.inl ⟨_, _, _, rfl, .inl rfl⟩)
        | false =>
          cases h5 : inGdt s sel with
          | false => exact .inr (.inl ⟨_, _, _, rfl, .inl rfl⟩)
          | true =>
            simp only [Bool.false_eq_true, if_false, Bool.not_true, Bool.or_self]
            cases h6 : descAt e s (gdtAddr s sel) with
            | none => exact .inr (.inl ⟨_, _, _, rfl, .inr rfl⟩)
            | some d =>
              simp only
              cases h7 : availableTss d with
              | false => exact .inr (.inl ⟨_, _, _, rfl, .inl rfl⟩)
              | true =>
                cases h8 : d.p with
                | false => exact .inr (.inl ⟨_, _, _, rfl, .inl rfl⟩)
                | true =>
                  simp only [Bool.not_true, Bool.false_eq_true, if_false, ltrLoad]
                  cases h9 : physical e s sysWrite (gdtAddr s sel + 5#32) with
                  | none => exact .inr (.inl ⟨_, _, _, rfl, .inr rfl⟩)
                  | some q => exact .inl ⟨sel, d, q, ⟨h1, h2, h3, h4, h5, h6, h7, h8, h9⟩, rfl⟩
  · exact .inr (.inl ⟨_, _, _, by simp only [ltr, ne_eq, h1, not_false_eq_true, if_true]; rfl, .inl rfl⟩)

/-- Everything STR can do. -/
theorem str_cases (e : Config.Env) (dst : StrDest) (s : State) :
    (∃ g n, str e dst s = .ok { s with gpr := g, eip := s.nextEip, draws := n }) ∨
    (∃ m la ps, dst = .mem m ∧ operandAddr s m 2 Hidden.writable = .ok la ∧
      physRange e s (userAccess s .write) la 2 = some ps ∧
      str e dst s = .ok { s with mem := s.mem.setList ps (Half.bytes s.tr.sel), eip := s.nextEip }) ∨
    (∃ x c u, str e dst s = .error (.raised x c u) ∧ Early s u) ∨
    (∃ r, str e dst s = .error (.refused r)) := by
  cases dst with
  | reg16 r => exact .inl ⟨_, _, rfl⟩
  | reg32 r => exact .inl ⟨_, _, rfl⟩
  | mem m =>
    cases hw : writeOperand e s m (Half.bytes s.tr.sel) with
    | ok t =>
      obtain ⟨la, ps, h1, h2, rfl⟩ := writeOperand_ok hw
      refine .inr (.inl ⟨m, la, ps, rfl, h1, h2, ?_⟩)
      simp only [str, hw]
      rfl
    | error x =>
      have hl : str e (.mem m) s = .error x := by simp [str, hw]
      cases x with
      | refused r => exact .inr (.inr (.inr ⟨r, hl⟩))
      | raised x c u => exact .inr (.inr (.inl ⟨x, c, u, hl, .inr (writeOperand_error hw).1⟩))

end Sys2Proof.Machine
end

