-- ==== Sys2Proof/Laws/Saved.lean ====
section
/-! SUPPORT. What a task switch saves and loads, field by field, for TSSs and descriptors that do not
overlap. -/

namespace Sys2Proof.Machine

/-- Part of a run of addresses lies in the whole run. -/
theorem contig_sub {p q : Word} {off n size : Nat} (h : off + n ≤ size)
    (hq : q ∈ contig (p + BitVec.ofNat 32 off) n) : q ∈ contig p size := by
  obtain ⟨k, hk, rfl⟩ := mem_contig.mp hq
  refine mem_contig.mpr ⟨off + k, by omega, ?_⟩
  rw [BitVec.add_assoc]; congr 1; apply BitVec.eq_of_toNat_eq; simp

/-- Two parts of one run that do not overlap share no address. -/
theorem contig_apart {p q : Word} {off n off' n' size : Nat} (hs : size ≤ 2 ^ 32) (h : off + n ≤ size) (h' : off' + n' ≤ size)
    (hd : off + n ≤ off' ∨ off' + n' ≤ off)
    (hq : q ∈ contig (p + BitVec.ofNat 32 off) n) : q ∉ contig (p + BitVec.ofNat 32 off') n' := by
  intro hq'
  obtain ⟨k, hk, rfl⟩ := mem_contig.mp hq
  obtain ⟨j, hj, he⟩ := mem_contig.mp hq'
  have := congrArg BitVec.toNat he
  simp only [BitVec.toNat_add, BitVec.toNat_ofNat] at this
  have := p.isLt
  omega

/-- `SwitchApart`, one fact at a time. -/
structure Apart (p : Plan) (nd : Desc) (s : State) (marked : List Word) : Prop where
  oa_na : p.oldAccess ≠ p.newAccess
  oa_old : p.oldAccess ∉ contig p.oldTss (tssSize s.tr.is32)
  oa_new : p.oldAccess ∉ contig p.newTss (tssSize nd.is32)
  na_old : p.newAccess ∉ contig p.oldTss (tssSize s.tr.is32)
  na_new : p.newAccess ∉ contig p.newTss (tssSize nd.is32)
  disj : ∀ q, q ∈ contig p.oldTss (tssSize s.tr.is32) → q ∉ contig p.newTss (tssSize nd.is32)
  m_oa : ∀ q ∈ marked, q ≠ p.oldAccess
  m_na : ∀ q ∈ marked, q ≠ p.newAccess
  m_old : ∀ q ∈ marked, q ∉ contig p.oldTss (tssSize s.tr.is32)
  m_new : ∀ q ∈ marked, q ∉ contig p.newTss (tssSize nd.is32)

theorem apart_of_switchApart {p nd s marked} (h : SwitchApart p nd s marked) : Apart p nd s marked := by
  obtain ⟨h, hm⟩ := h
  simp only [List.nodup_cons, List.nodup_append, List.mem_cons, List.mem_append, not_or] at h hm
  obtain ⟨⟨a, b, c⟩, ⟨d, f⟩, g, k, l⟩ := h
  exact ⟨a, b, c, d, f, fun q hq hq' => l q hq q hq' rfl, fun q hq => (hm q hq).1, fun q hq => (hm q hq).2.1, fun q hq => (hm q hq).2.2.1, fun q hq => (hm q hq).2.2.2⟩

variable {e : Config.Env} {kind : SwitchKind} {newSel : Half} {nd : Desc} {p : Plan} {ret : Word} {s t : State}

theorem getList_congr {m m' : Memory} {ps : List Word} (h : ∀ q ∈ ps, m.get q.toNat = m'.get q.toNat) : m.getList ps = m'.getList ps :=
  List.map_congr_left h

/-- A byte that is none of the marked is after a switch what it was at the commit point. -/
theorem inNewTask_get {M a} (h : InNewTask e kind newSel nd p ret s M t) (ha : ∀ q ∈ M, q ≠ a) : t.mem.get a.toNat = (commit e p kind newSel nd ret s).mem.get a.toNat := by
  rcases h.marked a.toNat with h | ⟨⟨q, hq, hqa⟩, -⟩
  · exact h
  · exact absurd (BitVec.eq_of_toNat_eq hqa).symm (ha q hq)

theorem linkLength_le (b : Bool) : linkLength b ≤ tssSize b := by cases b <;> decide
theorem save_le_tssSize (b : Bool) : saveOffset b + saveLength b ≤ tssSize b := by cases b <;> decide
theorem tssSize_small (b : Bool) : tssSize b ≤ 2^32 := by cases b <;> decide

theorem link_mem_tss {q} (h : q ∈ contig p.newTss (linkLength nd.is32)) : q ∈ contig p.newTss (tssSize nd.is32) := by
  have : contig p.newTss (linkLength nd.is32) = contig (p.newTss + BitVec.ofNat 32 0) (linkLength nd.is32) := by simp
  rw [this] at h
  exact contig_sub (by have := linkLength_le nd.is32; omega) h

/-- A byte of the old TSS is at the commit point what step 8 left. -/
theorem commit_old {M q} (h : Apart p nd s M) (hq : q ∈ contig p.oldTss (tssSize s.tr.is32)) :
    (commit e p kind newSel nd ret s).mem.get q.toNat = (memAfter8 e p kind ret s s.mem).get q.toNat := by
  show (memAfter10 p kind (memAfter9 e p kind nd s (memAfter8 e p kind ret s (memAfter6 p kind s.mem)))).get _ = _
  have h10 : ∀ m : Memory, (memAfter10 p kind m).get q.toNat = m.get q.toNat := by
    intro m; unfold memAfter10; split
    · rfl
    · rw [lockedRmw_get, if_neg]; intro hh; exact h.na_old (BitVec.eq_of_toNat_eq hh ▸ hq)
  have h9 : ∀ m : Memory, (memAfter9 e p kind nd s m).get q.toNat = m.get q.toNat := by
    intro m; unfold memAfter9; split
    · exact Memory.get_setList_of_notMem _ _ fun r hr hh => h.disj q hq (link_mem_tss (BitVec.eq_of_toNat_eq hh ▸ hr))
    · rfl
  rw [h10, h9]
  by_cases hin : q ∈ contig (p.oldTss + BitVec.ofNat 32 (saveOffset s.tr.is32)) (saveLength s.tr.is32)
  · unfold memAfter8
    have hl : (saveBytes e s ret (savedFlags kind s.eflags)).length = (contig (p.oldTss + BitVec.ofNat 32 (saveOffset s.tr.is32)) (saveLength s.tr.is32)).length := by
      rw [contig_length]; unfold saveBytes; cases s.tr.is32 <;> rfl
    have hnd := contig_nodup (p.oldTss + BitVec.ofNat 32 (saveOffset s.tr.is32)) (n := saveLength s.tr.is32) (by have := save_le_tssSize s.tr.is32; have := tssSize_small s.tr.is32; omega)
    have h1 := getList_setList_same _ (memAfter6 p kind s.mem) hnd hl
    have h2 := getList_setList_same _ s.mem hnd hl
    have := h1.trans h2.symm
    exact List.map_inj_left.mp this q hin
  · have hno : ∀ r ∈ contig (p.oldTss + BitVec.ofNat 32 (saveOffset s.tr.is32)) (saveLength s.tr.is32), q.toNat ≠ r.toNat :=
      fun r hr hh => hin (BitVec.eq_of_toNat_eq hh ▸ hr)
    unfold memAfter8
    rw [Memory.get_setList_of_notMem _ _ hno, Memory.get_setList_of_notMem _ _ hno]
    unfold memAfter6; split
    · rw [lockedRmw_get, if_neg]; intro hh; exact h.oa_old (BitVec.eq_of_toNat_eq hh ▸ hq)
    · rfl

/-- A byte of the new TSS outside the link is at the commit point what it was on entry. -/
theorem commit_new {M q} (h : Apart p nd s M) (hq : q ∈ contig p.newTss (tssSize nd.is32)) (hk : kind.nesting = true → q ∉ contig p.newTss (linkLength nd.is32)) :
    (commit e p kind newSel nd ret s).mem.get q.toNat = s.mem.get q.toNat := by
  apply commit_mem_get
  intro r hr hh
  have := BitVec.eq_of_toNat_eq hh; subst this
  simp only [storedPlaces, List.mem_append] at hr
  rcases hr with hr | hr | hr | hr
  · split at hr
    · simp at hr; subst hr; exact h.oa_new hq
    · cases hr
  · exact h.disj q (contig_sub (save_le_tssSize _) hr) hq
  · split at hr
    · next hn => exact hk hn hr
    · cases hr
  · split at hr
    · cases hr
    · simp at hr; subst hr; exact h.na_new hq

/-- A field that step 8 saves reads back from the old TSS as the bytes saved. -/
theorem old_field {M off n} (h : InNewTask e kind newSel nd p ret s M t) (ha : Apart p nd s M) (hs : saveOffset s.tr.is32 ≤ off) (hn : off + n ≤ saveOffset s.tr.is32 + saveLength s.tr.is32) :
    tssBytes t.mem p.oldTss off n = ((saveBytes e s ret (savedFlags kind s.eflags)).drop (off - saveOffset s.tr.is32)).take n := by
  have hl := save_le_tssSize s.tr.is32
  have h1 : tssBytes t.mem p.oldTss off n = tssBytes (memAfter8 e p kind ret s s.mem) p.oldTss off n := by
    apply getList_congr
    intro q hq
    have hq := contig_sub (size := tssSize s.tr.is32) (by omega) hq
    rw [inNewTask_get h fun r hr he => ha.m_old r hr (he ▸ hq), commit_old ha hq]
  rw [h1]
  have hlen : (saveBytes e s ret (savedFlags kind s.eflags)).length = (contig (p.oldTss + BitVec.ofNat 32 (saveOffset s.tr.is32)) (saveLength s.tr.is32)).length := by
      rw [contig_length]; unfold saveBytes; cases s.tr.is32 <;> rfl
  have hnd := contig_nodup (p.oldTss + BitVec.ofNat 32 (saveOffset s.tr.is32)) (n := saveLength s.tr.is32) (by have := tssSize_small s.tr.is32; omega)
  have h2 := getList_setList_same _ s.mem hnd hlen
  have h3 : contig (p.oldTss + BitVec.ofNat 32 off) n = ((contig (p.oldTss + BitVec.ofNat 32 (saveOffset s.tr.is32)) (saveLength s.tr.is32)).drop (off - saveOffset s.tr.is32)).take n := by
    have : saveLength s.tr.is32 = (off - saveOffset s.tr.is32) + (n + (saveLength s.tr.is32 - (off - saveOffset s.tr.is32) - n)) := by omega
    rw [this, contig_append, List.drop_left' (contig_length _ _), contig_append, List.take_left' (contig_length _ _), BitVec.add_assoc]
    congr 2
    apply BitVec.eq_of_toNat_eq; simp; omega
  unfold tssBytes Memory.getList
  rw [h3, List.map_take, List.map_drop]
  congr 2

/-- A field of the old TSS that step 8 does not save is as it was on entry. -/
theorem old_static {M off n} (h : InNewTask e kind newSel nd p ret s M t) (ha : Apart p nd s M) (hn : off + n ≤ tssSize s.tr.is32)
    (hd : off + n ≤ saveOffset s.tr.is32 ∨ saveOffset s.tr.is32 + saveLength s.tr.is32 ≤ off) :
    tssBytes t.mem p.oldTss off n = tssBytes s.mem p.oldTss off n := by
  apply getList_congr
  intro q hq
  have hq' := contig_sub (size := tssSize s.tr.is32) (by omega) hq
  rw [inNewTask_get h fun r hr he => ha.m_old r hr (he ▸ hq'), commit_old ha hq']
  exact Memory.get_setList_of_notMem _ _ fun r hr hh =>
    contig_apart (tssSize_small s.tr.is32) hn (save_le_tssSize _) hd hq (BitVec.eq_of_toNat_eq hh ▸ hr)

/-- A field of the new TSS past the link is at the commit point what it was on entry. -/
theorem new_field {M off n} (ha : Apart p nd s M) (hl : kind.nesting = true → linkLength nd.is32 ≤ off) (hn : off + n ≤ tssSize nd.is32) :
    tssBytes (commit e p kind newSel nd ret s).mem p.newTss off n = tssBytes s.mem p.newTss off n := by
  apply getList_congr
  intro q hq
  refine commit_new ha (contig_sub hn hq) fun hk hq' => ?_
  have : contig p.newTss (linkLength nd.is32) = contig (p.newTss + BitVec.ofNat 32 0) (linkLength nd.is32) := by simp
  rw [this] at hq'
  exact contig_apart (tssSize_small nd.is32) hn (by have := linkLength_le nd.is32; omega) (.inr (by have := hl hk; omega)) hq hq'

/-- Step 13 loads what a 32-bit TSS held on entry. -/
theorem new_image32 {M} (ha : Apart p nd s M) (h32 : nd.is32 = true) : image32 (commit e p kind newSel nd ret s).mem p.newTss = image32 s.mem p.newTss := by
  have h (off n) (h1 : 4 ≤ off) (h2 : off + n ≤ 104) := new_field (e := e) (newSel := newSel) (ret := ret) (off := off) (n := n) (kind := kind) ha (by rw [h32]; exact fun _ => h1) (by rw [h32]; exact h2)
  simp only [image32, tssWord, tssHalf, tssTrap, TssField.at32]
  simp only [h 28 4 (by decide) (by decide), h 32 4 (by decide) (by decide), h 36 4 (by decide) (by decide), h 40 4 (by decide) (by decide), h 44 4 (by decide) (by decide), h 48 4 (by decide) (by decide), h 52 4 (by decide) (by decide), h 56 4 (by decide) (by decide), h 60 4 (by decide) (by decide), h 64 4 (by decide) (by decide), h 68 4 (by decide) (by decide),
   h 72 2 (by decide) (by decide), h 76 2 (by decide) (by decide), h 80 2 (by decide) (by decide), h 84 2 (by decide) (by decide), h 88 2 (by decide) (by decide), h 92 2 (by decide) (by decide), h 96 2 (by decide) (by decide), h 100 1 (by decide) (by decide)]

/-- Step 13 loads what a 16-bit TSS held on entry. -/
theorem new_image16 {M} (ha : Apart p nd s M) (h32 : nd.is32 = false) (n : Nat) : image16 e n (commit e p kind newSel nd ret s).mem p.newTss = image16 e n s.mem p.newTss := by
  have h (off) (h1 : 2 ≤ off) (h2 : off + 2 ≤ 44) := new_field (e := e) (newSel := newSel) (ret := ret) (off := off) (n := 2) (kind := kind) ha (by rw [h32]; exact fun _ => h1) (by rw [h32]; exact h2)
  simp only [image16, tss16Half, TssField.at16, Option.getD]
  simp only [h 14 (by decide) (by decide), h 16 (by decide) (by decide), h 18 (by decide) (by decide), h 20 (by decide) (by decide), h 22 (by decide) (by decide), h 24 (by decide) (by decide), h 26 (by decide) (by decide), h 28 (by decide) (by decide), h 30 (by decide) (by decide), h 32 (by decide) (by decide), h 34 (by decide) (by decide), h 36 (by decide) (by decide), h 38 (by decide) (by decide), h 40 (by decide) (by decide), h 42 (by decide) (by decide)]

/-- The state a switch that goes through answers with. -/
theorem arrived_of_goes (hg : SwitchGoes e kind newSel nd p ret s) (ht : taskSwitch e kind newSel ret s = .ok t) : Arrived e kind newSel nd p ret s t := by
  obtain ⟨u, hu, ha⟩ := taskSwitch_goes hg
  rw [hu] at ht; cases ht; exact ha

/-- The busy flag of a descriptor is bit 1 of its access byte. -/
theorem busy_byte {m : Memory} {ps : List Word} {d : Desc} (hl : ps.length = 8) (hd : ofLe 64 (m.getList ps) = d) :
    d.busyBit = (m.get (ps.getD 5 0#32).toNat).getLsbD 1 := by
  obtain ⟨a0, ps, rfl⟩ := List.exists_cons_of_length_eq_add_one hl
  rw [List.length_cons, Nat.add_right_cancel_iff] at hl
  obtain ⟨a1, ps, rfl⟩ := List.exists_cons_of_length_eq_add_one hl
  rw [List.length_cons, Nat.add_right_cancel_iff] at hl
  obtain ⟨a2, ps, rfl⟩ := List.exists_cons_of_length_eq_add_one hl
  rw [List.length_cons, Nat.add_right_cancel_iff] at hl
  obtain ⟨a3, ps, rfl⟩ := List.exists_cons_of_length_eq_add_one hl
  rw [List.length_cons, Nat.add_right_cancel_iff] at hl
  obtain ⟨a4, ps, rfl⟩ := List.exists_cons_of_length_eq_add_one hl
  rw [List.length_cons, Nat.add_right_cancel_iff] at hl
  obtain ⟨a5, ps, rfl⟩ := List.exists_cons_of_length_eq_add_one hl
  rw [List.length_cons, Nat.add_right_cancel_iff] at hl
  obtain ⟨a6, ps, rfl⟩ := List.exists_cons_of_length_eq_add_one hl
  rw [List.length_cons, Nat.add_right_cancel_iff] at hl
  obtain ⟨a7, ps, rfl⟩ := List.exists_cons_of_length_eq_add_one hl
  rw [List.length_cons, Nat.add_right_cancel_iff] at hl
  cases List.eq_nil_of_length_eq_zero hl
  subst hd
  have hb (d : Desc) : d.busyBit = d.getLsbD 41 := by
    unfold Desc.busyBit Desc.type
    rw [BitVec.getLsbD_extractLsb']
    simp
  rw [hb]
  exact ofLe_eight_bit (m.get a0.toNat) (m.get a1.toNat) (m.get a2.toNat) (m.get a3.toNat)
    (m.get a4.toNat) (m.get a5.toNat) (m.get a6.toNat) (m.get a7.toNat) 41

/-- The access byte that step 5 finds for the new task is the one its descriptor was read with. -/
theorem plan_newAccess {p : Plan} (hp : plan e kind newSel nd s = .ok p) (hd : descAt e s (gdtAddr s newSel) = some nd) :
    nd.busyBit = (s.mem.get p.newAccess.toNat).getLsbD 1 := by
  unfold plan at hp
  split at hp
  · next o n od nw h1 h2 h3 h4 =>
    split at hp
    · split at hp
      · cases hp
        simp only [descAt, readBytes, h4, Option.map_some, Option.some.injEq] at hd
        exact busy_byte (physRange_length h4) hd
      · cases hp
    · cases hp
  · cases hp

end Sys2Proof.Machine
end

