-- ==== Sys2Proof/Laws/Step.lean ====
section
/-! SUPPORT. The step: what every next state comes from, said once as a rule that carries a property of
states through a step. -/

namespace Sys2Proof.Machine

/-- A property `P` of states between steps, with a weaker one `Q` for the states exceptions are raised in,
that everything a step is made of keeps. -/
structure Kept (e : Config.Env) (P Q : State → Prop) : Prop where
  weaken : ∀ s, P s → Q s
  draws : ∀ s n, P s → P (s.setDraws n)
  trap : ∀ s b, P s → P (s.setTrap b)
  event : ∀ s v, P s → P (s.setEvent v)
  nextEip : ∀ s v, P s → P (s.setNextEip v)
  ltr : ∀ s src sel d q, P s → LtrAdmits e s src sel d q → P (afterLtr s sel d q)
  strReg : ∀ s g n, P s → P { s with gpr := g, eip := s.nextEip, draws := n }
  strMem : ∀ s ps bs, P s → P { s with mem := s.mem.setList ps bs, eip := s.nextEip }
  push : ∀ s ps bs v n, P s →
    P { s with mem := s.mem.setList ps bs, gpr := s.gpr.set .esp v, draws := n }
  arrive : ∀ s t kind newSel nd p retEip, Q s → SwitchGoes e kind newSel nd p retEip s →
    Arrived e kind newSel nd p retEip s t → taskSwitch e kind newSel retEip s = .ok t → P t
  raised : ∀ s u kind newSel retEip x c, Q s →
    taskSwitch e kind newSel retEip s = .error (.raised x c u) → Q u

namespace Kept

variable {e : Config.Env} {P Q : State → Prop}

theorem early (k : Kept e P Q) {s u : State} (h : P s) (hu : Early s u) : Q u := by
  rcases hu with rfl | rfl
  · exact k.weaken _ h
  · exact k.weaken _ (k.draws _ _ h)

theorem switch (k : Kept e P Q) {s t : State} {kind : SwitchKind} {newSel : Half} {retEip : Word}
    (h : Q s) (ht : taskSwitch e kind newSel retEip s = .ok t) : P t := by
  obtain ⟨nd, p, hg, ha⟩ := taskSwitch_ok ht
  exact k.arrive s t kind newSel nd p retEip h hg ha ht

theorem handler (k : Kept e P Q) {s t : State} {kind : SwitchKind} {n : Byte} {code : Option Half}
    {retEip : Word} (h : Q s) (ht : enterHandler e kind n code retEip s = .next t) : P t := by
  obtain ⟨newSel, m, -, hm, hw⟩ := enterHandler_next ht
  have hp := k.switch h hm
  rcases withErrorCode_ok hw with rfl | ⟨ps, bs, v, rfl⟩
  · exact hp
  · exact k.push _ _ _ _ _ hp

theorem exception (k : Kept e P Q) {s t : State} {x : Exc} {code : Option Half} (h : Q s)
    (ht : takeException e x code s = .next t) : P t := k.handler h (takeException_next ht).2

/-- What a meaning's body can be: a completed instruction of its own, a task switch, an exception before
any effect, or a refusal. -/
inductive Body (e : Config.Env) (P : State → Prop) (s : State) (r : Except Stop State) : Prop where
  | done (t : State) (h : r = .ok t) (hp : P t)
  | switch (kind : SwitchKind) (newSel : Half) (retEip : Word)
      (h : r = taskSwitch e kind newSel retEip s)
  | raised (x : Exc) (c : Option Half) (u : State) (h : r = .error (.raised x c u)) (hu : Early s u)
  | refused (x : Refusal) (h : r = .error (.refused x))

theorem body (k : Kept e P Q) {s t : State} {r : Except Stop State} (h : P s) (hb : Body e P s r)
    (ht : settle e r = .next t) : P t := by
  rcases settle_next ht with hr | ⟨x, c, u, hr, hx⟩
  · cases hb with
    | done v hv hp => rw [hv] at hr; cases hr; exact hp
    | switch kind newSel retEip hs => rw [hs] at hr; exact k.switch (k.weaken _ h) hr
    | raised x c u hv => rw [hv] at hr; cases hr
    | refused x hv => rw [hv] at hr; cases hr
  · cases hb with
    | done v hv hp => rw [hv] at hr; cases hr
    | switch kind newSel retEip hs =>
      rw [hs] at hr; exact k.exception (k.raised _ _ _ _ _ _ _ (k.weaken _ h) hr) hx
    | raised y d v hv hu => rw [hv] at hr; cases hr; exact k.exception (k.early h hu) hx
    | refused x hv => rw [hv] at hr; cases hr

theorem far (s : State) (kind : SwitchKind) (sel : Half) : Body e P s (farTransfer e kind sel s) := by
  rcases farTransfer_cases e kind sel s with ⟨n, -, h⟩ | ⟨x, c, u, h, hu⟩ | ⟨r, h⟩
  · exact .switch _ _ _ h
  · exact .raised x c u h hu
  · exact .refused r h

theorem farMem (s : State) (kind : SwitchKind) (size : OpSize) (m : MemRef) :
    Body e P s (farThroughMemory e kind size m s) := by
  unfold farThroughMemory
  split
  · next x hx =>
    cases x with
    | refused r => exact .refused r rfl
    | raised x c u => exact .raised x c u rfl (farPointer_error hx)
  · exact far s kind _

theorem guarded {s : State} {r : Except Stop State} (h : Body e P s r) :
    Body e P s (requireProtectedMode s r) := by
  unfold requireProtectedMode
  split
  · exact h
  · exact .refused _ rfl

theorem guardedUd {s : State} {r : Except Stop State} (h : Body e P s r) :
    Body e P s (inProtectedMode s r) := by
  unfold inProtectedMode
  split
  · exact h
  · exact .raised _ _ _ rfl (.inl rfl)

theorem strBody (k : Kept e P Q) {s : State} (h : P s) (dst : StrDest) : Body e P s (str e dst s) := by
  rcases str_cases e dst s with ⟨g, n, hs⟩ | ⟨m, la, ps, -, -, -, hs⟩ | ⟨x, c, u, hs, hu⟩ | ⟨r, hs⟩
  · exact .done _ hs (k.strReg s g n h)
  · exact .done _ hs (k.strMem s ps _ h)
  · exact .raised x c u hs hu
  · exact .refused r hs

theorem ltrBody (k : Kept e P Q) {s : State} (h : P s) (src : LtrSrc) : Body e P s (Machine.ltr e src s) := by
  rcases ltr_cases e src s with ⟨sel, d, q, ha, hs⟩ | ⟨x, c, u, hs, hu⟩ | ⟨r, hs⟩
  · exact .done _ hs (k.ltr s src sel d q h ha)
  · exact .raised x c u hs hu
  · exact .refused r hs

end Kept

/-- A kept property goes through every instruction. -/
theorem Kept.exec {P Q : State → Prop} (k : Kept Config.env P Q) {i : Instr} {s t : State} (h : P s)
    (ht : Machine.exec i s = .next t) : P t := by
  cases i with
  | strRm16 dst => exact k.body h (guardedUd (k.strBody h dst)) ht
  | ltrRm16 src => exact k.body h (guardedUd (k.ltrBody h src)) ht
  | callPtr32 sel off => exact k.body h (guarded (far s _ _)) ht
  | callPtr16 sel off => exact k.body h (guarded (far s _ _)) ht
  | callMem size m => exact k.body h (guarded (farMem s _ _ _)) ht
  | jmpPtr32 sel off => exact k.body h (guarded (far s _ _)) ht
  | jmpPtr16 sel off => exact k.body h (guarded (far s _ _)) ht
  | jmpMem size m => exact k.body h (guarded (farMem s _ _ _)) ht
  | iret size =>
    refine k.body h (guarded ?_) ht
    rcases returnFromTask_cases Config.env s with ⟨n, -, hs⟩ | ⟨x, c, u, hs, hu⟩ | ⟨r, hs⟩
    · exact .switch _ _ _ hs
    · exact .raised x c u hs hu
    · exact .refused r hs
  | intImm8 n =>
    refine k.body h (guarded ?_) ht
    rcases softwareInterrupt_cases Config.env n s with ⟨m, -, hs⟩ | ⟨x, c, u, hs, hu⟩ | ⟨r, hs⟩
    · exact .switch _ _ _ hs
    · exact .raised x c u hs hu
    · exact .refused r hs

theorem inProtected_next {s t : State} {o : Result} (h : inProtected s o = .next t) : o = .next t := by
  unfold inProtected at h
  split at h
  · exact h
  · cases h

/-- What a fetch can answer: an instruction in the state with `next_eip` latched, an exception taken in the
state on entry, or a refusal. -/
theorem fetchDecoded_cases (e : Config.Env) (s : State) (h : Hidden) :
    (∃ i v, fetchDecoded e s h = .run i (s.setNextEip v)) ∨
    (∃ x c u, fetchDecoded e s h = .done (inProtected s (takeException e x c u)) ∧ Early s u) ∨
    (∃ r, fetchDecoded e s h = .done (.refused r)) := by
  unfold fetchDecoded
  simp only
  split
  · exact .inl ⟨_, _, rfl⟩
  · exact .inr (.inl ⟨_, _, _, rfl, .inl rfl⟩)
  · exact .inr (.inr ⟨_, rfl⟩)
  · exact .inr (.inr ⟨_, rfl⟩)
  · exact .inr (.inr ⟨_, rfl⟩)
  · unfold fetchRunsOut
    split
    · exact .inr (.inr ⟨_, rfl⟩)
    · split
      · exact .inr (.inl ⟨_, _, _, rfl, .inr rfl⟩)
      · exact .inr (.inr ⟨_, rfl⟩)

/-- A boundary with a usable code segment. -/
theorem boundary_usable {e : Config.Env} {s : State} {h : Hidden} (hs : s.cs.hidden = some h)
    (hc : h.isCode = true) : boundary e s = boundaryIn e s h := by
  simp [boundary, hs, hc]

/-- Without one the boundary refuses. -/
theorem boundary_unusable {e : Config.Env} {s : State} (h : ∀ k, s.cs.hidden = some k → k.isCode = false) :
    boundary e s = .done (.refused .codeSegmentUnusable) := by
  unfold boundary
  split
  · rfl
  · next k hk => simp [h k hk]

/-- Everything a boundary can do: an instruction run in the state with `next_eip` latched; an exception taken,
the pending trap cleared or not; an event delivered; or a refusal. -/
theorem boundary_cases (e : Config.Env) (s : State) :
    (∃ i v, boundary e s = .run i (s.setNextEip v)) ∨
    (∃ x c u, boundary e s = .done (inProtected s (takeException e x c u)) ∧
      (Early s u ∨ u = s.setTrap false)) ∨
    (∃ ev, s.event = some ev ∧ boundary e s = .done (inProtected s (deliverEvent e ev (s.setEvent none)))) ∨
    (∃ r, boundary e s = .done (.refused r)) := by
  by_cases hu : ∃ h, s.cs.hidden = some h ∧ h.isCode = true
  · obtain ⟨h, hs, hc⟩ := hu
    rw [boundary_usable hs hc]
    have hf : boundaryIn e s h = fetchDecoded e s h →
        (∃ i v, boundaryIn e s h = .run i (s.setNextEip v)) ∨
        (∃ x c u, boundaryIn e s h = .done (inProtected s (takeException e x c u)) ∧
          (Early s u ∨ u = s.setTrap false)) ∨
        (∃ ev, s.event = some ev ∧
          boundaryIn e s h = .done (inProtected s (deliverEvent e ev (s.setEvent none)))) ∨
        (∃ r, boundaryIn e s h = .done (.refused r)) := by
      intro hb
      rw [hb]
      rcases fetchDecoded_cases e s h with h | ⟨x, c, u, h, hu⟩ | h
      · exact .inl h
      · exact .inr (.inl ⟨x, c, u, h, .inl hu⟩)
      · exact .inr (.inr (.inr h))
    cases htr : s.pendingTaskTrap with
    | true => exact .inr (.inl ⟨.db, none, s.setTrap false, by simp [boundaryIn, htr], .inr rfl⟩)
    | false =>
      obtain hev | ⟨ev, hev⟩ := Option.eq_none_or_eq_some s.event
      · exact hf (by simp [boundaryIn, htr, hev])
      · cases ev with
        | intr n =>
          cases hif : flagIF s.eflags with
          | false => exact hf (by simp [boundaryIn, htr, hev, hif])
          | true => exact .inr (.inr (.inl ⟨_, hev, by simp [boundaryIn, htr, hev, hif]⟩))
        | exc n code retEip => exact .inr (.inr (.inl ⟨_, hev, by simp [boundaryIn, htr, hev]⟩))
  · refine .inr (.inr (.inr ⟨_, boundary_unusable fun k hk => ?_⟩))
    cases hc : k.isCode with
    | false => rfl
    | true => exact absurd ⟨k, hk, hc⟩ hu

/-- A kept property goes through every step. -/
theorem Kept.step {P Q : State → Prop} (k : Kept Config.env P Q) {s t : State} (h : P s)
    (ht : Machine.step s = .next t) : P t := by
  unfold Machine.step at ht
  rcases boundary_cases Config.env s with ⟨i, v, hb⟩ | ⟨x, c, u, hb, hu⟩ | ⟨ev, -, hb⟩ | ⟨r, hb⟩ <;> rw [hb] at ht
  · exact k.exec (k.nextEip _ _ h) ht
  · refine k.exception ?_ (inProtected_next ht)
    rcases hu with hu | rfl
    · exact k.early h hu
    · exact k.weaken _ (k.trap _ _ h)
  · have hq := k.weaken _ (k.event _ none h)
    cases ev with
    | intr n => exact k.handler hq (inProtected_next ht)
    | exc n code retEip => exact k.handler hq (inProtected_next ht)
  · cases ht

/-! ## Instructions in protected mode, and the fetch -/

/-- Every form of far transfer is one shared operation on its selector. -/
theorem far_eq {s : State} {i : Instr} {kind : SwitchKind} {sel : Half} (hp : s.protectedMode = true)
    (h : FarForm Config.env s i kind sel) :
    exec i s = settle Config.env (farTransfer Config.env kind sel s) := by
  cases i <;> simp only [FarForm] at h
  · obtain ⟨rfl, rfl⟩ := h
    simp [exec, execCallPtr32, requireProtectedMode, hp]
  · obtain ⟨rfl, rfl⟩ := h
    simp [exec, execCallPtr16, requireProtectedMode, hp]
  · obtain ⟨rfl, off, h⟩ := h
    simp [exec, execCallMem, requireProtectedMode, hp, farThroughMemory, h]
  · obtain ⟨rfl, rfl⟩ := h
    simp [exec, execJmpPtr32, requireProtectedMode, hp]
  · obtain ⟨rfl, rfl⟩ := h
    simp [exec, execJmpPtr16, requireProtectedMode, hp]
  · obtain ⟨rfl, off, h⟩ := h
    simp [exec, execJmpMem, requireProtectedMode, hp, farThroughMemory, h]

theorem iret_eq {s : State} {size : OpSize} (hp : s.protectedMode = true) :
    exec (.iret size) s = settle Config.env (returnFromTask Config.env s) := by
  simp [exec, execIret, requireProtectedMode, hp]

theorem int_eq {s : State} {n : Byte} (hp : s.protectedMode = true) :
    exec (.intImm8 n) s = settle Config.env (softwareInterrupt Config.env n s) := by
  simp [exec, execIntImm8, requireProtectedMode, hp]

theorem ltr_eq {s : State} {src : LtrSrc} (hp : s.protectedMode = true) :
    exec (.ltrRm16 src) s = settle Config.env (ltr Config.env src s) := by
  simp [exec, execLtrRm16, inProtectedMode, hp]

theorem str_eq {s : State} {dst : StrDest} (hp : s.protectedMode = true) :
    exec (.strRm16 dst) s = settle Config.env (str Config.env dst s) := by
  simp [exec, execStrRm16, inProtectedMode, hp]

/-- A boundary with nothing pending fetches. -/
theorem boundary_fetch {s : State} {h : Hidden} (hf : FetchesNext s h) :
    boundary Config.env s = fetchDecoded Config.env s h := by
  obtain ⟨h1, h2, h3, h4⟩ := hf
  rw [boundary_usable h3 h4]
  rcases h2 with h2 | ⟨n, h2, h5⟩ <;> simp [boundaryIn, *]

/-- A fetch is a read by the program: inside the limit of CS it gives the bytes that read gives, and ends where
that read page-faults. -/
theorem fetchBytes_read {e : Config.Env} {s : State} {h : Hidden} {n m : Nat} (hnm : n ≤ m) (k : Nat)
    (hl : s.eip.toNat + (k + n) ≤ h.limit.toNat + 1) :
    match readBytes e s (userAccess s .read) (h.base + s.eip + BitVec.ofNat 32 k) n with
    | some bs => (fetchBytes e s h k m).take n = bs
    | none => (fetchBytes e s h k m).length < n := by
  induction n generalizing k m with
  | zero => simp [readBytes, physRange, Memory.getList]
  | succ n ih =>
    obtain ⟨m, rfl⟩ : ∃ m', m = m' + 1 := ⟨m - 1, by omega⟩
    have hk : s.eip.toNat + k ≤ h.limit.toNat := by omega
    have ha : h.base + s.eip + BitVec.ofNat 32 k + 1#32 = h.base + s.eip + BitVec.ofNat 32 (k + 1) := by
      apply BitVec.eq_of_toNat_eq
      simp only [BitVec.toNat_add, BitVec.toNat_ofNat]; omega
    have ih := ih (m := m) (by omega) (k + 1) (by omega)
    rw [readBytes] at ih
    rw [readBytes, physRange, ha, fetchBytes, if_pos hk, fetchAccess]
    cases physical e s (userAccess s .read) (h.base + s.eip + BitVec.ofNat 32 k) with
    | none => simp
    | some p =>
      cases hq : physRange e s (userAccess s .read) (h.base + s.eip + BitVec.ofNat 32 (k + 1)) n <;>
        simp_all [Memory.getList]

/-- With paging off the fetch gives the bytes of memory, as far as the limit of CS reaches. -/
theorem fetchBytes_flat {e : Config.Env} {s : State} {h : Hidden} (hp : s.paging = false) (n k : Nat)
    (hl : s.eip.toNat + (k + n) ≤ h.limit.toNat + 1) :
    fetchBytes e s h k n = s.mem.getList (contig (h.base + s.eip + BitVec.ofNat 32 k) n) := by
  induction n generalizing k with
  | zero => rfl
  | succ n ih =>
    have : s.eip.toNat + k ≤ h.limit.toNat := by omega
    rw [fetchBytes, if_pos this, physical_flat hp]
    simp only
    rw [ih (k+1) (by omega)]
    simp only [contig, Memory.getList, List.map_cons]
    have : h.base + s.eip + BitVec.ofNat 32 (k+1) = h.base + s.eip + BitVec.ofNat 32 k + 1#32 := by
      apply BitVec.eq_of_toNat_eq
      simp only [BitVec.toNat_add, BitVec.toNat_ofNat]; omega
    rw [this]

end Sys2Proof.Machine
end

