-- ==== Sys2Proof/Tests/Slice0.lean ====
section
/-! SUPPORT. Tests: ill-formed terms refused, words written out from the encodings, the vectors of
95_test_vectors.md, and for every statement with hypotheses a state and operands that meet them. Expected
values come from 95_test_vectors.md, or by hand from the rule a comment names. -/

set_option Elab.async false

namespace Sys2Proof.Tests

open Machine

/-! ## Well-formed terms (30_encoding.md R114: index ESP has no encoding) -/

/-- `[EBX + r*4 + 8]`. -/
def indexed (r : Reg) : MemRef := { seg := .ds, base := some .ebx, index := some (r, 2#2), disp := 8#32 }

theorem test_espIndex_refused :
    Instr.wellFormed (.strRm16 (.mem (indexed .esp))) = false ∧
    Instr.wellFormed (.ltrRm16 (.mem (indexed .esp))) = false ∧
    Instr.wellFormed (.callMem .w32 (indexed .esp)) = false ∧
    Instr.wellFormed (.jmpMem .w16 (indexed .esp)) = false := by decide

theorem test_otherIndex_accepted :
    Instr.wellFormed (.strRm16 (.mem (indexed .edi))) = true ∧
    Instr.wellFormed (.jmpMem .w16 (indexed .ebp)) = true := by decide

/-! ## Words (95_test_vectors.md V16; the last ones by hand from R113 to R117) -/

/-- `[00005000H]`, default segment DS. -/
def at5000 : MemRef := { seg := .ds, base := none, index := none, disp := 0x5000#32 }

theorem test_word_ltr :
    decode true [0x0F#8, 0x00#8, 0xD8#8] = .instr (.ltrRm16 (.reg .eax)) 3 ∧
    decode true [0x0F#8, 0x00#8, 0x1D#8, 0x00#8, 0x50#8, 0x00#8, 0x00#8] =
      .instr (.ltrRm16 (.mem at5000)) 7 := by decide

theorem test_word_str :
    decode true [0x0F#8, 0x00#8, 0xCB#8] = .instr (.strRm16 (.reg32 .ebx)) 3 ∧
    decode true [0x66#8, 0x0F#8, 0x00#8, 0xCB#8] = .instr (.strRm16 (.reg16 .ebx)) 4 ∧
    decode true [0x0F#8, 0x00#8, 0x0D#8, 0x00#8, 0x50#8, 0x00#8, 0x00#8] =
      .instr (.strRm16 (.mem at5000)) 7 ∧
    decode true [0x0F#8, 0x00#8, 0x4D#8, 0x08#8] =
      .instr (.strRm16 (.mem { seg := .ss, base := some .ebp, index := none, disp := 8#32 })) 4 := by
  decide

theorem test_word_jmpPtr :
    decode true [0xEA#8, 0x00#8, 0x00#8, 0x00#8, 0x00#8, 0x20#8, 0x00#8] =
      .instr (.jmpPtr32 0x0020#16 0#32) 7 ∧
    decode true [0x66#8, 0xEA#8, 0x00#8, 0x00#8, 0x20#8, 0x00#8] =
      .instr (.jmpPtr16 0x0020#16 0#16) 6 := by decide

theorem test_word_callPtr :
    decode true [0x9A#8, 0x78#8, 0x56#8, 0x34#8, 0x12#8, 0x28#8, 0x00#8] =
      .instr (.callPtr32 0x0028#16 0x12345678#32) 7 ∧
    decode false [0x9A#8, 0x78#8, 0x56#8, 0x28#8, 0x00#8] =
      .instr (.callPtr16 0x0028#16 0x5678#16) 5 := by decide

theorem test_word_farMem :
    decode true [0xFF#8, 0x2D#8, 0x00#8, 0x50#8, 0x00#8, 0x00#8] = .instr (.jmpMem .w32 at5000) 6 ∧
    decode true [0xFF#8, 0x1D#8, 0x00#8, 0x50#8, 0x00#8, 0x00#8] = .instr (.callMem .w32 at5000) 6 ∧
    decode true [0x66#8, 0xFF#8, 0x1D#8, 0x00#8, 0x50#8, 0x00#8, 0x00#8] =
      .instr (.callMem .w16 at5000) 7 := by decide

theorem test_word_iret_int :
    decode true [0xCF#8] = .instr (.iret .w32) 1 ∧ decode true [0x66#8, 0xCF#8] = .instr (.iret .w16) 2 ∧
    decode true [0xCD#8, 0x40#8] = .instr (.intImm8 0x40#8) 2 := by decide

/-- V16: a register operand of a far transfer, a LOCK prefix; R118: another instruction's opcode. -/
theorem test_word_notInstructions :
    decode true [0xFF#8, 0xEB#8] = .undefined ∧ decode true [0xF0#8, 0x0F#8, 0x00#8, 0xD8#8] = .undefined ∧
    decode true [0x0F#8, 0x00#8, 0xC0#8] = .outside ∧ decode true [0x90#8] = .outside ∧
    decode true [0x9A#8, 0x78#8] = .short := by decide

/-- R113, R114: an FS override, a SIB byte with scale 4, a displacement of one byte. -/
theorem test_word_sib :
    decode true [0x64#8, 0xFF#8, 0x6C#8, 0xBB#8, 0xF0#8] =
      .instr (.jmpMem .w32 { seg := .fs, base := some .ebx, index := some (.edi, 2#2), disp := 0xFFFFFFF0#32 }) 5 := by
  decide

theorem test_encode :
    encode true (.ltrRm16 (.reg .eax)) = [0x0F#8, 0x00#8, 0xD8#8] ∧
    encode true (.callPtr32 0x0028#16 0x12345678#32) =
      [0x9A#8, 0x78#8, 0x56#8, 0x34#8, 0x12#8, 0x28#8, 0x00#8] ∧
    encode true (.strRm16 (.mem { seg := .ss, base := some .ebp, index := none, disp := 8#32 })) =
      [0x0F#8, 0x00#8, 0x4D#8, 0x08#8] := by decide

/-- A table word: bit 0 is the least significant bit of the first byte. -/
theorem test_tableWord :
    decodeTableWord 24 0xD8000F = some (.ltrRm16 (.reg .eax)) ∧
    decodeTableWord 8 0xEA = some (.jmpPtr32 0#16 0#32) ∧
    decodeTableWord 16 0x40CD = some (.intImm8 0x40#8) := by decide

/-! ## The image of 95_test_vectors.md section 2 -/

/-- Free values and a translation to run the shared operations on. -/
def e0 : Config.Env :=
  { draw16 := fun n => BitVec.ofNat 16 (0xA0B1 + n), draw1 := fun _ => true,
    translate := fun _ _ la _ => some la }

/-- A memory with bytes put at an address. -/
def place (m : Memory) (a : Nat) (bs : List Nat) : Memory :=
  m.setList (contig (BitVec.ofNat 32 a) bs.length) (bs.map (BitVec.ofNat 8))

/-- A state with bytes put in memory. -/
def put (s : State) (a : Nat) (bs : List Nat) : State := { s with mem := place s.mem a bs }

/-- TSS B's fields from EIP on (section 2). -/
def tssB : List Nat :=
  [0, 0, 2, 0, 2, 0, 0, 0, 0x11, 0x11, 0x11, 0x11, 0x22, 0x22, 0x22, 0x22, 0x33, 0x33, 0x33, 0x33] ++
  [0x44, 0x44, 0x44, 0x44, 0, 0x90, 0, 0, 0, 0, 0, 0, 0x55, 0x55, 0x55, 0x55, 0x66, 0x66, 0x66, 0x66] ++
  [0x10, 0, 0, 0, 8, 0, 0, 0, 0x10, 0, 0, 0, 0x10, 0, 0, 0, 0x10, 0, 0, 0, 0x10, 0, 0, 0]

/-- TSS C's fields from IP on (section 2). -/
def tssC : List Nat :=
  [0, 0x40, 2, 0, 1, 0xC0, 2, 0xC0, 3, 0xC0, 4, 0xC0, 0, 0x70, 0, 0, 6, 0xC0, 7, 0xC0] ++
  [0x10, 0, 8, 0, 0x10, 0, 0x10, 0]

/-- The cells of bytes at an address, in the canonical form. -/
def cells (a : Nat) : List Nat → Memory
  | [] => []
  | 0 :: bs => cells (a + 1) bs
  | b :: bs => (a, BitVec.ofNat 8 b) :: cells (a + 1) bs

/-- The image, with the access byte of TSS A's descriptor. -/
def imageA (a : Nat) : Memory :=
  cells 0x1008 [0xFF, 0xFF, 0, 0, 0, 0x9A, 0xCF, 0] ++ (cells 0x1010 [0xFF, 0xFF, 0, 0, 0, 0x92, 0xCF, 0] ++
  (cells 0x1018 [0x67, 0, 0, 0x20, 0, a, 0, 0] ++ (cells 0x1020 [0x67, 0, 0, 0x21, 0, 0x89, 0, 0] ++
  (cells 0x1028 [0, 0, 0x20, 0, 0, 0x85, 0, 0] ++ (cells 0x1030 [0x2C, 0, 0, 0x22, 0, 0x81, 0, 0] ++
  (cells 0x1038 [0x67, 0, 0, 0x23, 0, 0x09, 0, 0] ++ (cells 0x1A00 [0, 0, 0x20, 0, 0, 0xE5, 0, 0] ++
  (cells 0x2120 tssB ++ (cells 0x2166 [0x68] ++ cells 0x220E tssC)))))))))

/-- State S0. -/
def S0 : State := { State.reset with
  gpr := { eax := 0x18#32, ecx := 0xA1#32, edx := 0xA2#32, ebx := 0xA3#32, esp := 0x8000#32,
           ebp := 0xA5#32, esi := 0xA6#32, edi := 0xA7#32 }
  gdtr := { base := 0x1000#32, limit := 0x3F#16 }
  idtr := { base := 0x1800#32, limit := 0x20F#16 }
  mem := imageA 0x89 }

/-- State S1: S0 after `LTR AX`, with `next_eip` behind a far transfer of seven bytes at 00010003H. -/
def S1 : State := { S0 with
  eip := 0x10003#32, nextEip := 0x1000A#32, mem := imageA 0x8B
  tr := { sel := 0x18#16, base := 0x2000#32, limit := 0x67#32, attr := 0x8B#16, loaded := true } }

/-- A state with `next_eip`. -/
def nextAt (s : State) (n : Nat) : State := { s with nextEip := BitVec.ofNat 32 n }

/-- A state at another privilege level: CS.selector = 000BH. -/
def cpl3 (s : State) : State := { s with cs := { sel := 0x000B#16, hidden := s.cs.hidden } }

def okAnd (r : Except Stop State) (p : State → Bool) : Bool :=
  match r with
  | .ok s => p s
  | .error _ => false

/-- An exception raised with a name, a code and a state that meets a test. -/
def raisedAnd (r : Except Stop State) (x : Exc) (c : Option Half) (p : State → Bool) : Bool :=
  match r with
  | .error (.raised y d s) => x == y && c == d && p s
  | _ => false

def refusedAs (r : Except Stop State) (x : Refusal) : Bool :=
  match r with
  | .error (.refused y) => x == y
  | _ => false

def byteAt (s : State) (a : Nat) : Nat := (s.mem.get a).toNat
def bytesAt (s : State) (a n : Nat) : List Nat := (s.mem.getList (contig (BitVec.ofNat 32 a) n)).map (·.toNat)

/-! ## LTR and STR -/

/-- V1: the whole state. -/
theorem test_ltr :
    okAnd (ltr e0 (.reg .eax) (nextAt S0 0x10003)) (· == nextAt S1 0x10003) = true := by decide +kernel

/-- V2 a, d, e, g, h. -/
theorem test_ltr_faults :
    raisedAnd (ltr e0 (.reg .eax) (cpl3 S0)) .gp (some 0#16) (· == cpl3 S0) = true ∧
    raisedAnd (ltrSelector e0 0x40#16 S0) .gp (some 0x40#16) (· == S0) = true ∧
    raisedAnd (ltrSelector e0 0x28#16 S0) .gp (some 0x28#16) (· == S0) = true ∧
    raisedAnd (ltrSelector e0 0x38#16 S0) .np (some 0x38#16) (· == S0) = true ∧
    raisedAnd (ltrSelector e0 0x18#16 S1) .gp (some 0x18#16) (· == S1) = true := by decide +kernel

/-- V3 c and d. -/
theorem test_str_register :
    okAnd (str e0 (.reg16 .ebx) { S1 with gpr := { S1.gpr with ebx := 0x12345678#32 } })
      (fun s => s.gpr.ebx == 0x12340018#32) = true ∧
    okAnd (str e0 (.reg32 .ebx) S1) (fun s => low s.gpr.ebx == 0x0018#16) = true := by decide +kernel

/-- V3 f. -/
theorem test_str_memory :
    okAnd (str e0 (.mem at5000) (put S1 0x5000 [0xAA, 0xBB, 0xCC])) (fun s =>
      bytesAt s 0x5000 3 == [0x18, 0, 0xCC]) = true := by decide +kernel

/-! ## Far JMP and far CALL -/

/-- V4, with TSS A as in program P1 (the reserved halves are free). -/
theorem test_jmp_tss :
    okAnd (farTransfer e0 .jmp 0x20#16 S1) (fun s =>
      byteAt s 0x101D == 0x89 && byteAt s 0x1025 == 0x8B && s.cr0 == 9#32 && s.eip == 0x20000#32 &&
      s.eflags == 2#32 && s.gpr == ⟨0x11111111#32, 0x22222222#32, 0x33333333#32, 0x44444444#32, 0x9000#32,
        0#32, 0x55555555#32, 0x66666666#32⟩ && s.cs.sel == 8#16 && s.gs.hidden.isSome &&
      bytesAt s 0x2100 4 == [0, 0, 0, 0] &&
      bytesAt s 0x2020 42 == [0x0A, 0, 1, 0, 2, 0, 0, 0, 0x18, 0, 0, 0, 0xA1, 0, 0, 0, 0xA2, 0, 0, 0, 0xA3,
        0, 0, 0, 0, 0x80, 0, 0, 0xA5, 0, 0, 0, 0xA6, 0, 0, 0, 0xA7, 0, 0, 0, 0x10, 0]) = true := by
  decide +kernel

/-- V5. -/
theorem test_call_gate :
    okAnd (farTransfer e0 .call 0x28#16 S1) (fun s =>
      byteAt s 0x101D == 0x8B && byteAt s 0x1025 == 0x8B && s.eflags == 0x4002#32 && s.cr0 == 9#32 &&
      bytesAt s 0x2100 2 == [0x18, 0] && bytesAt s 0x2124 4 == [2, 0, 0, 0] &&
      bytesAt s 0x2024 4 == [2, 0, 0, 0] && s.tr.sel == 0x20#16) = true := by decide +kernel

/-- V10 c, e and i. -/
theorem test_far_faults :
    raisedAnd (farTransfer e0 .jmp 0x23#16 S1) .gp (some 0x20#16) (· == S1) = true ∧
    raisedAnd (farTransfer e0 .call 0x2B#16 (cpl3 S1)) .gp (some 0x28#16) (· == cpl3 S1) = true ∧
    refusedAs (farTransfer e0 .jmp 0x08#16 S1) .sameTaskTransfer = true := by decide +kernel

/-- V10 f: a gate of DPL 3 lets CPL 3 through to a TSS of DPL 0. V16: the far pointer at 5000H. -/
theorem test_far_gate_and_pointer :
    okAnd (farTransfer e0 .call 0x2B#16 (cpl3 (put S1 0x102D [0xE5]))) (fun s => s.tr.sel == 0x20#16) = true ∧
    okAnd (farThroughMemory e0 .jmp .w32 at5000 (put S1 0x5004 [0x20])) (fun s => s.tr.sel == 0x20#16) =
      true := by decide +kernel

/-! ## IRET, INT n, events -/

/-- The end state of V5, with `next_eip` behind the IRET at 00020000H. -/
def S5 : State :=
  match farTransfer e0 .call 0x28#16 S1 with
  | .ok s => nextAt s 0x20001
  | .error _ => S0

/-- V6. -/
theorem test_iret :
    okAnd (returnFromTask e0 S5) (fun s =>
      byteAt s 0x101D == 0x8B && byteAt s 0x1025 == 0x89 && s.eflags == 2#32 && s.eip == 0x1000A#32 &&
      bytesAt s 0x2120 8 == [1, 0, 2, 0, 2, 0, 0, 0] && bytesAt s 0x2100 2 == [0x18, 0] &&
      s.gpr == S1.gpr && s.tr.sel == 0x18#16) = true := by decide +kernel

/-- V9 and V18. -/
theorem test_iret_links :
    raisedAnd (returnFromTask e0 { S1 with eflags := 0x4002#32 }) .np (some 0#16) (fun s =>
      s == { S1 with eflags := 0x4002#32 }) = true ∧
    okAnd (returnFromTask e0 (nextAt { put S1 0x2000 [0x18] with eflags := 0x4002#32 } 0x10004)) (fun s =>
      byteAt s 0x101D == 0x89 && s.eip == 0x10004#32 && s.eflags == 2#32 && s.tr.sel == 0x18#16) = true ∧
    returnsToItself e0 { put S1 0x2000 [0x18] with eflags := 0x4002#32 } = true := by decide +kernel

/-- V7. -/
theorem test_int :
    okAnd (softwareInterrupt e0 0x40#8 (nextAt S1 0x10005)) (fun s =>
      s.eflags == 0x4002#32 && bytesAt s 0x2100 2 == [0x18, 0] && bytesAt s 0x2020 4 == [5, 0, 1, 0] &&
      s.eip == 0x20000#32 && byteAt s 0x101D == 0x8B) = true := by decide +kernel

/-- V7 b, c, d and e. -/
theorem test_int_faults :
    raisedAnd (softwareInterrupt e0 0x40#8 (cpl3 (put S1 0x1A05 [0x85]))) .gp (some 0x202#16)
      (fun _ => true) = true ∧
    raisedAnd (softwareInterrupt e0 0x42#8 S1) .gp (some 0x212#16) (· == S1) = true ∧
    raisedAnd (softwareInterrupt e0 0x40#8 (put S1 0x1A05 [0x65])) .np (some 0x202#16) (fun _ => true) =
      true ∧
    refusedAs (softwareInterrupt e0 0x41#8 S1) .sameTaskInterrupt = true := by decide +kernel

/-- V8 a, b, c and d. -/
theorem test_event :
    okAnd (eventEntry e0 .intr 0x40#8 0x10003#32 { S1 with eflags := 0x202#32 }) (fun s =>
      bytesAt s 0x2020 8 == [3, 0, 1, 0, 2, 2, 0, 0] && s.eflags == 0x4002#32) = true ∧
    raisedAnd (eventEntry e0 .intr 0x40#8 0x10003#32 (put S1 0x1025 [0x8B])) .gp (some 0x21#16)
      (fun _ => true) = true ∧
    raisedAnd (eventEntry e0 .intr 0x42#8 0x10003#32 S1) .gp (some 0x213#16) (· == S1) = true ∧
    raisedAnd (eventEntry e0 .intr 0x40#8 0x10003#32 (put S1 0x1A05 [0x65])) .np (some 0x203#16)
      (fun _ => true) = true := by decide +kernel

/-! ## The checks of a task switch -/

/-- V11 a, c, d, f. -/
theorem test_preChecks :
    raisedAnd (farTransfer e0 .jmp 0x28#16 (put S1 0x102A [0x24])) .gp (some 0x24#16) (fun _ => true) = true ∧
    raisedAnd (farTransfer e0 .jmp 0x38#16 S1) .np (some 0x38#16) (· == S1) = true ∧
    raisedAnd (farTransfer e0 .jmp 0x18#16 S1) .gp (some 0x18#16) (· == S1) = true ∧
    raisedAnd (farTransfer e0 .jmp 0x20#16 (put S1 0x1020 [0x66])) .ts (some 0x20#16) (fun _ => true) =
      true := by decide +kernel

/-- What V12 says of every case: the state is the new task's. -/
def inB (s : State) : Bool :=
  byteAt s 0x101D == 0x89 && byteAt s 0x1025 == 0x8B && s.cr0 == 9#32 && s.tr.sel == 0x20#16 &&
    s.eip == 0x20000#32

/-- V12 a, b, c and d. -/
theorem test_loadChecks_first :
    raisedAnd (farTransfer e0 .jmp 0x20#16 (put S1 0x214C [0x10])) .ts (some 0x10#16) (fun s =>
      inB s && s.cs.hidden == none && s.ss.hidden == none && s.ds.hidden == none) = true ∧
    raisedAnd (farTransfer e0 .jmp 0x20#16 (put S1 0x214C [0x0B])) .ts (some 0x08#16) (fun s =>
      inB s && s.cpl == 3#2) = true ∧
    raisedAnd (farTransfer e0 .jmp 0x20#16 (put S1 0x2150 [0])) .ts (some 0#16) inB = true ∧
    raisedAnd (farTransfer e0 .jmp 0x20#16 (put S1 0x1015 [0x12])) .sf (some 0x10#16) inB = true := by
  decide +kernel

/-- V12 f, h, i, j, k and l. -/
theorem test_loadChecks_rest :
    raisedAnd (farTransfer e0 .jmp 0x20#16 (put S1 0x2160 [0x10])) .ts (some 0x10#16) inB = true ∧
    raisedAnd (farTransfer e0 .jmp 0x20#16 (put S1 0x100D [0x1A])) .np (some 0x08#16) inB = true ∧
    raisedAnd (farTransfer e0 .jmp 0x20#16 (put S1 0x2154 [0x30])) .ts (some 0x30#16) inB = true ∧
    raisedAnd (farTransfer e0 .jmp 0x20#16 (put (put S1 0x100D [0x98]) 0x2148 [8])) .ts (some 8#16) inB =
      true ∧
    okAnd (farTransfer e0 .jmp 0x20#16 (put S1 0x2154 [0])) (fun s =>
      s.ds.sel == 0#16 && s.ds.hidden == none) = true ∧
    raisedAnd (farTransfer e0 .jmp 0x20#16 (put S1 0x2158 [0x14])) .ts (some 0x14#16) inB = true := by
  decide +kernel

/-- V13 and V14. -/
theorem test_trap_and_tss16 :
    okAnd (farTransfer e0 .jmp 0x20#16 (put S1 0x2164 [1])) (fun s => s.pendingTaskTrap) = true ∧
    okAnd (farTransfer e0 .call 0x30#16 S1) (fun s =>
      s.eip == 0x4000#32 && s.eflags == 0x4002#32 && low s.gpr.eax == 0xC001#16 &&
      low s.gpr.esp == 0x7000#16 && s.fs.sel == 0#16 && s.fs.hidden == none && s.cr3 == 0#32 &&
      bytesAt s 0x2200 3 == [0x18, 0, 0] && byteAt s 0x1035 == 0x83 && byteAt s 0x101D == 0x8B &&
      s.tr == { sel := 0x30#16, base := 0x2200#32, limit := 0x2C#32, attr := 0x83#16, loaded := true }) =
      true := by decide +kernel

/-- V15. -/
theorem test_errorCodes :
    errSel 0x23#16 = 0x20#16 ∧ errSel 0x0F#16 = 0x0C#16 ∧ errIdt 0x40#8 = 0x202#16 ∧
    errIdt 0xFF#8 = 0x7FA#16 := by decide

/-- V17. -/
theorem test_descriptor :
    let d : Desc := ofLe 64 [0x01#8, 0#8, 0#8, 0#8, 0x40#8, 0xEB#8, 0x80#8, 0x12#8]
    d.base = 0x12400000#32 ∧ d.effLimit = 0x1FFF#32 ∧ d.type = 11#4 ∧ d.dpl = 3#2 ∧ d.isTss = true ∧
    d.busyBit = true := by decide

/-- Program P1's first step, through the fetch, on the machine's own environment (V1, R13). -/
theorem test_step_ltr :
    (match step (put S0 0x10000 [0x0F, 0x00, 0xD8]) with
      | .next s => s.tr.sel == 0x18#16 && s.eip == 0x10003#32
      | _ => false) = true := by decide +kernel

/-! ## Witnesses: states and operands that meet the hypotheses of each statement

The statements about `exec` and `step` are about the machine's own environment, whose free values nothing
can evaluate. Their witnesses are 16-bit tasks with paging off, whose switches put no free value in
memory. -/

def isOk (r : Except Stop State) : Bool := okAnd r fun _ => true

def isNext (r : Result) : Bool :=
  match r with
  | .next _ => true
  | _ => false

theorem ok_of_isOk {r : Except Stop State} (h : isOk r = true) : ∃ t, r = .ok t := by
  cases r with
  | ok t => exact ⟨t, rfl⟩
  | error x => cases h

theorem next_of_isNext {r : Result} (h : isNext r = true) : ∃ t, r = .next t := by
  cases r with
  | next t => exact ⟨t, rfl⟩
  | fault r => cases h
  | refused r => cases h

/-- A switch that completes with paging off goes through, at the linear addresses. -/
theorem goes_of_ok {e : Config.Env} {kind : SwitchKind} {newSel : Half} {nd : Desc} {retEip : Word}
    {s : State} (h : isOk (taskSwitch e kind newSel retEip s) = true)
    (hd : descAt e s (gdtAddr s newSel) = some nd) (hp : s.paging = false) :
    SwitchGoes e kind newSel nd (Plan.flat s newSel nd) retEip s := by
  obtain ⟨t, ht⟩ := ok_of_isOk h
  obtain ⟨nd', p, hg, -⟩ := taskSwitch_ok ht
  have h1 := hg.ready.desc
  rw [hd] at h1
  cases h1
  have h2 := hg.ready.pages
  rw [plan_flat hp] at h2
  cases h2
  exact hg

/-- Task A (16-bit, TSS at 2000H, link 0020H) and task B (16-bit, TSS at 2100H) with the access bytes of
their descriptors; gates to B at 0028H and at the vectors 6, 13 and 40H; far pointers to B at 5000H (m16:32)
and 5008H (m16:16). -/
def imageW (a b : Nat) : Memory :=
  cells 0x1008 [0xFF, 0xFF, 0, 0, 0, 0x9B, 0xCF, 0] ++ (cells 0x1010 [0xFF, 0xFF, 0, 0, 0, 0x93, 0xCF, 0] ++
  (cells 0x1018 [0x2C, 0, 0, 0x20, 0, a, 0, 0] ++ (cells 0x1020 [0x2C, 0, 0, 0x21, 0, b, 0, 0] ++
  (cells 0x1028 [0, 0, 0x20, 0, 0, 0x85, 0, 0] ++ (cells 0x1038 [0x2C, 0, 0, 0x23, 0, 0x01, 0, 0] ++
  (cells 0x1830 [0, 0, 0x20, 0, 0, 0x85, 0, 0] ++ (cells 0x1868 [0, 0, 0x20, 0, 0, 0x85, 0, 0] ++
  (cells 0x1A00 [0, 0, 0x20, 0, 0, 0xE5, 0, 0] ++ (cells 0x2000 [0x20, 0] ++
  (cells 0x210E tssC ++ (cells 0x5000 [0, 0, 0, 0, 0x20, 0] ++ cells 0x5008 [0, 0, 0x20, 0])))))))))))

/-- Task A runs; B is available. -/
def W : State := { S0 with
  eip := 0x10003#32, nextEip := 0x1000A#32, mem := imageW 0x83 0x81
  tr := { sel := 0x18#16, base := 0x2000#32, limit := 0x2C#32, attr := 0x83#16, loaded := true } }

/-- Task A runs nested in B, with NT set. -/
def WI : State := { W with eflags := 0x4002#32, mem := imageW 0x83 0x83 }

/-- B's descriptor, available and busy. -/
def descB : Desc := 0x000081002100002C#64
def descBusyB : Desc := 0x000083002100002C#64

theorem goes_jmp : SwitchGoes Config.env .jmp 0x20#16 descB (Plan.flat W 0x20#16 descB) W.nextEip W :=
  goes_of_ok (by decide +kernel) (by decide +kernel) (by decide +kernel)

theorem goes_call : SwitchGoes Config.env .call 0x20#16 descB (Plan.flat W 0x20#16 descB) W.nextEip W :=
  goes_of_ok (by decide +kernel) (by decide +kernel) (by decide +kernel)

theorem goes_int : SwitchGoes Config.env .intN 0x20#16 descB (Plan.flat W 0x20#16 descB) W.nextEip W :=
  goes_of_ok (by decide +kernel) (by decide +kernel) (by decide +kernel)

theorem goes_iret :
    SwitchGoes Config.env .iret 0x20#16 descBusyB (Plan.flat WI 0x20#16 descBusyB) WI.nextEip WI :=
  goes_of_ok (by decide +kernel) (by decide +kernel) (by decide +kernel)

theorem goes_intr : SwitchGoes Config.env .intr 0x20#16 descB (Plan.flat W 0x20#16 descB) W.eip
    { W with eflags := 0x202#32 } :=
  goes_of_ok (s := { W with eflags := 0x202#32 }) (by decide +kernel) (by decide +kernel) (by decide +kernel)

theorem goes_exc : SwitchGoes Config.env .exc 0x20#16 descB (Plan.flat W 0x20#16 descB) W.eip W :=
  goes_of_ok (by decide +kernel) (by decide +kernel) (by decide +kernel)

theorem farAdmits_direct : FarAdmits Config.env W 0x20#16 0x20#16 :=
  ⟨by decide, by decide +kernel, descB, by decide +kernel, by decide +kernel, by decide +kernel,
    .inl ⟨by decide +kernel, by decide, rfl⟩⟩

theorem farAdmits_gate : FarAdmits Config.env W 0x28#16 0x20#16 :=
  ⟨by decide, by decide +kernel, 0x0000850000200000#64, by decide +kernel, by decide +kernel,
    by decide +kernel, .inr ⟨by decide +kernel, by decide +kernel, by decide +kernel⟩⟩

theorem intAdmits : IntAdmits Config.env W 0x40#8 0x20#16 :=
  ⟨by decide +kernel, 0x0000E50000200000#64, by decide +kernel, by decide +kernel, by decide +kernel,
    by decide +kernel, by decide +kernel⟩

/-! ### Encoding and the step -/

theorem witness_DecodeInvertsEncode : Instr.wellFormed (.jmpMem .w16
    { seg := .gs, base := some .esp, index := some (.ebp, 3#2), disp := 0x80000000#32 }) = true := by decide

theorem witness_LockPrefixIsUndefined : Instr.wellFormed (.callPtr16 0xFFFF#16 0xFFFF#16) = true ∧
    Instr.wellFormed (.strRm16 (.mem (indexed .edi))) = true := by decide

theorem witness_UndefinedEncodings :
    (0xDF#8).extractLsb' 6 2 = 3#2 ∧ (0xDF#8).extractLsb' 3 3 = 3#3 ∧
    (0xE8#8).extractLsb' 6 2 = 3#2 ∧ (0xE8#8).extractLsb' 3 3 = 5#3 ∧
    (0x38#8).extractLsb' 3 3 = 7#3 ∧ (0xFF#8).extractLsb' 3 3 = 7#3 ∧ (0x30#8).extractLsb' 3 3 = 6#3 := by
  decide

/-- S1 and S0 with paging on; a translation that leaves out one linear address, and one that lets it be read
only. -/
def SP : State := { S1 with cr0 := 0x80000001#32 }
def SP0 : State := { S0 with cr0 := 0x80000001#32 }
def without (a : Word) : Config.Env :=
  { e0 with translate := fun _ _ la _ => if la = a then none else some la }
def readOnly (a : Word) : Config.Env :=
  { e0 with translate := fun _ _ la k => if la = a ∧ k.kind = .write then none else some la }

/-- The second part: the last EIP whose fifteen bytes lie in the segment. The third, with paging on: the same EIP,
the last byte of the segment, and a byte inside it that page-faults. -/
theorem witness_StepRunsTheDecodedInstruction :
    (FetchesNext (put S0 0x10000 [0x0F, 0x00, 0xD8]) .flatCode ∧
      decode Hidden.flatCode.big
        (fetchBytes Config.env (put S0 0x10000 [0x0F, 0x00, 0xD8]) .flatCode 0 15) =
        .instr (.ltrRm16 (.reg .eax)) 3) ∧
    FetchesNext { put S0 0x10000 [0xCF] with event := some (.intr 0x40#8) } .flatCode ∧
    ({ S0 with eip := 0xFFFFFFF1#32 } : State).paging = false ∧
    (0xFFFFFFF1#32).toNat + 14 ≤ Hidden.flatCode.limit.toNat ∧
    ((0xFFFFFFF1#32).toNat + 15 ≤ Hidden.flatCode.limit.toNat + 1 ∧
      readBytes e0 { SP0 with eip := 0xFFFFFFF1#32 } (userAccess SP0 .read)
        (Hidden.flatCode.base + 0xFFFFFFF1#32) 15 = some (List.replicate 15 0#8)) ∧
    ((0xFFFFFFFF#32).toNat + 1 ≤ Hidden.flatCode.limit.toNat + 1 ∧
      readBytes e0 (put { SP0 with eip := 0xFFFFFFFF#32 } 0xFFFFFFFF [0xCF]) (userAccess SP0 .read)
        (Hidden.flatCode.base + 0xFFFFFFFF#32) 1 = some [0xCF#8]) ∧
    (SP0.eip.toNat + 3 ≤ Hidden.flatCode.limit.toNat + 1 ∧
      readBytes (without 0x10002#32) SP0 (userAccess SP0 .read) (Hidden.flatCode.base + SP0.eip) 3 = none) := by
  refine ⟨⟨⟨rfl, .inl rfl, rfl, rfl⟩, by decide +kernel⟩, ⟨rfl, .inr ⟨_, rfl, by decide⟩, rfl, rfl⟩,
    ?_, ?_, ?_, ?_, ?_⟩ <;>
    decide +kernel

theorem witness_StepTakesInvalidOpcode :
    W.protectedMode = true ∧ FetchesNext (put W 0x10003 [0xF0, 0x0F, 0x00, 0xD8]) .flatCode ∧
    decode Hidden.flatCode.big
      (fetchBytes Config.env (put W 0x10003 [0xF0, 0x0F, 0x00, 0xD8]) .flatCode 0 15) = .undefined :=
  ⟨by decide, ⟨rfl, .inl rfl, rfl, rfl⟩, by decide +kernel⟩

theorem witness_PendingTrapTakesDebugException :
    State.legal { W with pendingTaskTrap := true } = true ∧
    ({ W with pendingTaskTrap := true } : State).pendingTaskTrap = true := by decide

/-- CS not usable; CS holding a busy TSS's attributes, and a data segment's; no protected mode. -/
theorem witness_StatesOutsideTheSpecAreRefused :
    ({ W with cs := { sel := 8#16, hidden := none } } : State).cs.hidden = none ∧
    ((0x008B#16).getLsbD 4 && (0x008B#16).getLsbD 3) = false ∧
    (Hidden.flatData.attr.getLsbD 4 && Hidden.flatData.attr.getLsbD 3) = false ∧
    State.protectedMode { put S0 0x10000 [0xCF] with cr0 := 0#32 } = false := by
  decide

theorem witness_NothingSwitchesBeforeLtr :
    S0.protectedMode = true ∧ S0.tr.loaded = false ∧
    FarForm Config.env S0 (.jmpPtr32 0x20#16 0#32) .jmp 0x20#16 ∧
    FarAdmits Config.env S0 0x20#16 0x20#16 ∧
    flagNT ({ S0 with eflags := 0x4002#32 } : State).eflags = true ∧
    IntAdmits Config.env S0 0x40#8 0x20#16 :=
  ⟨by decide, rfl, ⟨rfl, rfl⟩,
    ⟨by decide, by decide +kernel, 0x0000890021000067#64, by decide +kernel, by decide +kernel,
      by decide +kernel, .inl ⟨by decide +kernel, by decide, rfl⟩⟩, by decide,
    ⟨by decide +kernel, 0x0000E50000200000#64, by decide +kernel, by decide +kernel, by decide +kernel,
      by decide +kernel, by decide +kernel⟩⟩

/-! ### Invariants -/

/-- W with `JMP 0020H:0` at CS:EIP: a step that switches tasks. -/
def WJ : State := put W 0x10003 [0xEA, 0, 0, 0, 0, 0x20, 0]

theorem step_WJ : ∃ t, step WJ = .next t := next_of_isNext (by decide +kernel)

theorem witness_MemoryStaysCanonical : WJ.mem.wf = true ∧ ∃ t, step WJ = .next t :=
  ⟨by decide +kernel, step_WJ⟩

theorem witness_ModeStaysLegal : WJ.legal = true ∧ WJ.bit1 = true ∧ ∃ t, step WJ = .next t :=
  ⟨by decide +kernel, by decide +kernel, step_WJ⟩

theorem witness_CodeAndStackStayFit : WJ.stackFits = true ∧ ∃ t, step WJ = .next t :=
  ⟨by decide +kernel, step_WJ⟩

theorem witness_TaskRegisterStaysBusyTss :
    WJ.trBusy = true ∧ WJ.tr.loaded = true ∧ ∃ t, step WJ = .next t :=
  ⟨by decide +kernel, rfl, step_WJ⟩

theorem witness_TablesAndControlRegistersStay :
    WJ.paging = false ∧ WJ.params.cr3LoadNeedsPg = true ∧ ∃ t, step WJ = .next t :=
  ⟨by decide, rfl, step_WJ⟩

/-! ### LTR and STR -/

theorem witness_LtrCompletes :
    S0.protectedMode = true ∧
    LtrAdmits Config.env S0 (.reg .eax) 0x18#16 0x0000890020000067#64 0x101D#32 := by
  refine ⟨by decide, ?_, ?_, ?_, ?_, ?_, ?_, ?_, ?_, ?_⟩ <;> decide +kernel

/-- A state whose AX is a selector. -/
def withAx (s : State) (n : Nat) : State := { s with gpr := { s.gpr with eax := BitVec.ofNat 32 n } }

/-- The clauses in turn; 0040H is the first selector beyond the GDT, 0038H the last one in it. Then the page
faults: the second byte of a source at 5000H, the last byte of the descriptor, and a descriptor that can be
read but whose access byte cannot be written. -/
theorem witness_LtrFaults :
    ((cpl3 S0).protectedMode = true ∧ (cpl3 S0).cpl ≠ 0#2) ∧
    (S0.cpl = 0#2 ∧ ltrSource Config.env (withAx S0 3) (.reg .eax) = .ok 3#16 ∧ selNull 3#16 = true) ∧
    (ltrSource Config.env (withAx S0 0x1C) (.reg .eax) = .ok 0x1C#16 ∧ selNull 0x1C#16 = false ∧
      selTI 0x1C#16 = true) ∧
    S0.gdtr.limit.toNat < 8 * selIndex 0x40#16 + 7 ∧
    8 * selIndex 0x38#16 + 7 ≤ S0.gdtr.limit.toNat ∧
    (∃ d : Desc, descAt Config.env S0 (gdtAddr S0 0x08#16) = some d ∧ d.s = true) ∧
    (∃ d : Desc, descAt Config.env S0 (gdtAddr S0 0x28#16) = some d ∧ d.s = false ∧ d.type ≠ 9#4 ∧
      d.type ≠ 1#4) ∧
    (∃ d : Desc, descAt Config.env S0 (gdtAddr S0 0x38#16) = some d ∧ d.s = false ∧ d.type = 9#4 ∧
      d.p = false) ∧
    (SP0.protectedMode = true ∧ SP0.cpl = 0#2 ∧ operandAddr SP0 at5000 2 Hidden.readable = .ok 0x5000#32 ∧
      readBytes (without 0x5001#32) SP0 (userAccess SP0 .read) 0x5000#32 2 = none) ∧
    (ltrSource (without 0x101F#32) SP0 (.reg .eax) = .ok 0x18#16 ∧
      descAt (without 0x101F#32) SP0 (gdtAddr SP0 0x18#16) = none) ∧
    (∃ d : Desc, descAt (readOnly 0x101D#32) SP0 (gdtAddr SP0 0x18#16) = some d ∧ d.s = false ∧ d.type = 9#4 ∧
      d.p = true ∧ physical (readOnly 0x101D#32) SP0 sysWrite (gdtAddr SP0 0x18#16 + 5#32) = none) := by
  refine ⟨by decide, by decide, by decide, by decide, by decide,
    ⟨0x00CF9A000000FFFF#64, ?_, ?_⟩, ⟨0x0000850000200000#64, ?_, ?_, ?_, ?_⟩,
    ⟨0x0000090023000067#64, ?_, ?_, ?_, ?_⟩, ?_, ?_, ⟨0x0000890020000067#64, ?_, ?_, ?_, ?_, ?_⟩⟩ <;>
    decide +kernel

theorem witness_StrToRegisterCompletes : S1.protectedMode = true := by decide

theorem witness_StrToMemoryCompletes :
    S1.protectedMode = true ∧ operandAddr S1 at5000 2 Hidden.writable = .ok 0x5000#32 ∧
    physRange Config.env S1 (userAccess S1 .write) 0x5000#32 2 = some [0x5000#32, 0x5001#32] ∧
    operandAddr S1 { at5000 with disp := 0xFFFFFFFE#32 } 2 Hidden.writable = .ok 0xFFFFFFFE#32 ∧
    physRange Config.env S1 (userAccess S1 .write) 0xFFFFFFFE#32 2 = some [0xFFFFFFFE#32, 0xFFFFFFFF#32] ∧
    (SP.protectedMode = true ∧ operandAddr SP at5000 2 Hidden.writable = .ok 0x5000#32 ∧
      physRange (readOnly 0x5001#32) SP (userAccess SP .write) 0x5000#32 2 = none) := by
  decide +kernel

/-- A segment that is loaded; one that is not; a data segment and an expand-down one. By hand from R114, with EBX
= A3H, EDI = A7H: A3H + (A7H << 2) + 8 = 347H. -/
theorem witness_MemoryOperandAddress :
    (S1.seg (indexed .edi).seg).hidden = some .flatData ∧
    operandAddr S1 (indexed .edi) 2 Hidden.readable = .ok 0x347#32 ∧
    State.seg { S1 with ds := { sel := 0#16, hidden := none } } .ds = { sel := 0#16, hidden := none } ∧
    Hidden.flatData.attr.getLsbD 2 = false ∧ Hidden.flatCode.attr.getLsbD 3 = true ∧
    Hidden.flatData.covers 0xFFFFFFFF#32 1 = true ∧ Hidden.flatData.covers 0xFFFFFFFF#32 2 = false := by
  decide +kernel

theorem witness_TaskRegisterInstructionsNeedProtectedMode :
    State.protectedMode { S0 with cr0 := 0#32 } = false ∧
    State.protectedMode { S0 with eflags := 0x20002#32 } = false := by decide

/-! ### Far JMP and far CALL -/

/-- `[00005008H]`. -/
def at5008 : MemRef := { at5000 with disp := 0x5008#32 }

theorem witness_JmpToTaskCompletes :
    W.protectedMode = true ∧ FarAdmits Config.env W 0x20#16 0x20#16 ∧ FarAdmits Config.env W 0x28#16 0x20#16 ∧
    SwitchGoes Config.env .jmp 0x20#16 descB (Plan.flat W 0x20#16 descB) W.nextEip W ∧
    farPointer Config.env W .w32 at5000 = .ok (0x20#16, 0#32) ∧
    farPointer Config.env W .w16 at5008 = .ok (0x20#16, 0#32) :=
  ⟨by decide, farAdmits_direct, farAdmits_gate, goes_jmp, by decide +kernel, by decide +kernel⟩

theorem witness_CallToTaskCompletes :
    W.protectedMode = true ∧ FarAdmits Config.env W 0x20#16 0x20#16 ∧ FarAdmits Config.env W 0x28#16 0x20#16 ∧
    SwitchGoes Config.env .call 0x20#16 descB (Plan.flat W 0x20#16 descB) W.nextEip W ∧
    farPointer Config.env W .w32 at5000 = .ok (0x20#16, 0#32) ∧
    farPointer Config.env W .w16 at5008 = .ok (0x20#16, 0#32) :=
  ⟨by decide, farAdmits_direct, farAdmits_gate, goes_call, by decide +kernel, by decide +kernel⟩

/-- W with an LDT in force that lies where the GDT does. -/
def WL : State := { W with
  ldtr := { sel := 0x38#16, hidden := some { base := 0x1000#32, limit := 0x3F#32, attr := 0x82#16 } } }

/-- The clauses in turn: a null selector, one outside its table, a TSS through an LDT, above its DPL and
above its DPL by RPL, a gate above its DPL, a gate not present; then the page faults, on the last byte of a far
pointer of each size and of the descriptor. -/
theorem witness_FarTransferFaults :
    (W.protectedMode = true ∧ FarForm Config.env W (.callPtr16 3#16 0#16) .call 3#16 ∧
      selNull 3#16 = true) ∧
    (selNull 0x40#16 = false ∧ inTable W 0x40#16 = false ∧ inTable W 0x0C#16 = false ∧
      inTable W 0x38#16 = true) ∧
    (∃ d : Desc, inTable WL 0x24#16 = true ∧ descAt Config.env WL (descAddr WL 0x24#16) = some d ∧
      d.isTss = true ∧ selTI 0x24#16 = true) ∧
    (∃ d : Desc, descAt Config.env (cpl3 W) (descAddr (cpl3 W) 0x20#16) = some d ∧ d.isTss = true ∧
      d.dpl.toNat < (cpl3 W).cpl.toNat) ∧
    (∃ d : Desc, descAt Config.env W (descAddr W 0x23#16) = some d ∧ d.isTss = true ∧
      d.dpl.toNat < (selRPL 0x23#16).toNat) ∧
    (∃ d : Desc, descAt Config.env W (descAddr W 0x2B#16) = some d ∧ d.isTaskGate = true ∧
      d.dpl.toNat < (selRPL 0x2B#16).toNat) ∧
    (∃ d : Desc, descAt Config.env (put W 0x102D [5]) (descAddr W 0x28#16) = some d ∧
      d.isTaskGate = true ∧ W.cpl.toNat ≤ d.dpl.toNat ∧ (selRPL 0x28#16).toNat ≤ d.dpl.toNat ∧
      d.p = false) ∧
    (operandAddr SP at5000 (offsetBytes .w32 + 2) Hidden.readable = .ok 0x5000#32 ∧
      readBytes (without 0x5005#32) SP (userAccess SP .read) 0x5000#32 (offsetBytes .w32 + 2) = none ∧
      operandAddr SP at5000 (offsetBytes .w16 + 2) Hidden.readable = .ok 0x5000#32 ∧
      readBytes (without 0x5003#32) SP (userAccess SP .read) 0x5000#32 (offsetBytes .w16 + 2) = none) ∧
    (selNull 0x20#16 = false ∧ inTable SP 0x20#16 = true ∧
      descAt (without 0x1027#32) SP (descAddr SP 0x20#16) = none) := by
  refine ⟨⟨by decide, ⟨rfl, rfl⟩, by decide⟩, by decide +kernel, ⟨descB, ?_, ?_, ?_, ?_⟩,
    ⟨descB, ?_, ?_, ?_⟩, ⟨descB, ?_, ?_, ?_⟩, ⟨0x0000850000200000#64, ?_, ?_, ?_⟩,
    ⟨0x0000050000200000#64, ?_, ?_, ?_, ?_, ?_⟩, ?_, ?_⟩ <;> decide +kernel

theorem witness_FarPointerInMemory :
    S1.paging = false ∧ operandAddr S1 at5000 6 Hidden.readable = .ok 0x5000#32 ∧
    operandAddr S1 { at5000 with disp := 0xFFFFFFFC#32 } 4 Hidden.readable = .ok 0xFFFFFFFC#32 := by
  decide +kernel

theorem witness_SameTaskFormsAreRefused :
    (W.protectedMode = true ∧ FarForm Config.env W (.jmpPtr32 8#16 0#32) .jmp 8#16 ∧
      selNull 8#16 = false ∧ inTable W 8#16 = true ∧
      ∃ d : Desc, descAt Config.env W (descAddr W 8#16) = some d ∧ d.isTss = false ∧ d.isTaskGate = false) ∧
    flagNT W.eflags = false ∧
    (inIdt W 0x41#8 = true ∧ ∃ g : Desc, descAt Config.env W (idtAddr W 0x41#8) = some g ∧
      g.isTaskGate = false) := by
  refine ⟨⟨by decide, ⟨rfl, rfl⟩, by decide, by decide +kernel, 0x00CF9B000000FFFF#64, ?_, ?_, ?_⟩,
    by decide, by decide +kernel, 0#64, ?_, ?_⟩ <;> decide +kernel

/-! ### INT n, IRET, events and exceptions -/

theorem witness_IntToTaskCompletes :
    W.protectedMode = true ∧ IntAdmits Config.env W 0x40#8 0x20#16 ∧
    SwitchGoes Config.env .intN 0x20#16 descB (Plan.flat W 0x20#16 descB) W.nextEip W :=
  ⟨by decide, intAdmits, goes_int⟩

/-- Vector 42H is the first outside the IDT, 41H the last one inside; the last byte of entry 41H is not
present. -/
theorem witness_IntFaults :
    W.protectedMode = true ∧ W.idtr.limit.toNat < 8 * (0x42#8).toNat + 7 ∧
    8 * (0x41#8).toNat + 7 ≤ W.idtr.limit.toNat ∧
    (∃ g : Desc, descAt Config.env (cpl3 W) (idtAddr W 0x0D#8) = some g ∧ g.isTaskGate = true ∧
      g.dpl.toNat < (cpl3 W).cpl.toNat) ∧
    (∃ g : Desc, descAt Config.env (put W 0x1A05 [0x65]) (idtAddr W 0x40#8) = some g ∧
      g.isTaskGate = true ∧ W.cpl.toNat ≤ g.dpl.toNat ∧ g.p = false) ∧
    (SP.protectedMode = true ∧ 8 * (0x41#8).toNat + 7 ≤ SP.idtr.limit.toNat ∧
      descAt (without 0x1A0F#32) SP (idtAddr SP 0x41#8) = none) := by
  refine ⟨by decide, by decide, by decide, ⟨0x0000850000200000#64, ?_, ?_, ?_⟩,
    ⟨0x0000650000200000#64, ?_, ?_, ?_, ?_⟩, ?_⟩ <;> decide +kernel

/-- A return; a link whose two bytes lie together with paging on, and one whose first byte is not present. -/
theorem witness_IretToPreviousTaskCompletes :
    (WI.protectedMode = true ∧ IretAdmits Config.env WI 0x20#16 ∧
      SwitchGoes Config.env .iret 0x20#16 descBusyB (Plan.flat WI 0x20#16 descBusyB) WI.nextEip WI) ∧
    WI.paging = false ∧
    physRange e0 SP sysRead SP.tr.base 2 = some [0x2000#32, 0x2000#32 + 1#32] ∧
    (flagNT ({ SP with eflags := 0x4002#32 } : State).eflags = true ∧ SP.tr.loaded = true ∧
      physical (without 0x2000#32) { SP with eflags := 0x4002#32 } sysRead SP.tr.base = none) :=
  ⟨⟨by decide, ⟨by decide, rfl, by decide +kernel⟩, goes_iret⟩, by decide, by decide, by decide⟩

/-- An interrupt with IF set, and exceptions without and with an error code, each presented at a boundary of task
A. For the last, B's stack segment is a 16-bit one, so that the push does not use the free upper half of ESP. -/
def WIntr : State := { W with eflags := 0x202#32, event := some (.intr 0x40#8) }
def WExc : State := { W with event := some (.exc 0x40#8 none 0x10003#32) }
def WExcCode : State := { put W 0x1016 [0x8F] with event := some (.exc 0x40#8 (some 0x18#16) 0x10003#32) }

theorem goes_excCode : SwitchGoes Config.env .exc 0x20#16 descB (Plan.flat W 0x20#16 descB) 0x10003#32
    { WExcCode with event := none } :=
  goes_of_ok (s := put W 0x1016 [0x8F]) (by decide +kernel) (by decide +kernel) (by decide +kernel)

theorem push_excCode : ∃ t u, Arrived Config.env .exc 0x20#16 descB (Plan.flat W 0x20#16 descB) 0x10003#32
    { WExcCode with event := none } t ∧ pushErrorCode Config.env 0x18#16 t = .ok u := by
  obtain ⟨t, -, ha⟩ := taskSwitch_goes goes_excCode
  have hss : t.ss.hidden = some { base := 0#32, limit := 0xFFFFFFFF#32, attr := 0x8F93#16 } :=
    ha.hidden .ss 0x008F93000000FFFF#64 (by rw [ha.inNewTask.sel]; decide +kernel)
  have hsp : low t.gpr.esp = 0x7000#16 := by rw [ha.inNewTask.gpr]; exact low_append _ _
  have hp : t.paging = false := by rw [State.paging, ha.inNewTask.cr0]; decide
  have h16 : t.tr.is32 = false := by rw [ha.inNewTask.tr]; decide
  refine ⟨t, _, ha, pushErrorCode_flat (n := 2) hp hss (by decide) (by simp [h16, errorCodeBytes]) ?_⟩
  have : pushOffset { base := 0#32, limit := 0xFFFFFFFF#32, attr := 0x8F93#16 } t.gpr.esp 2 = 0x6FFE#32 := by
    rw [pushOffset, hsp, if_neg (by decide)]; decide
  rw [this]; decide

/-- An interrupt; an exception without and with an error code, whose push fits. -/
theorem witness_EventsEnterTheirTask :
    (WIntr.legal = true ∧ WIntr.pendingTaskTrap = false ∧
      EventAdmits Config.env WIntr 0x40#8 0x20#16 ∧ WIntr.event = some (.intr 0x40#8) ∧
      flagIF WIntr.eflags = true ∧
      SwitchGoes Config.env .intr 0x20#16 descB (Plan.flat W 0x20#16 descB) WIntr.eip
        { WIntr with event := none }) ∧
    (WExc.legal = true ∧ WExc.pendingTaskTrap = false ∧
      EventAdmits Config.env WExc 0x40#8 0x20#16 ∧ WExc.event = some (.exc 0x40#8 none 0x10003#32) ∧
      SwitchGoes Config.env .exc 0x20#16 descB (Plan.flat W 0x20#16 descB) 0x10003#32
        { WExc with event := none }) ∧
    (WExcCode.event = some (.exc 0x40#8 (some 0x18#16) 0x10003#32) ∧ WExcCode.legal = true ∧
      EventAdmits Config.env WExcCode 0x40#8 0x20#16 ∧
      SwitchGoes Config.env .exc 0x20#16 descB (Plan.flat W 0x20#16 descB) 0x10003#32
        { WExcCode with event := none } ∧
      ∃ t u, Arrived Config.env .exc 0x20#16 descB (Plan.flat W 0x20#16 descB) 0x10003#32
        { WExcCode with event := none } t ∧ pushErrorCode Config.env 0x18#16 t = .ok u) := by
  obtain ⟨h1, g, h2, h3, -, h4, h5⟩ := intAdmits
  exact ⟨⟨by decide, rfl, ⟨h1, g, h2, h3, h4, h5⟩, rfl, by decide, goes_intr⟩,
    ⟨by decide, rfl, ⟨h1, g, h2, h3, h4, h5⟩, rfl, goes_exc⟩,
    ⟨rfl, by decide, ⟨by decide +kernel, 0x0000E50000200000#64, by decide +kernel, by decide +kernel,
        by decide +kernel, by decide +kernel⟩,
      goes_excCode, push_excCode⟩⟩

theorem witness_EventFaults :
    (WIntr.event = some (.intr 0x40#8) ∧ flagIF WIntr.eflags = true) ∧
    (∃ code retEip, WExc.event = some (.exc 0x40#8 code retEip)) ∧
    (WIntr.legal = true ∧ WExc.legal = true ∧ W.pendingTaskTrap = false ∧
      W.idtr.limit.toNat < 8 * (0x42#8).toNat + 7) ∧
    (∃ g : Desc, 8 * (0x40#8).toNat + 7 ≤ W.idtr.limit.toNat ∧
      descAt Config.env (put WExc 0x1A05 [0x65]) (idtAddr W 0x40#8) = some g ∧ g.isTaskGate = true ∧
      g.p = false) := by
  refine ⟨⟨rfl, by decide⟩, ⟨_, _, rfl⟩, by decide, 0x0000650000200000#64, ?_, ?_, ?_, ?_⟩ <;>
    decide +kernel

theorem witness_ExceptionEntersHandlerTask :
    W.protectedMode = true ∧ EventAdmits Config.env W (Exc.vector .gp) 0x20#16 ∧
    SwitchGoes Config.env .exc 0x20#16 descB (Plan.flat W 0x20#16 descB) W.eip W :=
  ⟨by decide, ⟨by decide +kernel, 0x0000850000200000#64, by decide +kernel, by decide +kernel,
    by decide +kernel, by decide +kernel⟩, goes_exc⟩

theorem witness_ExceptionWithoutTaskGateEndsTheRun :
    State.protectedMode { S0 with cr0 := 0#32 } = false ∧
    gateIsTaskGate Config.env S1 (Exc.vector .gp) = false := by decide +kernel

/-- A 16-bit stack segment of 64 KB. -/
def data16 : Hidden := { base := 0x30000#32, limit := 0xFFFF#32, attr := 0x0093#16 }

/-- A 32-bit and a 16-bit handler, in a 32-bit and in a 16-bit stack segment; ESP = 0 wraps to the top of its
segment. -/
theorem witness_ErrorCodeIsPushed :
    (S1.paging = false ∧ S1.ss.hidden = some .flatData ∧ Hidden.flatData.writable = true ∧
      S1.tr.is32 = true ∧ Hidden.flatData.covers (pushOffset .flatData S1.gpr.esp 4) 4 = true ∧
      Hidden.flatData.covers (pushOffset .flatData 0#32 4) 4 = true) ∧
    (W.tr.is32 = false ∧ Hidden.flatData.covers (pushOffset .flatData W.gpr.esp 2) 2 = true) ∧
    (data16.writable = true ∧ data16.covers (pushOffset data16 0#32 4) 4 = true) ∧
    Hidden.flatData.big = true ∧ data16.big = false := by decide

/-! ### The task switch before the commit point -/

theorem witness_SelectorOutsideGdtFails :
    S1.tr.loaded = true ∧ selTI 0x24#16 = true ∧ S1.gdtr.limit.toNat < 8 * selIndex 0x40#16 + 7 := by decide

/-- Entry 0038H is not present; with another order it must meet the other checks. -/
theorem witness_NotPresentTaskFails :
    S1.tr.loaded = true ∧ selTI 0x38#16 = false ∧ 8 * selIndex 0x38#16 + 7 ≤ S1.gdtr.limit.toNat ∧
    (∃ nd : Desc, descAt e0 S1 (gdtAddr S1 0x38#16) = some nd ∧ nd.p = false ∧
      S1.params.checkOrder = Config.CheckId.table ∧ nd.isTss = true ∧
      nd.busyBit = decide (SwitchKind.jmp = .iret) ∧ minLimit S1 nd ≤ nd.effLimit.toNat) := by
  refine ⟨by decide, by decide, by decide, 0x0000090023000067#64, ?_, ?_, ?_, ?_, ?_, ?_⟩ <;> decide +kernel

/-- A code segment; the current task for a JMP; an available task for an IRET. -/
theorem witness_BusyTestFails :
    S1.tr.loaded = true ∧ selTI 0x08#16 = false ∧ 8 * selIndex 0x20#16 + 7 ≤ S1.gdtr.limit.toNat ∧
    (∃ nd : Desc, descAt e0 S1 (gdtAddr S1 0x08#16) = some nd ∧ nd.p = true ∧ nd.isTss = false) ∧
    (∃ nd : Desc, descAt e0 S1 (gdtAddr S1 0x18#16) = some nd ∧ nd.p = true ∧
      nd.busyBit = decide (SwitchKind.jmp ≠ .iret)) ∧
    (∃ nd : Desc, descAt e0 S1 (gdtAddr S1 0x20#16) = some nd ∧ nd.p = true ∧
      nd.busyBit = decide (SwitchKind.iret ≠ .iret)) := by
  refine ⟨by decide, by decide, by decide, ⟨0x00CF9A000000FFFF#64, ?_, ?_, ?_⟩,
    ⟨0x00008B0020000067#64, ?_, ?_, ?_⟩, ⟨0x0000890021000067#64, ?_, ?_, ?_⟩⟩ <;> decide +kernel

/-- V11 f and g: limits 66H and 2BH. -/
theorem witness_ShortTssFails :
    (∃ nd : Desc, descAt e0 (put S1 0x1020 [0x66]) (gdtAddr S1 0x20#16) = some nd ∧ nd.p = true ∧
      nd.isTss = true ∧ nd.busyBit = decide (SwitchKind.jmp = .iret) ∧ nd.is32 = true ∧
      nd.effLimit.toNat < 0x67) ∧
    (∃ nd : Desc, descAt e0 (put S1 0x1030 [0x2B]) (gdtAddr S1 0x30#16) = some nd ∧ nd.p = true ∧
      nd.isTss = true ∧ nd.busyBit = decide (SwitchKind.call = .iret) ∧ nd.is32 = false ∧
      nd.effLimit.toNat < S1.params.tss16MinLimit.toNat) := by
  refine ⟨⟨0x0000890021000066#64, ?_, ?_, ?_, ?_, ?_, ?_⟩, ⟨0x000081002200002B#64, ?_, ?_, ?_, ?_, ?_, ?_⟩⟩ <;>
    decide +kernel

/-- A translation that puts one address elsewhere under another CR3. -/
def moving (a : Word) : Config.Env :=
  { e0 with translate := fun _ cr3 la _ => if la = a ∧ cr3 ≠ 0#32 then some (la + 1#32) else some la }

/-- R84, R269: the first byte of the old TSS, which the switch does not write, is read-only. R271: a byte of a
third task's TSS, and the first byte of the GDT, move with the CR3 that B's TSS holds. -/
theorem test_switch_refusals :
    refusedAs (taskSwitch (readOnly 0x2000#32) .jmp 0x20#16 0x1000A#32 SP) .tssNotWritable = true ∧
    (let s := put SP 0x211E [1]
     refusedAs (taskSwitch (moving 0x2228#32) .jmp 0x20#16 0x1000A#32 s) .mappingChangesWithCr3 = true ∧
     refusedAs (taskSwitch (moving 0x1000#32) .jmp 0x20#16 0x1000A#32 s) .mappingChangesWithCr3 = true ∧
     okAnd (taskSwitch (moving 0x5000#32) .jmp 0x20#16 0x1000A#32 s) (fun t => t.cr3 == 0x10000#32) = true) := by
  decide +kernel

/-- The last byte of the old TSS and of the new one, the first of the old descriptor, the last of the new, not
present; then the same bytes read-only, each for a kind of switch that writes the structure. -/
theorem witness_StepFive :
    S1.paging = false ∧ SP.paging = true ∧ SP.tr.loaded = true ∧
    (preChecks (without 0x2067#32) .jmp 0x20#16 SP = .ok 0x0000890021000067#64 ∧
      physRange (without 0x2067#32) SP sysRead SP.tr.base (tssSize SP.tr.is32) = none) ∧
    (preChecks (without 0x2167#32) .jmp 0x20#16 SP = .ok 0x0000890021000067#64 ∧
      physRange (without 0x2167#32) SP sysRead 0x2100#32 104 = none) ∧
    (preChecks (without 0x1018#32) .jmp 0x20#16 SP = .ok 0x0000890021000067#64 ∧
      physRange (without 0x1018#32) SP sysRead (gdtAddr SP SP.tr.sel) 8 = none) ∧
    (selTI 0x20#16 = false ∧ 8 * selIndex 0x20#16 + 7 ≤ SP.gdtr.limit.toNat ∧
      physRange (without 0x1027#32) SP sysRead (gdtAddr SP 0x20#16) 8 = none) ∧
    ([0x2000#32, 0x2067#32, 0x2167#32, 0x1018#32, 0x1027#32].all fun a =>
      (preChecks (readOnly a) .call 0x20#16 SP matches .ok 0x0000890021000067#64) &&
      (preChecks (readOnly a) .jmp 0x20#16 SP matches .ok 0x0000890021000067#64) &&
      (physRange (readOnly a) SP sysRead SP.tr.base (tssSize SP.tr.is32)).isSome &&
      (physRange (readOnly a) SP sysRead 0x2100#32 104).isSome &&
      (physRange (readOnly a) SP sysRead (gdtAddr SP SP.tr.sel) 8).isSome) = true ∧
    physRange (readOnly 0x2000#32) SP sysWrite SP.tr.base (tssSize SP.tr.is32) = none ∧
    physRange (readOnly 0x2067#32) SP sysWrite SP.tr.base (tssSize SP.tr.is32) = none ∧
    physRange (readOnly 0x2167#32) SP sysWrite 0x2100#32 104 = none ∧
    physRange (readOnly 0x1018#32) SP sysWrite (gdtAddr SP SP.tr.sel) 8 = none ∧
    physRange (readOnly 0x1027#32) SP sysWrite (gdtAddr SP 0x20#16) 8 = none := by decide +kernel

/-- Task A names itself, directly and through the gate at vector 40H turned to it. -/
theorem witness_BusyTaskCannotBeEntered :
    W.protectedMode = true ∧ W.tr.loaded = true ∧ selTI 0x18#16 = false ∧
    8 * selIndex 0x18#16 + 7 ≤ W.gdtr.limit.toNat ∧
    (∃ nd : Desc, descAt Config.env (put W 0x1A02 [0x18]) (gdtAddr W 0x18#16) = some nd ∧ nd.p = true ∧
      nd.isTss = true ∧ nd.busyBit = true) ∧
    FarForm Config.env (put W 0x1A02 [0x18]) (.jmpPtr32 0x18#16 0#32) .jmp 0x18#16 ∧
    FarAdmits Config.env (put W 0x1A02 [0x18]) 0x18#16 0x18#16 ∧
    IntAdmits Config.env (put W 0x1A02 [0x18]) 0x40#8 0x18#16 := by
  refine ⟨by decide, rfl, by decide, by decide, ⟨0x000083002000002C#64, ?_, ?_, ?_, ?_⟩, ⟨rfl, rfl⟩,
    ⟨?_, ?_, 0x000083002000002C#64, ?_, ?_, ?_, .inl ⟨?_, ?_, rfl⟩⟩,
    ⟨?_, 0x0000E50000180000#64, ?_, ?_, ?_, ?_, ?_⟩⟩ <;> decide +kernel

/-! ### The commit and the load -/

/-- B's 32-bit descriptor in the image. -/
def descB32 : Desc := 0x0000890021000067#64

theorem goes32 : SwitchGoes e0 .jmp 0x20#16 descB32 (Plan.flat S1 0x20#16 descB32) 0x1000A#32 S1 :=
  goes_of_ok (by decide +kernel) (by decide +kernel) (by decide +kernel)

theorem goes32_call : SwitchGoes e0 .call 0x20#16 descB32 (Plan.flat S1 0x20#16 descB32) 0x1000A#32 S1 :=
  goes_of_ok (by decide +kernel) (by decide +kernel) (by decide +kernel)

theorem goes16_iret :
    SwitchGoes e0 .iret 0x20#16 descBusyB (Plan.flat WI 0x20#16 descBusyB) 0x1000A#32 WI :=
  goes_of_ok (by decide +kernel) (by decide +kernel) (by decide +kernel)

/-- An address is outside a range, compared as numbers. -/
def outside (q p : Word) (n : Nat) : Bool := decide (q.toNat < p.toNat) || decide (p.toNat + n ≤ q.toNat)

theorem notMem_of_outside {q p : Word} {n : Nat} (h : outside q p n = true) (hn : p.toNat + n ≤ 2 ^ 32) :
    q ∉ contig p n := by
  intro hq
  obtain ⟨k, hk, rfl⟩ := mem_contig.mp hq
  simp only [outside, Bool.or_eq_true, decide_eq_true_eq, BitVec.toNat_add, BitVec.toNat_ofNat] at h
  omega

theorem apart_of_outside {p : Plan} {nd : Desc} {s : State} {marked : List Word}
    (ho : p.oldTss.toNat + tssSize s.tr.is32 ≤ p.newTss.toNat)
    (hn : p.newTss.toNat + tssSize nd.is32 ≤ 2 ^ 32) (ha : p.oldAccess ≠ p.newAccess)
    (h' : (p.oldAccess :: p.newAccess :: marked).all (fun q =>
      outside q p.oldTss (tssSize s.tr.is32) && outside q p.newTss (tssSize nd.is32)) = true)
    (hm' : marked.all (fun q => q != p.oldAccess && q != p.newAccess) = true) :
    SwitchApart p nd s marked := by
  have h : ∀ q ∈ p.oldAccess :: p.newAccess :: marked,
      outside q p.oldTss (tssSize s.tr.is32) = true ∧ outside q p.newTss (tssSize nd.is32) = true :=
    fun q hq => by simpa using List.all_eq_true.mp h' q hq
  have hm : ∀ q ∈ marked, q ≠ p.oldAccess ∧ q ≠ p.newAccess :=
    fun q hq => by simpa using List.all_eq_true.mp hm' q hq
  have hnot : ∀ q ∈ p.oldAccess :: p.newAccess :: marked,
      q ∉ contig p.oldTss (tssSize s.tr.is32) ++ contig p.newTss (tssSize nd.is32) := by
    intro q hq
    rw [List.mem_append, not_or]
    exact ⟨notMem_of_outside (h q hq).1 (by omega), notMem_of_outside (h q hq).2 hn⟩
  refine ⟨List.nodup_cons.mpr ⟨?_, List.nodup_cons.mpr ⟨hnot _ (by simp), ?_⟩⟩, fun q hq => ?_⟩
  · rw [List.mem_cons, not_or]
    exact ⟨ha, hnot _ (by simp)⟩
  · refine List.nodup_append.mpr ⟨contig_nodup _ (by omega), contig_nodup _ (by omega), ?_⟩
    rintro a hx _ hy rfl
    obtain ⟨k, hk, rfl⟩ := mem_contig.mp hx
    refine notMem_of_outside ?_ hn hy
    simp only [outside, Bool.or_eq_true, decide_eq_true_eq, BitVec.toNat_add, BitVec.toNat_ofNat]
    omega
  · rw [List.mem_cons, List.mem_cons, not_or, not_or]
    exact ⟨(hm q hq).1, (hm q hq).2, hnot q (by simp [hq])⟩

/-- The marked places with paging off, once the descriptors loaded are known. -/
theorem marked_eq {e : Config.Env} {kind : SwitchKind} {newSel : Half} {nd : Desc} {p : Plan} {retEip : Word}
    {s : State} {ds : List Word} (hp : s.paging = false)
    (h : loadedDescs e (arrivalState e kind newSel nd p retEip s)
      (loadChecks (arrivalState e kind newSel nd p retEip s)) = ds) :
    markedPlaces e kind newSel nd p retEip s = ds.map (· + 5#32) := by
  have hp' : (arrivalState e kind newSel nd p retEip s).paging = false :=
    (commit_paging e p kind newSel nd retEip s).trans hp
  unfold markedPlaces accessedPlaces
  rw [h]
  clear h
  induction ds with
  | nil => rfl
  | cons d ds ih => rw [List.filterMap_cons, physical_flat hp']; simp only; rw [ih]; rfl

theorem apart32 : SwitchApart (Plan.flat S1 0x20#16 descB32) descB32 S1
    (markedPlaces e0 .jmp 0x20#16 descB32 (Plan.flat S1 0x20#16 descB32) 0x1000A#32 S1) := by
  rw [marked_eq (by decide) (ds := [0x1008#32, 0x1010#32, 0x1010#32, 0x1010#32, 0x1010#32, 0x1010#32]) (by decide +kernel)]
  exact apart_of_outside (by decide +kernel) (by decide +kernel) (by decide +kernel) (by decide +kernel)
    (by decide +kernel)

theorem apart32_call : SwitchApart (Plan.flat S1 0x20#16 descB32) descB32 S1
    (markedPlaces e0 .call 0x20#16 descB32 (Plan.flat S1 0x20#16 descB32) 0x1000A#32 S1) := by
  rw [marked_eq (by decide) (ds := [0x1008#32, 0x1010#32, 0x1010#32, 0x1010#32, 0x1010#32, 0x1010#32]) (by decide +kernel)]
  exact apart_of_outside (by decide +kernel) (by decide +kernel) (by decide +kernel) (by decide +kernel)
    (by decide +kernel)

theorem apart16_iret : SwitchApart (Plan.flat WI 0x20#16 descBusyB) descBusyB WI
    (markedPlaces e0 .iret 0x20#16 descBusyB (Plan.flat WI 0x20#16 descBusyB) 0x1000A#32 WI) := by
  rw [marked_eq (by decide) (ds := [0x1008#32, 0x1010#32, 0x1010#32, 0x1010#32]) (by decide +kernel)]
  exact apart_of_outside (by decide +kernel) (by decide +kernel) (by decide +kernel) (by decide +kernel)
    (by decide +kernel)

/-- A completed switch, and V12 a: one whose check K11 fails. -/
theorem witness_SwitchLoadsTaskRegisterAndSetsTs :
    (descAt e0 S1 (gdtAddr S1 0x20#16) = some descB32 ∧
      ∃ t, taskSwitch e0 .jmp 0x20#16 0x1000A#32 S1 = .ok t) ∧
    (descAt e0 (put S1 0x214C [0x10]) (gdtAddr S1 0x20#16) = some descB32 ∧
      SwitchReady e0 .jmp 0x20#16 descB32 (Plan.flat S1 0x20#16 descB32) (put S1 0x214C [0x10]) ∧
      raisedAnd (taskSwitch e0 .jmp 0x20#16 0x1000A#32 (put S1 0x214C [0x10])) .ts (some 0x10#16)
        (fun _ => true) = true) := by
  refine ⟨⟨by decide +kernel, _, (taskSwitch_goes goes32).choose_spec.1⟩, by decide +kernel,
    ⟨rfl, by decide, by decide +kernel, by decide +kernel, by decide +kernel, by decide +kernel,
      plan_flat (by decide)⟩, by decide +kernel⟩

/-- A JMP, a CALL and an IRET, between tasks that do not overlap. -/
theorem witness_TableSixTwo :
    (SwitchGoes e0 .jmp 0x20#16 descB32 (Plan.flat S1 0x20#16 descB32) 0x1000A#32 S1 ∧
      (∃ t, taskSwitch e0 .jmp 0x20#16 0x1000A#32 S1 = .ok t) ∧
      SwitchApart (Plan.flat S1 0x20#16 descB32) descB32 S1
        (markedPlaces e0 .jmp 0x20#16 descB32 (Plan.flat S1 0x20#16 descB32) 0x1000A#32 S1)) ∧
    (SwitchGoes e0 .call 0x20#16 descB32 (Plan.flat S1 0x20#16 descB32) 0x1000A#32 S1 ∧
      (∃ t, taskSwitch e0 .call 0x20#16 0x1000A#32 S1 = .ok t) ∧
      SwitchApart (Plan.flat S1 0x20#16 descB32) descB32 S1
        (markedPlaces e0 .call 0x20#16 descB32 (Plan.flat S1 0x20#16 descB32) 0x1000A#32 S1)) ∧
    (SwitchGoes e0 .iret 0x20#16 descBusyB (Plan.flat WI 0x20#16 descBusyB) 0x1000A#32 WI ∧
      (∃ t, taskSwitch e0 .iret 0x20#16 0x1000A#32 WI = .ok t) ∧
      SwitchApart (Plan.flat WI 0x20#16 descBusyB) descBusyB WI
        (markedPlaces e0 .iret 0x20#16 descBusyB (Plan.flat WI 0x20#16 descBusyB) 0x1000A#32 WI)) :=
  ⟨⟨goes32, ⟨_, (taskSwitch_goes goes32).choose_spec.1⟩, apart32⟩,
   ⟨goes32_call, ⟨_, (taskSwitch_goes goes32_call).choose_spec.1⟩, apart32_call⟩,
   ⟨goes16_iret, ⟨_, (taskSwitch_goes goes16_iret).choose_spec.1⟩, apart16_iret⟩⟩

/-- Both clauses: a 32-bit and a 16-bit old task. -/
theorem witness_OldTaskIsSaved :
    (SwitchGoes e0 .jmp 0x20#16 descB32 (Plan.flat S1 0x20#16 descB32) 0x1000A#32 S1 ∧
      (∃ t, taskSwitch e0 .jmp 0x20#16 0x1000A#32 S1 = .ok t) ∧
      SwitchApart (Plan.flat S1 0x20#16 descB32) descB32 S1
        (markedPlaces e0 .jmp 0x20#16 descB32 (Plan.flat S1 0x20#16 descB32) 0x1000A#32 S1) ∧
      S1.tr.is32 = true) ∧
    (SwitchGoes e0 .iret 0x20#16 descBusyB (Plan.flat WI 0x20#16 descBusyB) 0x1000A#32 WI ∧
      (∃ t, taskSwitch e0 .iret 0x20#16 0x1000A#32 WI = .ok t) ∧
      SwitchApart (Plan.flat WI 0x20#16 descBusyB) descBusyB WI
        (markedPlaces e0 .iret 0x20#16 descBusyB (Plan.flat WI 0x20#16 descBusyB) 0x1000A#32 WI) ∧
      WI.tr.is32 = false) :=
  ⟨⟨goes32, ⟨_, (taskSwitch_goes goes32).choose_spec.1⟩, apart32, rfl⟩,
   ⟨goes16_iret, ⟨_, (taskSwitch_goes goes16_iret).choose_spec.1⟩, apart16_iret, rfl⟩⟩

/-- Both clauses: a 32-bit new task, nested, and a 16-bit one. -/
theorem witness_NewTaskIsLoaded :
    (SwitchGoes e0 .call 0x20#16 descB32 (Plan.flat S1 0x20#16 descB32) 0x1000A#32 S1 ∧
      (∃ t, taskSwitch e0 .call 0x20#16 0x1000A#32 S1 = .ok t) ∧
      SwitchApart (Plan.flat S1 0x20#16 descB32) descB32 S1
        (markedPlaces e0 .call 0x20#16 descB32 (Plan.flat S1 0x20#16 descB32) 0x1000A#32 S1) ∧
      descB32.is32 = true) ∧
    (SwitchGoes e0 .iret 0x20#16 descBusyB (Plan.flat WI 0x20#16 descBusyB) 0x1000A#32 WI ∧
      (∃ t, taskSwitch e0 .iret 0x20#16 0x1000A#32 WI = .ok t) ∧
      SwitchApart (Plan.flat WI 0x20#16 descBusyB) descBusyB WI
        (markedPlaces e0 .iret 0x20#16 descBusyB (Plan.flat WI 0x20#16 descBusyB) 0x1000A#32 WI) ∧
      descBusyB.is32 = false) :=
  ⟨⟨goes32_call, ⟨_, (taskSwitch_goes goes32_call).choose_spec.1⟩, apart32_call, by decide⟩,
   ⟨goes16_iret, ⟨_, (taskSwitch_goes goes16_iret).choose_spec.1⟩, apart16_iret, by decide⟩⟩

/-! ### The checks of step 13 -/

/-- S1 with an LDT descriptor as GDT entry 7 (base 3000H, limit 0FH, access byte `a`) and a selector in
LDTR, as step 13 loads it. -/
def SL (a : Nat) (sel : Half) : State :=
  { put S1 0x1038 [0x0F, 0, 0, 0x30, 0, a, 0, 0] with ldtr := { sel := sel, hidden := none } }

/-- Null; outside (TI set, and the first selector beyond the GDT); another descriptor; present and not. -/
theorem witness_LdtChecks :
    selNull (SL 0x82 0#16).ldtr.sel = true ∧
    (selNull (SL 0x82 0x3C#16).ldtr.sel = false ∧ selTI (SL 0x82 0x3C#16).ldtr.sel = true) ∧
    (selNull 0x40#16 = false ∧ S1.gdtr.limit.toNat < 8 * selIndex 0x40#16 + 7) ∧
    (∃ d : Desc, selTI 0x10#16 = false ∧ 8 * selIndex 0x10#16 + 7 ≤ S1.gdtr.limit.toNat ∧
      descAt e0 (SL 0x82 0x10#16) (gdtAddr S1 0x10#16) = some d ∧ d.s = true) ∧
    (∃ d : Desc, selTI 0x38#16 = false ∧ 8 * selIndex 0x38#16 + 7 ≤ S1.gdtr.limit.toNat ∧
      descAt e0 (SL 0x82 0x38#16) (gdtAddr S1 0x38#16) = some d ∧ d.s = false ∧ d.type = 2#4 ∧ d.p = true) ∧
    (∃ d : Desc, descAt e0 (SL 0x02 0x38#16) (gdtAddr S1 0x38#16) = some d ∧ d.s = false ∧ d.type = 2#4 ∧
      d.p = false) := by
  refine ⟨by decide, by decide, by decide, ⟨0x00CF92000000FFFF#64, ?_, ?_, ?_, ?_⟩,
    ⟨0x000082003000000F#64, ?_, ?_, ?_, ?_, ?_, ?_⟩, ⟨0x000002003000000F#64, ?_, ?_, ?_, ?_⟩⟩ <;>
    decide +kernel

/-- A state whose CS, SS and DS hold a selector. -/
def withSel (sel : Half) : State :=
  { S1 with
    cs := { sel := sel, hidden := none }, ss := { sel := sel, hidden := none }
    ds := { sel := sel, hidden := none } }

/-- A null selector; the first one outside the GDT, and one with TI set and no LDT; a code segment
(execute-only or readable, conforming or not is in its descriptor) and a data segment. -/
theorem witness_CodeSegmentChecks :
    selNull (withSel 3#16).cs.sel = true ∧ OutsideTable e0 (withSel 0x40#16) (withSel 0x40#16).cs.sel ∧
    OutsideTable e0 (withSel 0x0C#16) (withSel 0x0C#16).cs.sel ∧
    NamesDesc e0 (withSel 8#16) (withSel 8#16).cs.sel 0x00CF9A000000FFFF#64 ∧
    NamesDesc e0 (withSel 0x10#16) (withSel 0x10#16).cs.sel 0x00CF92000000FFFF#64 ∧
    Desc.s 0x00CF9A000000FFFF#64 = true ∧ (Desc.type 0x00CF9A000000FFFF#64).getLsbD 3 = true := by
  refine ⟨by decide, ⟨?_, ?_, ?_⟩, ⟨?_, ?_, ?_⟩, ⟨?_, ?_, ?_, ?_⟩, ⟨?_, ?_, ?_, ?_⟩, ?_, ?_⟩ <;> decide +kernel

theorem witness_StackSegmentChecks :
    selNull (withSel 3#16).ss.sel = true ∧ OutsideTable e0 (withSel 0x40#16) (withSel 0x40#16).ss.sel ∧
    NamesDesc e0 (withSel 8#16) (withSel 8#16).ss.sel 0x00CF9A000000FFFF#64 ∧
    NamesDesc e0 (withSel 0x13#16) (withSel 0x13#16).ss.sel 0x00CF92000000FFFF#64 ∧
    Desc.s 0x00CF92000000FFFF#64 = true ∧ (Desc.type 0x00CF92000000FFFF#64).getLsbD 3 = false ∧
    (Desc.type 0x00CF92000000FFFF#64).getLsbD 1 = true := by
  refine ⟨by decide, ⟨?_, ?_, ?_⟩, ⟨?_, ?_, ?_, ?_⟩, ⟨?_, ?_, ?_, ?_⟩, ?_, ?_, ?_⟩ <;> decide +kernel

theorem witness_DataSegmentChecks :
    selNull ((withSel 3#16).seg DataSeg.ds.name).sel = true ∧
    OutsideTable e0 (withSel 0x40#16) ((withSel 0x40#16).seg DataSeg.ds.name).sel ∧
    NamesDesc e0 (withSel 0x18#16) ((withSel 0x18#16).seg DataSeg.ds.name).sel 0x00008B0020000067#64 ∧
    NamesDesc e0 (withSel 0x10#16) ((withSel 0x10#16).seg DataSeg.ds.name).sel 0x00CF92000000FFFF#64 ∧
    Desc.s 0x00CF92000000FFFF#64 = true := by
  refine ⟨by decide, ⟨?_, ?_, ?_⟩, ⟨?_, ?_, ?_, ?_⟩, ⟨?_, ?_, ?_, ?_⟩, ?_⟩ <;> decide +kernel

theorem witness_SelectorsAreLookedUpInTheirTable :
    selTI 0x38#16 = false ∧ selTI 0x0C#16 = true ∧
    WL.ldtr.hidden = some { base := 0x1000#32, limit := 0x3F#32, attr := 0x82#16 } ∧ W.ldtr.hidden = none ∧
    ldtHidden e0 (SL 0x82 0x38#16) = some { base := 0x3000#32, limit := 0x0F#32, attr := 0x0082#16 } ∧
    ldtHidden e0 (SL 0x02 0x38#16) = none := by decide +kernel

theorem witness_DefaultCheckOrder : S1.params = Config.Params.default := by decide

/-- An LDT selector, and code, stack and data selectors in the GDT, with paging on. -/
def SPL : State := { SL 0x82 0x38#16 with cr0 := 0x80000001#32 }

/-- Each clause: K3 fails for the current task; K5 fails for a code segment as LDT, K10 for an LDT not present;
K11, K7 and K14 fail for segments of another kind; and CS, SS and DS with TI set under a failing K5 or K10. -/
theorem witness_ChecksThatNeedAFailingOneAreSkipped :
    preCheck .jmp 0x00008B0020000067#64 S1 .k3 = some .gp ∧
    checkFailure e0 (SL 0x82 8#16) .ldtValid = some (.fails .ts 8#16) ∧
    checkFailure e0 (withSel 0x10#16) .csValid = some (.fails .ts 0x10#16) ∧
    checkFailure e0 (withSel 8#16) .ssValid = some (.fails .ts 8#16) ∧
    checkFailure e0 (withSel 0x18#16) (.dataValid .ds) = some (.fails .ts 0x18#16) ∧
    checkFailure e0 (SL 0x82 8#16) .ldtValid ≠ none ∧
    checkFailure e0 { SL 0x02 0x38#16 with cs := { sel := 0x0C#16, hidden := none } } .ldtPresent ≠ none ∧
    selTI 0x0C#16 = true := by decide +kernel

/-- The last byte of the LDT descriptor, of CS's, of SS's and of DS's, not present. -/
theorem witness_AbsentDescriptorPageFaults :
    (selNull 0x38#16 = false ∧ selTI 0x38#16 = false ∧ 8 * selIndex 0x38#16 + 7 ≤ SPL.gdtr.limit.toNat ∧
      SPL.ldtr.sel = 0x38#16 ∧ descAt (without 0x103F#32) SPL (gdtAddr SPL 0x38#16) = none) ∧
    NamesAbsent (without 0x100F#32) SPL SPL.cs.sel ∧ NamesAbsent (without 0x1017#32) SPL SPL.ss.sel ∧
    NamesAbsent (without 0x1017#32) SPL (SPL.seg DataSeg.ds.name).sel := by
  refine ⟨by decide +kernel, ⟨?_, ?_, ?_, ?_⟩, ⟨?_, ?_, ?_, ?_⟩, ⟨?_, ?_, ?_, ?_⟩⟩ <;> decide +kernel

/-- V12 a (CS a data segment) and i (DS a TSS descriptor): what holds before the failing check, and that
the first leaves SS not loaded, the second loads it. -/
theorem witness_FailedCheckIsReportedInTheNewTask :
    (∃ after, SwitchReady e0 .jmp 0x20#16 descB32 (Plan.flat S1 0x20#16 descB32) (put S1 0x214C [0x10]) ∧
      LoadReady e0 .jmp 0x20#16 descB32 (Plan.flat S1 0x20#16 descB32) 0x1000A#32 (put S1 0x214C [0x10]) ∧
      loadChecks (arrivalState e0 .jmp 0x20#16 descB32 (Plan.flat S1 0x20#16 descB32) 0x1000A#32
        (put S1 0x214C [0x10])) =
        [.ldtValid, .csDpl, .ssValid, .ssPresent, .ssDplCpl, .ldtPresent] ++ .csValid :: after ∧
      (∀ k ∈ [Check.ldtValid, .csDpl, .ssValid, .ssPresent, .ssDplCpl, .ldtPresent],
        checkFailure e0 (arrivalState e0 .jmp 0x20#16 descB32 (Plan.flat S1 0x20#16 descB32) 0x1000A#32
          (put S1 0x214C [0x10])) k = none) ∧
      checkFailure e0 (arrivalState e0 .jmp 0x20#16 descB32 (Plan.flat S1 0x20#16 descB32) 0x1000A#32
        (put S1 0x214C [0x10])) .csValid = some (.fails .ts 0x10#16)) ∧
    (∃ k ∈ SegName.checks .ss, k ∉ [Check.ldtValid, .csDpl, .ssValid, .ssPresent, .ssDplCpl, .ldtPresent]) ∧
    (∀ k ∈ [Check.ldtValid, .csDpl, .ssValid, .ssPresent, .ssDplCpl, .ldtPresent, .csValid, .csPresent,
        .ssDplRpl],
      checkFailure e0 (arrivalState e0 .jmp 0x20#16 descB32 (Plan.flat S1 0x20#16 descB32) 0x1000A#32
        (put S1 0x2154 [0x30])) k = none) ∧
    checkFailure e0 (arrivalState e0 .jmp 0x20#16 descB32 (Plan.flat S1 0x20#16 descB32) 0x1000A#32
      (put S1 0x2154 [0x30])) (.dataValid .ds) = some (.fails .ts 0x30#16) ∧
    (∀ k ∈ SegName.checks .ss, k ∈ [Check.ldtValid, .csDpl, .ssValid, .ssPresent, .ssDplCpl, .ldtPresent,
      .csValid, .csPresent, .ssDplRpl]) := by
  refine ⟨⟨_, ⟨rfl, by decide, by decide +kernel, by decide +kernel, by decide +kernel, by decide +kernel,
    plan_flat (by decide)⟩, ⟨by decide +kernel, by decide +kernel⟩, rfl, by decide +kernel,
    by decide +kernel⟩, by decide, by decide +kernel, by decide +kernel, by decide⟩

/-- A page fault: the last byte of CS's descriptor is not present, so K6, the first check that reads it, reports
it after K5. -/
theorem witness_FailedCheckIsReportedInTheNewTask_pageFault :
    ∃ after, SwitchReady (without 0x100F#32) .jmp 0x20#16 descB32 (Plan.flat SP 0x20#16 descB32) SP ∧
      LoadReady (without 0x100F#32) .jmp 0x20#16 descB32 (Plan.flat SP 0x20#16 descB32) 0x1000A#32 SP ∧
      loadChecks (arrivalState (without 0x100F#32) .jmp 0x20#16 descB32 (Plan.flat SP 0x20#16 descB32)
        0x1000A#32 SP) = [.ldtValid] ++ .csDpl :: after ∧
      (∀ k ∈ [Check.ldtValid], checkFailure (without 0x100F#32) (arrivalState (without 0x100F#32) .jmp 0x20#16
        descB32 (Plan.flat SP 0x20#16 descB32) 0x1000A#32 SP) k = none) ∧
      checkFailure (without 0x100F#32) (arrivalState (without 0x100F#32) .jmp 0x20#16 descB32
        (Plan.flat SP 0x20#16 descB32) 0x1000A#32 SP) .csDpl = some .pageFault := by
  refine ⟨_, ⟨rfl, by decide, by decide +kernel, by decide +kernel, by decide +kernel, by decide +kernel,
    by decide +kernel⟩, ⟨by decide +kernel, by decide +kernel⟩, rfl, by decide +kernel, by decide +kernel⟩

/-- A null selector, with nothing changed; and B's CS field a data segment, in the new task. Neither #GP in
S1 nor #TS in W has a task gate. -/
theorem witness_ExceptionsUndoOrComplete :
    exec (.jmpPtr32 0#16 0#32) S1 = .fault (.exception .gp (some 0#16) S1) ∧
    (∃ u, exec (.jmpPtr32 0x20#16 0#32) (put W 0x2124 [0x10]) = .fault (.exception .ts (some 0x10#16) u)) := by
  have h : (match exec (.jmpPtr32 0x20#16 0#32) (put W 0x2124 [0x10]) with
      | .fault (.exception x c _) => x == Exc.ts && c == some 0x10#16
      | _ => false) = true := by decide +kernel
  constructor
  · rfl
  · split at h
    · next x c u hx =>
      rw [Bool.and_eq_true, beq_iff_eq, beq_iff_eq] at h
      obtain ⟨rfl, rfl⟩ := h
      exact ⟨u, hx⟩
    · cases h

/-! ### Descriptors and memory -/

theorem witness_EffectiveLimit :
    Desc.g 0x0000890021000067#64 = false ∧ Desc.g 0x00CF9A000000FFFF#64 = true := by decide

theorem witness_MemoryIsLittleEndian : S1.paging = false := by decide

end Sys2Proof.Tests
end

section
namespace Sys2Proof.Machine

/-- Settles O9: `State.reset` writes TR's selector, base and limit (10_state.md R44) and `pendingTaskTrap` (R46)
as literals, so each conjunct is one of its fields read back. -/
theorem resetTaskRegister : Obligations.ResetTaskRegister :=
  ⟨rfl, rfl, rfl, rfl⟩

end Sys2Proof.Machine
end

section
namespace Sys2Proof.Machine

theorem Desc.effLimit_of_byteGranular {d : Desc} (hg : d.g = false) :
    d.effLimit = d.limit20.setWidth 32 := by
  simp [Desc.effLimit, hg]

theorem Desc.effLimit_of_pageGranular {d : Desc} (hg : d.g = true) :
    d.effLimit = d.limit20 ++ 0xFFF#12 := by
  simp [Desc.effLimit, hg]

/-- The appended 12 ones are the offset within the last 4-KByte unit, so they add without a carry. -/
theorem Desc.toNat_effLimit_of_pageGranular {d : Desc} (hg : d.g = true) :
    d.effLimit.toNat = d.limit20.toNat * 4096 + 4095 := by
  calc d.effLimit.toNat
      = (d.limit20 ++ 0xFFF#12).toNat := congrArg BitVec.toNat (effLimit_of_pageGranular hg)
    _ = d.limit20.toNat * 2 ^ 12 + (0xFFF#12).toNat := append_toNat _ _

/-- Settles O58 (20_memory.md R67): `G` chooses the branch of `Desc.effLimit`, and for `G = 1` the appended
`FFFH` is `limit20 * 4096 + 4095`. -/
theorem effectiveLimit : Obligations.EffectiveLimit := fun _ =>
  ⟨Desc.effLimit_of_byteGranular, fun hg =>
    ⟨Desc.effLimit_of_pageGranular hg, Desc.toNat_effLimit_of_pageGranular hg⟩⟩

end Sys2Proof.Machine
end

section
namespace Sys2Proof.Machine

open Config (CheckId)

/-! ## A failing check of K2 to K4 (42_task_switch.md R164) -/

/-- Once K1 holds and the descriptor is read, the first check of K2 to K4 that fails is what the switch raises,
in the state on entry. -/
theorem taskSwitch_of_preCheck_fails {e : Config.Env} {kind : SwitchKind} {newSel : Half} {s : State}
    {nd : Desc} {x : Exc} (retEip : Word) (hl : s.tr.loaded = true) (hti : selTI newSel = false)
    (hin : 8 * selIndex newSel + 7 ≤ s.gdtr.limit.toNat) (hd : descAt e s (gdtAddr s newSel) = some nd)
    (hx : (checkOrder s).findSome? (preCheck kind nd s) = some x) :
    taskSwitch e kind newSel retEip s = .error (.raised x (some (errSel newSel ||| kind.ext)) s) := by
  have hg : inGdt s newSel = true := decide_eq_true hin
  have hpre : preChecks e kind newSel s = .error (.raised x (some (errSel newSel ||| kind.ext)) s) := by
    simp [preChecks, hti, hg, hd, hx]
  simp [taskSwitch, hl, hpre]

theorem preCheck_k2_notPresent {kind : SwitchKind} {nd : Desc} {s : State} (hp : nd.p = false) :
    preCheck kind nd s .k2 = some .np := by
  simp [preCheck, hp]

/-- In the order of Table 6-1 K2 comes before K3 and K4. -/
theorem findSome_table_notPresent {kind : SwitchKind} {nd : Desc} {s : State} (hp : nd.p = false)
    (ho : s.params.checkOrder = CheckId.table) :
    (checkOrder s).findSome? (preCheck kind nd s) = some .np := by
  have hk1 : preCheck kind nd s .k1 = none := rfl
  rw [checkOrder, ho, CheckId.table, List.cons_append, List.cons_append, List.findSome?_cons_of_isNone (by simp [hk1]),
    List.findSome?_cons, preCheck_k2_notPresent hp]

/-- With K3 and K4 holding, K2 is the only check that can fail, so the order does not matter. -/
theorem preCheck_none_of_ne_k2 {kind : SwitchKind} {nd : Desc} {s : State} (hb : busyTestOk kind nd = true)
    (hl : minLimit s nd ≤ nd.effLimit.toNat) (k : CheckId) (hk : k ≠ .k2) : preCheck kind nd s k = none := by
  cases k with
  | k2 => exact absurd rfl hk
  | k3 => exact if_pos hb
  | k4 => simp [preCheck, hl]
  | _ => rfl

/-- Settles O38 (R165): K2 fails, and it is the first check that does, in the order of Table 6-1 or because
K3 and K4 hold. -/
theorem notPresentTaskFails : Obligations.NotPresentTaskFails := by
  intro e kind newSel retEip s nd hl hti hin hd hp h
  refine taskSwitch_of_preCheck_fails retEip hl hti hin hd ?_
  rcases h with ho | ⟨htss, hbusy, hlim⟩
  · exact findSome_table_notPresent hp ho
  · exact findSome_order .k2 (preCheck_k2_notPresent hp)
      (preCheck_none_of_ne_k2 (busyTestOk_iff.mpr ⟨htss, hbusy⟩) hlim)

end Sys2Proof.Machine
end

section
namespace Sys2Proof.Machine

/-! ## TR and CR0.TS past the commit point -/

/-- STR to a 16-bit register reads TR's selector (40_task_register_instructions.md R131). -/
theorem low_of_str_reg16 {e : Config.Env} {r : Reg} {t u : State} (h : str e (.reg16 r) t = .ok u) :
    low (u.gpr.get r) = t.tr.sel := by
  cases h
  show low ((t.gpr.set r (withLow (t.gpr.get r) t.tr.sel)).get r) = t.tr.sel
  rw [Gprs.get_set_same, withLow, low_append]

theorem cr0TS_setTS (c : Word) : cr0TS (setTS c) = true := by
  simp [cr0TS, setTS]

theorem busyAttr_type1 (a : Half) : (busyAttr a).getLsbD 1 = true := by
  simp [busyAttr]

/-- A switch that completes, or that was ready and raises an exception, is past the commit point, and the
descriptor it entered the task with is the one its selector names. -/
theorem inNewTask_of_pastCommit {e : Config.Env} {kind : SwitchKind} {newSel : Half} {retEip : Word}
    {s t : State} {nd : Desc} (hd : descAt e s (gdtAddr s newSel) = some nd)
    (h : taskSwitch e kind newSel retEip s = .ok t ∨
      ((∃ p, SwitchReady e kind newSel nd p s) ∧
        ∃ x code, taskSwitch e kind newSel retEip s = .error (.raised x code t))) :
    ∃ p marked, InNewTask e kind newSel nd p retEip s marked t := by
  rcases h with hok | ⟨⟨p, hready⟩, x, code, hraised⟩
  · obtain ⟨nd', p, hgoes, harr⟩ := taskSwitch_ok hok
    cases hd.symm.trans hgoes.ready.desc
    exact ⟨p, _, harr.inNewTask⟩
  · exact ⟨p, inNewTask_of_raised hready hraised⟩

/-- Settles O43 (R176, R177): completed or stopped at a check of step 13, the switch is in the new task, and
`InNewTask` gives CR0 and TR, which STR reads. -/
theorem switchLoadsTaskRegisterAndSetsTs : Obligations.SwitchLoadsTaskRegisterAndSetsTs := by
  intro e kind newSel retEip s t nd hd h
  obtain ⟨p, marked, hin⟩ := inNewTask_of_pastCommit hd h
  have htr := hin.tr
  refine ⟨hin.cr0, ?_, by rw [htr], by rw [htr], by rw [htr], by rw [htr], ?_, fun r u hstr => ?_⟩
  · rw [hin.cr0]
    exact cr0TS_setTS s.cr0
  · rw [htr]
    exact busyAttr_type1 nd.attr
  · rw [low_of_str_reg16 hstr, htr]

end Sys2Proof.Machine
end

section
namespace Sys2Proof.Machine

/-! ## A check on a descriptor that has been read -/

/-- A validity check rejects a null selector and one outside its table (R191, R195). -/
theorem validCheck_of_null_or_outside {l : Lookup} (ok : Desc → Bool) (sel : Half)
    (h : l = .null ∨ l = .outside) : validCheck l ok sel = some (.fails .ts sel) := by
  rcases h with rfl | rfl <;> rfl

/-- A validity check on a descriptor, with its condition written as a proposition. -/
theorem validCheck_found {P : Prop} [Decidable P] {ok : Desc → Bool} {d : Desc} {sel : Half}
    (h : ok d = true ↔ P) :
    validCheck (.found d) ok sel = if P then none else some (.fails .ts sel) :=
  if_congr h rfl rfl

/-- A check that needs the validity check, on a descriptor for which that one holds. -/
theorem descCheck_found {P : Prop} [Decidable P] {valid ok : Desc → Bool} {d : Desc} {x : Exc} {sel : Half}
    (hv : valid d = true) (h : ok d = true ↔ P) :
    descCheck (.found d) valid ok x sel = if P then none else some (.fails x sel) := by
  by_cases hP : P
  · simp [descCheck, h.mpr hP, hP]
  · simp [descCheck, hv, mt h.mp hP, hP]

theorem descCheck_null (valid ok : Desc → Bool) (x : Exc) (sel : Half) :
    descCheck .null valid ok x sel = none := rfl

theorem Desc.isLdt_iff {d : Desc} : d.isLdt = true ↔ d.s = false ∧ d.type = 2#4 := by
  simp [Desc.isLdt]

theorem Desc.isCode_iff {d : Desc} : d.isCode = true ↔ d.s = true ∧ d.type.getLsbD 3 = true := by
  simp [Desc.isCode]

theorem Desc.isWritableData_iff {d : Desc} : d.isWritableData = true ↔
    d.s = true ∧ d.type.getLsbD 3 = false ∧ d.type.getLsbD 1 = true := by
  simp [Desc.isWritableData, and_assoc]

theorem Desc.readable_iff {d : Desc} :
    d.readable = true ↔ d.type.getLsbD 3 = false ∨ d.type.getLsbD 1 = true := by
  simp [Desc.readable]

/-- K6's condition by the kind of code segment (R190). -/
theorem codeDplOk_iff {rpl : BitVec 2} {d : Desc} : codeDplOk rpl d = true ↔
    if d.type.getLsbD 2 then d.dpl.toNat ≤ rpl.toNat else d.dpl = rpl := by
  unfold codeDplOk Desc.conforming
  split
  · exact decide_eq_true_iff
  · exact beq_iff_eq

/-- K17's condition, for a descriptor that K14 lets through (R201). -/
theorem dataDplOk_iff {cpl : BitVec 2} {d : Desc} (hs : d.s = true) : dataDplOk cpl d = true ↔
    (d.type.getLsbD 3 = true ∧ d.type.getLsbD 2 = true) ∨ cpl.toNat ≤ d.dpl.toNat := by
  simp [dataDplOk, Desc.isCode, Desc.conforming, hs]

/-! ## The LDT of the new task (K5, K10) -/

theorem ldtLookup_outside {e : Config.Env} {l : State} (hn : selNull l.ldtr.sel = false)
    (h : selTI l.ldtr.sel = true ∨ l.gdtr.limit.toNat < 8 * selIndex l.ldtr.sel + 7) :
    ldtLookup e l = .outside := by
  have hout : (selTI l.ldtr.sel || !inGdt l l.ldtr.sel) = true := by
    simpa [inGdt, withinLimit] using h
  simp only [ldtLookup, hn, hout, Bool.false_eq_true, if_false, if_true]

theorem ldtLookup_found {e : Config.Env} {l : State} {d : Desc} (hn : selNull l.ldtr.sel = false)
    (hti : selTI l.ldtr.sel = false) (hin : 8 * selIndex l.ldtr.sel + 7 ≤ l.gdtr.limit.toNat)
    (hd : descAt e l (gdtAddr l l.ldtr.sel) = some d) : ldtLookup e l = .found d := by
  have hg : inGdt l l.ldtr.sel = true := decide_eq_true hin
  simp [ldtLookup, hn, hti, hg, hd]

theorem ldtHidden_null {e : Config.Env} {l : State} (h : selNull l.ldtr.sel = true) :
    ldtHidden e l = none := by
  rw [ldtHidden, ldtLookup_null h]

theorem ldtValid_found {d : Desc} {sel : Half} :
    ldtValid (.found d) sel = if d.s = false ∧ d.type = 2#4 then none else some (.fails .ts sel) :=
  if_congr Desc.isLdt_iff rfl rfl

theorem ldtPresent_found {d : Desc} {sel : Half} (hl : d.isLdt = true) :
    ldtPresent (.found d) sel = if d.p = true then none else some (.fails .ts sel) := by
  cases hp : d.p <;> simp [ldtPresent, hl, hp]

/-- A present LDT descriptor is in force, and its hidden part is the one LDTR takes (R194). -/
theorem ldtHidden_found {e : Config.Env} {l : State} {d : Desc} (h : ldtLookup e l = .found d)
    (hl : d.isLdt = true) (hp : d.p = true) : ldtHidden e l = some d.hidden := by
  have hok : ldtOk e l = true := by simp [ldtOk, h, ldtValid, ldtPresent, hl, hp]
  simp [ldtHidden, h, hok]

/-- With no LDT a selector with TI set is inside no table (R189). -/
theorem inTable_of_noLdt {e : Config.Env} {l : State} {sel : Half} (h : ldtHidden e l = none)
    (hti : selTI sel = true) : inTable (withNewLdt e l) sel = false := by
  simp [inTable, withNewLdt, hti, h]

/-- Settles O47 (R189, R194): one case for each answer of the look-up of the LDT selector: null, outside the
GDT, a descriptor. -/
theorem ldtChecks : Obligations.LdtChecks := by
  intro e l
  refine ⟨fun hn => ?null, fun hn hout => ?outside, fun d hn hti hin hd => ?found⟩
  case null =>
    have hl : ldtLookup e l = .null := ldtLookup_null hn
    exact ⟨by rw [checkFailure, hl, ldtValid], by rw [checkFailure, hl, ldtPresent], ldtHidden_null hn,
      fun _ => inTable_of_noLdt (ldtHidden_null hn)⟩
  case outside =>
    rw [checkFailure, ldtLookup_outside hn hout, ldtValid]
  case found =>
    have hl : ldtLookup e l = .found d := ldtLookup_found hn hti hin hd
    refine ⟨by rw [checkFailure, hl, ldtValid_found], fun hs ht => ?_⟩
    have hldt : d.isLdt = true := Desc.isLdt_iff.mpr ⟨hs, ht⟩
    exact ⟨by rw [checkFailure, hl, ldtPresent_found hldt], ldtHidden_found hl hldt⟩

/-! ## The segment registers of the new task (K6 to K9, K11 to K17) -/

/-- A selector that is null or outside its table is looked up to no descriptor. -/
theorem segLookup_null_or_outside {e : Config.Env} {l : State} {sel : Half}
    (h : selNull sel = true ∨ OutsideTable e l sel) :
    segLookup e l sel = .null ∨ segLookup e l sel = .outside :=
  h.imp segLookup_null segLookup_outside

/-- Settles O48 (R195, R190, R196): K11 decides whether CS has a code descriptor, and K6 and K12 are then its
DPL and P tests. -/
theorem codeSegmentChecks : Obligations.CodeSegmentChecks := by
  intro e l
  refine ⟨fun h => validCheck_of_null_or_outside _ _ (segLookup_null_or_outside h), fun d hd => ?_⟩
  have hl : segLookup e l l.cs.sel = .found d := segLookup_found hd
  simp only [checkFailure, hl]
  refine ⟨validCheck_found Desc.isCode_iff, fun hs ht => ?_⟩
  have hcode : d.isCode = true := Desc.isCode_iff.mpr ⟨hs, ht⟩
  exact ⟨descCheck_found hcode codeDplOk_iff, descCheck_found hcode Iff.rfl⟩

/-- Settles O49 (R191, R192, R193, R197): K7 decides whether SS has a writable data descriptor, and K8, K9 and
K13 are then its P test and its DPL against CPL and RPL. -/
theorem stackSegmentChecks : Obligations.StackSegmentChecks := by
  intro e l
  refine ⟨fun h => validCheck_of_null_or_outside _ _ (segLookup_null_or_outside h), fun d hd => ?_⟩
  have hl : segLookup e l l.ss.sel = .found d := segLookup_found hd
  simp only [checkFailure, hl]
  refine ⟨validCheck_found Desc.isWritableData_iff, fun hs ht hw => ?_⟩
  have hdata : d.isWritableData = true := Desc.isWritableData_iff.mpr ⟨hs, ht, hw⟩
  exact ⟨descCheck_found hdata Iff.rfl, descCheck_found hdata beq_iff_eq, descCheck_found hdata beq_iff_eq⟩

/-- A null selector loads no hidden part, whatever checks have held. -/
theorem segHidden_null {e : Config.Env} {l : State} {r : SegName} (passed : List Check)
    (h : selNull (l.seg r).sel = true) : segHidden e l passed r = none := by
  rw [segHidden, segLookup_null h]
  split <;> rfl

/-- Settles O50 (R198 to R201): a null selector passes K14 and skips the rest; a selector with a descriptor
is tested by K14, and K15 to K17 are then the readable, P and DPL tests. -/
theorem dataSegmentChecks : Obligations.DataSegmentChecks := by
  intro e l r
  refine ⟨fun hn => ?null, fun ho => ?outside, fun d hd => ?found⟩
  case null =>
    have hl : segLookup e l (l.seg r.name).sel = .null := segLookup_null hn
    simp only [checkFailure, hl, dataValidCheck, descCheck_null, true_and]
    exact fun passed => segHidden_null passed hn
  case outside =>
    rw [checkFailure, segLookup_outside ho]
    rfl
  case found =>
    have hl : segLookup e l (l.seg r.name).sel = .found d := segLookup_found hd
    simp only [checkFailure, hl]
    exact ⟨validCheck_found Iff.rfl, fun hs => ⟨descCheck_found hs Desc.readable_iff,
      descCheck_found hs Iff.rfl, descCheck_found hs (dataDplOk_iff hs)⟩⟩

end Sys2Proof.Machine
end

section
namespace Sys2Proof.Machine

/-! ## The rows of Table 6-2 (42_task_switch.md R205) -/

section
variable {e : Config.Env} {kind : SwitchKind} {newSel : Half} {nd : Desc} {p : Plan} {ret : Word} {s t : State}
  {M : List Word}

theorem clearsOldBusy_eq (kind : SwitchKind) :
    kind.clearsOldBusy = decide (kind = .jmp ∨ kind = .iret) := by
  cases kind <;> rfl

theorem setBusy_bit1 (b : Byte) : (setBusy b).getLsbD 1 = true := by
  simp [setBusy]

theorem clearBusy_bit1 (b : Byte) : (clearBusy b).getLsbD 1 = false := by
  simp [clearBusy]

/-- A list of writes leaves the byte at an address that is none of them. -/
theorem get_setList_of_notMem_addr {a : Word} {ps : List Word} (m : Memory) (bs : List Byte) (h : a ∉ ps) :
    (m.setList ps bs).get a.toNat = m.get a.toNat :=
  Memory.get_setList_of_notMem bs m fun _ hq he => h (BitVec.eq_of_toNat_eq he ▸ hq)

/-- Steps 7 to 9 store to the two TSSs only (R172, R173). -/
theorem memAfter9_get_of_notMem {a : Word} (m : Memory)
    (ho : a ∉ contig p.oldTss (tssSize s.tr.is32)) (hn : a ∉ contig p.newTss (tssSize nd.is32)) :
    (memAfter9 e p kind nd s (memAfter8 e p kind ret s m)).get a.toNat = m.get a.toNat := by
  have h8 : (memAfter8 e p kind ret s m).get a.toNat = m.get a.toNat :=
    get_setList_of_notMem_addr _ _ fun h => ho (contig_sub (save_le_tssSize _) h)
  unfold memAfter9
  split
  · rw [get_setList_of_notMem_addr _ _ fun h => hn (link_mem_tss h), h8]
  · exact h8

/-- Only steps 6 and 10 reach the access byte of the new task, and step 6 has another descriptor. -/
theorem commit_newAccess (ha : Apart p nd s M) :
    (commit e p kind newSel nd ret s).mem.get p.newAccess.toNat =
      if kind = .iret then s.mem.get p.newAccess.toNat else setBusy (s.mem.get p.newAccess.toNat) := by
  have h6 : (memAfter6 p kind s.mem).get p.newAccess.toNat = s.mem.get p.newAccess.toNat := by
    unfold memAfter6
    split
    · rw [lockedRmw_get, if_neg fun he => ha.oa_na (BitVec.eq_of_toNat_eq he).symm]
    · rfl
  have h9 := (memAfter9_get_of_notMem (e := e) (kind := kind) (ret := ret) (memAfter6 p kind s.mem)
    ha.na_old ha.na_new).trans h6
  show (memAfter10 p kind _).get _ = _
  unfold memAfter10
  split
  · exact h9
  · rw [lockedRmw_get, if_pos rfl, h9]

/-- Only step 6 reaches the access byte of the old task. -/
theorem commit_oldAccess (ha : Apart p nd s M) :
    (commit e p kind newSel nd ret s).mem.get p.oldAccess.toNat =
      if kind.clearsOldBusy then clearBusy (s.mem.get p.oldAccess.toNat) else s.mem.get p.oldAccess.toNat := by
  have h6 : (memAfter6 p kind s.mem).get p.oldAccess.toNat =
      if kind.clearsOldBusy then clearBusy (s.mem.get p.oldAccess.toNat) else s.mem.get p.oldAccess.toNat := by
    unfold memAfter6
    split
    · rw [lockedRmw_get, if_pos rfl]
    · rfl
  have h9 := (memAfter9_get_of_notMem (e := e) (kind := kind) (ret := ret) (memAfter6 p kind s.mem)
    ha.oa_old ha.oa_new).trans h6
  show (memAfter10 p kind _).get _ = _
  unfold memAfter10
  split
  · exact h9
  · rw [lockedRmw_get, if_neg fun he => ha.oa_na (BitVec.eq_of_toNat_eq he), h9]

/-- The new task is busy after every switch: its flag is set, or for IRET it was (R175). -/
theorem newAccess_busy (h : InNewTask e kind newSel nd p ret s M t) (ha : Apart p nd s M)
    (hb : (s.mem.get p.newAccess.toNat).getLsbD 1 = decide (kind = .iret)) :
    (t.mem.get p.newAccess.toNat).getLsbD 1 = true := by
  rw [inNewTask_get h ha.m_na, commit_newAccess ha]
  split
  · next hk => rw [hb, decide_eq_true hk]
  · exact setBusy_bit1 _

/-- The old task stays busy but for JMP and IRET (R169). -/
theorem oldAccess_busy (h : InNewTask e kind newSel nd p ret s M t) (ha : Apart p nd s M) :
    (t.mem.get p.oldAccess.toNat).getLsbD 1 =
      (!decide (kind = .jmp ∨ kind = .iret) && (s.mem.get p.oldAccess.toNat).getLsbD 1) := by
  rw [inNewTask_get h ha.m_oa, commit_oldAccess ha, ← clearsOldBusy_eq]
  cases kind.clearsOldBusy with
  | true => exact clearBusy_bit1 _
  | false => rfl

/-- The EFLAGS image step 13 loads is the one the new TSS held on entry, in either format. -/
theorem arrivalImage_eflags (ha : Apart p nd s M) :
    (arrivalImage e kind newSel nd p ret s).eflags = (tssImage e 0 s.mem p.newTss nd.is32).eflags := by
  unfold arrivalImage newImage tssImage
  cases h32 : nd.is32 with
  | true => rw [if_pos rfl, if_pos rfl, new_image32 ha h32]
  | false =>
    rw [if_neg Bool.false_ne_true, if_neg Bool.false_ne_true, new_image16 ha h32]
    rfl

theorem flagNT_savedFlags (kind : SwitchKind) (f : Word) :
    flagNT (savedFlags kind f) = (!decide (kind = .iret) && flagNT f) := by
  unfold savedFlags
  split
  · next hk => simp [hk, flagNT, clearNT]
  · next hk => simp [hk]

/-- NT is in the low half of EFLAGS, so a 16-bit TSS holds it too. -/
theorem flagNT_low (f : Word) : flagNT ((low f).setWidth 32) = flagNT f := by
  simp [flagNT, low]

/-- The EFLAGS image in the old TSS is the one step 7 saves, in either format (R170, R172, R180). -/
theorem oldTss_nt (h : InNewTask e kind newSel nd p ret s M t) (ha : Apart p nd s M) :
    flagNT (tssImage e 0 t.mem p.oldTss s.tr.is32).eflags = flagNT (savedFlags kind s.eflags) := by
  cases h32 : s.tr.is32 with
  | true =>
    have hf : tssBytes t.mem p.oldTss 36 4 = Word.bytes (savedFlags kind s.eflags) := by
      rw [old_field h ha (by rw [h32]; decide) (by rw [h32]; decide), saveBytes, h32]
      rfl
    have himg : (tssImage e 0 t.mem p.oldTss true).eflags = ofLe 32 (tssBytes t.mem p.oldTss 36 4) := rfl
    rw [himg, hf, ofLe_wordBytes]
  | false =>
    have hf : tssBytes t.mem p.oldTss 16 2 = Half.bytes (low (savedFlags kind s.eflags)) := by
      rw [old_field h ha (by rw [h32]; decide) (by rw [h32]; decide), saveBytes, h32]
      rfl
    have himg : (tssImage e 0 t.mem p.oldTss false).eflags =
        (ofLe 16 (tssBytes t.mem p.oldTss 16 2)).setWidth 32 := rfl
    rw [himg, hf, ofLe_halfBytes, flagNT_low]

/-- The link is at the first two of the addresses step 9 writes, in either format. -/
theorem contig_two_eq_take (a : Word) (b : Bool) : contig a 2 = (contig a (linkLength b)).take 2 := by
  cases b <;> rfl

theorem linkBytes_take (b : Bool) (sel free : Half) : (linkBytes b sel free).take 2 = Half.bytes sel := by
  cases b <;> rfl

/-- A nesting switch leaves the old TR selector in the new task's link (R173). -/
theorem commit_link (ha : Apart p nd s M) (hk : kind.nesting = true) :
    (commit e p kind newSel nd ret s).mem.getList (contig p.newTss 2) = Half.bytes s.tr.sel := by
  have h10 (m : Memory) :
      (memAfter10 p kind m).getList (contig p.newTss 2) = m.getList (contig p.newTss 2) := by
    unfold memAfter10
    split
    · rfl
    · refine getList_congr fun q hq => ?_
      rw [contig_two_eq_take p.newTss nd.is32] at hq
      have hq := link_mem_tss (List.mem_of_mem_take hq)
      have hne : q.toNat ≠ p.newAccess.toNat := fun he => ha.na_new (BitVec.eq_of_toNat_eq he ▸ hq)
      rw [lockedRmw_get, if_neg hne]
  have hnd : (contig p.newTss (linkLength nd.is32)).Nodup :=
    contig_nodup _ ((linkLength_le _).trans (tssSize_small _))
  have h9 := getList_setList_same
    (linkBytes nd.is32 s.tr.sel (e.draw16 (s.draws + saveDraws s.tr.is32)))
    (memAfter8 e p kind ret s (memAfter6 p kind s.mem)) hnd (by cases nd.is32 <;> rfl)
  calc (commit e p kind newSel nd ret s).mem.getList (contig p.newTss 2)
      = (memAfter9 e p kind nd s (memAfter8 e p kind ret s (memAfter6 p kind s.mem))).getList
          (contig p.newTss 2) := h10 _
    _ = ((linkBytes nd.is32 s.tr.sel (e.draw16 (s.draws + saveDraws s.tr.is32))).take 2) := by
        rw [memAfter9, if_pos hk, contig_two_eq_take p.newTss nd.is32, Memory.getList, List.map_take]
        exact congrArg (List.take 2) h9
    _ = Half.bytes s.tr.sel := linkBytes_take _ _ _

/-- The new task's link is written when nesting, and is left as it was else. -/
theorem newTss_link (h : InNewTask e kind newSel nd p ret s M t) (ha : Apart p nd s M) :
    ofLe 16 (tssBytes t.mem p.newTss 0 2) =
      if kind.nesting then s.tr.sel else ofLe 16 (tssBytes s.mem p.newTss 0 2) := by
  have hsize : 2 ≤ tssSize nd.is32 := by cases nd.is32 <;> decide
  have ht : tssBytes t.mem p.newTss 0 2 = tssBytes (commit e p kind newSel nd ret s).mem p.newTss 0 2 :=
    getList_congr fun q hq => inNewTask_get h fun r hr he => ha.m_new r hr (he ▸ contig_sub hsize hq)
  rw [ht]
  cases hk : kind.nesting with
  | true =>
    have hl : tssBytes (commit e p kind newSel nd ret s).mem p.newTss 0 2 = Half.bytes s.tr.sel := by
      simpa [tssBytes] using commit_link ha hk
    rw [hl, ofLe_halfBytes]
    rfl
  | false =>
    rw [new_field ha (by simp [hk]) hsize]
    rfl

end

/-- Settles O44 (R205): row by row, the byte or field that row names is followed from the state on entry
through the commit point to the state the switch leaves. -/
theorem tableSixTwo : Obligations.TableSixTwo := by
  intro e kind newSel nd p ret s t hgoes hok happart
  have hin := (arrived_of_goes hgoes hok).inNewTask
  have ha := apart_of_switchApart happart
  have hbusy : (s.mem.get p.newAccess.toNat).getLsbD 1 = decide (kind = .iret) :=
    (plan_newAccess hgoes.ready.pages hgoes.ready.desc).symm.trans hgoes.ready.busy.2
  refine ⟨hbusy, newAccess_busy hin ha hbusy, oldAccess_busy hin ha, ?_, ?_, newTss_link hin ha, ?_, ?_⟩
  · rw [hin.nt, arrivalImage_eflags ha]
  · rw [oldTss_nt hin ha, flagNT_savedFlags]
  · rw [old_static hin ha (by cases s.tr.is32 <;> decide) (.inl (by cases s.tr.is32 <;> decide))]
  · rw [hin.cr0]
    exact cr0TS_setTS s.cr0

end Sys2Proof.Machine
end

section
namespace Sys2Proof

/-! ## Decoding the encoder's bytes (30_encoding.md R112, R113) -/

/-- The bytes of an instruction that are all there and few enough decode to it, or behind a LOCK to #UD. -/
theorem decode_of_core {d : Bool} {bytes bs after : List Byte} {q : Prefixes} {i : Instr}
    (hscan : scanPrefixes .none bytes = (q, bs))
    (hcore : decodeCore (operandSize d q) (d != q.addrSize) q.seg bs = .instr i after)
    (hlen : bytes.length - after.length ≤ maxInstrBytes) :
    decode d bytes = if q.lock then .undefined else .instr i (bytes.length - after.length) := by
  simp only [decode, hscan, hcore, Nat.not_lt.mpr hlen, if_false]

/-- Settles O1: `decodeCore_encode` reads the instruction back, and 11 bytes are within the 15 of R112. -/
theorem decodeInvertsEncode : Obligations.DecodeInvertsEncode := by
  intro d i rest hw
  obtain ⟨q, bs, hscan, hlock, hcore⟩ := decodeCore_encode d false i rest hw
  have hlen : (encode d i).length ≤ 15 := (encode_length d i).trans (by decide)
  have hcut : (encode d i ++ rest).length - rest.length = (encode d i).length := by simp
  have hdec := decode_of_core hscan hcore (hcut ▸ hlen)
  rw [hlock, hcut] at hdec
  exact ⟨hdec, hlen⟩

/-- Settles O3: the LOCK byte only marks the prefixes, so the instruction behind it is read back as in O1, one
byte later, and the mark makes it #UD. -/
theorem lockPrefixIsUndefined : Obligations.LockPrefixIsUndefined := by
  intro d i rest hw
  obtain ⟨q, bs, hscan, hlock, hcore⟩ := decodeCore_encode d true i rest hw
  have hlen := encode_length d i
  have hscan' : scanPrefixes .none (0xF0#8 :: (encode d i ++ rest)) = (q, bs) := hscan
  rw [decode_of_core hscan' hcore (by simp [maxInstrBytes]; omega), hlock]
  rfl

/-- Settles O4: no opcode byte is scanned over, and the ModR/M byte alone leads to `.undefined`. -/
theorem undefinedEncodings : Obligations.UndefinedEncodings := by
  intro d modrm rest
  have hFF (bs : List Byte) : scanPrefixes .none (0xFF#8 :: bs) = (.none, 0xFF#8 :: bs) :=
    scan_stop _ noPrefix_FF bs
  have h0F (bs : List Byte) : scanPrefixes .none (0x0F#8 :: bs) = (.none, 0x0F#8 :: bs) :=
    scan_stop _ noPrefix_0F bs
  refine ⟨fun hmod hext => ?register, fun hext => ?ff7, fun hext => ?group6⟩
  case register =>
    rcases hext with hext | hext <;>
      simp [decode, hFF, decodeCore, decodeFF, withOperand, hmod, hext]
  case ff7 =>
    simp [decode, hFF, decodeCore, decodeFF, hext]
  case group6 =>
    rcases hext with hext | hext <;>
      simp [decode, h0F, decodeCore, decode0F00, hext]

/-- Settles O2 (95_test_vectors.md V16): each word is read to its end by evaluation. -/
theorem tableWordsDecode : Obligations.TableWordsDecode := by
  unfold Obligations.TableWordsDecode
  decide

end Sys2Proof
end

section
namespace Sys2Proof.Machine

/-! ## The hidden part a descriptor gives -/

theorem Desc.hidden_codeOrData (d : Desc) : d.hidden.codeOrData = d.s := attr_bit d 4 (by decide)

theorem Desc.hidden_present (d : Desc) : d.hidden.present = d.p := attr_bit d 7 (by decide)

theorem Desc.hidden_dpl (d : Desc) : d.hidden.dpl = d.dpl := dpl_attr d

theorem Desc.hidden_typeBit (d : Desc) {i : Nat} (hi : i < 4) : d.hidden.attr.getLsbD i = d.type.getLsbD i := by
  rw [type_bit d i hi]
  exact attr_bit d i (by omega)

theorem Desc.hidden_isCode (d : Desc) : d.hidden.isCode = d.isCode := by
  rw [Hidden.isCode, hidden_codeOrData, hidden_typeBit d (by decide), isCode]

theorem Desc.hidden_writable (d : Desc) : d.hidden.writable = d.isWritableData := by
  rw [Hidden.writable, hidden_codeOrData, hidden_typeBit d (by decide), hidden_typeBit d (by decide),
    isWritableData, Bool.and_assoc]

/-! ## What a completed switch leaves in CS and SS (42_task_switch.md R190 to R197) -/

section
variable {e : Config.Env} {kind : SwitchKind} {newSel : Half} {nd : Desc} {p : Plan} {ret : Word} {s t : State}

/-- CS is loaded from a present code segment whose DPL fits its selector's RPL. -/
theorem arrived_cs (hg : SwitchGoes e kind newSel nd p ret s) (ha : Arrived e kind newSel nd p ret s t) :
    ∃ d : Desc, t.cs.hidden = some d.hidden ∧ d.isCode = true ∧ codeDplOk (selRPL t.cs.sel) d = true ∧
      d.p = true := by
  obtain ⟨d, hd, hcode, hdpl, hp⟩ := cs_found hg.checks
  have hsel : t.cs.sel = (arrivalState e kind newSel nd p ret s).cs.sel := ha.inNewTask.sel .cs
  exact ⟨d, ha.hidden .cs d ((congrArg _ hsel).trans hd), hcode, hsel ▸ hdpl, hp⟩

/-- SS is loaded from a present writable data segment whose DPL is CPL and its selector's RPL. -/
theorem arrived_ss (hg : SwitchGoes e kind newSel nd p ret s) (ha : Arrived e kind newSel nd p ret s t) :
    ∃ d : Desc, t.ss.hidden = some d.hidden ∧ d.isWritableData = true ∧ d.dpl = t.cpl ∧
      d.dpl = selRPL t.ss.sel ∧ d.p = true := by
  obtain ⟨d, hd, hdata, hcpl, hrpl, hp⟩ := ss_found hg.checks
  have hcs : t.cs.sel = (arrivalState e kind newSel nd p ret s).cs.sel := ha.inNewTask.sel .cs
  have hss : t.ss.sel = (arrivalState e kind newSel nd p ret s).ss.sel := ha.inNewTask.sel .ss
  exact ⟨d, ha.hidden .ss d ((congrArg _ hss).trans hd), hdata, hcpl.trans (congrArg selRPL hcs.symm),
    hrpl.trans (congrArg _ hss.symm), hp⟩

/-- The state a switch that goes through completes in: `qualified` with the pending trap perhaps set. -/
theorem taskSwitch_goes_eq (hg : SwitchGoes e kind newSel nd p ret s)
    (ht : taskSwitch e kind newSel ret s = .ok t) :
    ∃ b, t = (qualified e (arrivalState e kind newSel nd p ret s)
      (loadChecks (arrivalState e kind newSel nd p ret s))).setTrap b := by
  rw [taskSwitch_ready hg.ready hg.load, qualify_none hg.checks] at ht
  cases ht
  split
  · exact ⟨true, rfl⟩
  · exact ⟨_, rfl⟩

theorem Early.draws {s u : State} (h : Early s u) : ∃ n, u = s.setDraws n := by
  rcases h with rfl | rfl
  · exact ⟨u.draws, rfl⟩
  · exact ⟨_, rfl⟩

/-- An exception of a task switch is raised in the state on entry, but for the count of free values, or in the
new task. -/
theorem taskSwitch_raised_cases {u : State} {x : Exc} {c : Option Half}
    (h : taskSwitch e kind newSel ret s = .error (.raised x c u)) :
    (∃ n, u = s.setDraws n) ∨ ∃ nd p marked, InNewTask e kind newSel nd p ret s marked u := by
  rcases taskSwitch_raised h with hearly | ⟨nd, p, held, _, _, _, _, _, _, _, _, _, _, hstop⟩
  · exact .inl hearly.draws
  · exact .inr ⟨nd, p, _, hstop.inNewTask⟩

end

/-! ## The canonical form of memory (20_memory.md section 1) -/

/-- The canonical form goes through whatever a switch completes in or raises an exception in. -/
theorem qualified_arrival_wf (e : Config.Env) (kind : SwitchKind) (newSel : Half) (nd : Desc) (p : Plan)
    (ret : Word) {s : State} (passed : List Check) (h : s.mem.wf = true) :
    (qualified e (arrivalState e kind newSel nd p ret s) passed).mem.wf = true :=
  qualified_wf e passed (commit_mem_wf (newSel := newSel) h)

theorem taskSwitch_raised_wf {e : Config.Env} {kind : SwitchKind} {newSel : Half} {ret : Word} {s u : State}
    {x : Exc} {c : Option Half} (hw : s.mem.wf = true)
    (h : taskSwitch e kind newSel ret s = .error (.raised x c u)) : u.mem.wf = true := by
  rcases taskSwitch_raised h with hearly | ⟨nd, p, held, _, _, _, _, _, _, _, _, _, ⟨b, n, rfl⟩, _⟩
  · obtain ⟨n, rfl⟩ := hearly.draws
    exact hw
  · exact qualified_arrival_wf e kind newSel nd p ret held hw

theorem kept_memWf (e : Config.Env) : Kept e (·.mem.wf = true) (·.mem.wf = true) where
  weaken _ h := h
  draws _ _ h := h
  trap _ _ h := h
  event _ _ h := h
  nextEip _ _ h := h
  ltr _ _ _ _ q h _ := lockedRmw_wf q setBusy h
  strReg _ _ _ h := h
  strMem _ ps bs h := Memory.wf_setList ps bs h
  push _ ps bs _ _ h := Memory.wf_setList ps bs h
  arrive s t kind newSel nd p ret h hg _ ht := by
    obtain ⟨b, rfl⟩ := taskSwitch_goes_eq hg ht
    exact qualified_arrival_wf e kind newSel nd p ret _ h
  raised _ _ _ _ _ _ _ h hx := taskSwitch_raised_wf h hx

/-- Settles O12: every write of a step is a `set` or a `setList`, and both keep the form. -/
theorem memoryStaysCanonical : Obligations.MemoryStaysCanonical :=
  fun _ _ h hstep => (kept_memWf Config.env).step h hstep

/-! ## Mode (70_reset_and_hazards.md R262, 10_state.md R24) -/

theorem State.legal_iff {s : State} : s.legal = true ↔
    s.protectedMode = true ∧ ∃ h, s.cs.hidden = some h ∧ h.isCode = true := by
  unfold State.legal
  cases s.cs.hidden <;> simp

theorem State.protectedMode_iff {s : State} :
    s.protectedMode = true ↔ cr0PE s.cr0 = true ∧ flagVM s.eflags = false := by
  simp [State.protectedMode]

theorem cr0PE_setTS (c : Word) : cr0PE (setTS c) = cr0PE c := by
  simp [cr0PE, setTS]

/-- The new task is no virtual-8086 task, as its EFLAGS image is none (42_task_switch.md R186, D24). -/
theorem inNewTask_notV86 {e : Config.Env} {kind : SwitchKind} {newSel : Half} {nd : Desc} {p : Plan} {ret : Word}
    {s t : State} {marked : List Word} (hl : LoadReady e kind newSel nd p ret s)
    (h : InNewTask e kind newSel nd p ret s marked t) : flagVM t.eflags = false := by
  have hbit := congrArg (·.getLsbD 17) h.flags
  have hmask : (~~~(flagsReserved ||| 0x00004000#32)).getLsbD 17 = true := by decide
  simp only [BitVec.getLsbD_and, hmask, Bool.and_true] at hbit
  exact hbit.trans hl.notV86

/-- Exceptions are raised with CR0.PE set; the mode and CS are those the switch to a handler then gives. -/
theorem kept_legal (e : Config.Env) :
    Kept e (fun s => s.legal = true ∧ s.bit1 = true) (fun s => cr0PE s.cr0 = true) where
  weaken _ h := (State.protectedMode_iff.mp (State.legal_iff.mp h.1).1).1
  draws _ _ h := h
  trap _ _ h := h
  event _ _ h := h
  nextEip _ _ h := h
  ltr _ _ _ _ _ h _ := h
  strReg _ _ _ h := h
  strMem _ _ _ h := h
  push _ _ _ _ _ h := h
  arrive s t kind newSel nd p ret h hg ha _ := by
    obtain ⟨d, hcs, hcode, -, -⟩ := arrived_cs hg ha
    have hpe : cr0PE t.cr0 = true := by rw [ha.inNewTask.cr0]; exact (cr0PE_setTS s.cr0).trans h
    exact ⟨State.legal_iff.mpr ⟨State.protectedMode_iff.mpr ⟨hpe, inNewTask_notV86 hg.load ha.inNewTask⟩,
      d.hidden, hcs, d.hidden_isCode.trans hcode⟩, ha.inNewTask.bit1⟩
  raised s u kind newSel ret x c h hx := by
    rcases taskSwitch_raised_cases hx with ⟨n, rfl⟩ | ⟨nd, p, marked, hin⟩
    · exact h
    · rw [hin.cr0]
      exact (cr0PE_setTS s.cr0).trans h

/-- Settles O13: only a switch writes CR0, EFLAGS or CS, and one that completes has passed K11 on CS and loaded
an EFLAGS without VM, with bit 1 set. -/
theorem modeStaysLegal : Obligations.ModeStaysLegal :=
  fun _ _ hl hb hstep => (kept_legal Config.env).step ⟨hl, hb⟩ hstep

/-! ## CS and SS (42_task_switch.md R190 to R197) -/

/-- K6's condition, read off the hidden part. -/
theorem Desc.codeDplOk_hidden (d : Desc) (cpl : BitVec 2) : codeDplOk cpl d =
    if d.hidden.attr.getLsbD 2 then decide (d.hidden.dpl.toNat ≤ cpl.toNat) else d.hidden.dpl == cpl := by
  rw [hidden_typeBit d (by decide), hidden_dpl]
  rfl

/-- CS and SS loaded from descriptors that K6 to K13 let through fit. -/
theorem State.stackFits_of_hidden {s : State} {c k : Desc} (hcs : s.cs.hidden = some c.hidden)
    (hss : s.ss.hidden = some k.hidden) (hcode : c.isCode = true) (hcp : c.p = true)
    (hfit : codeDplOk s.cpl c = true) (hdata : k.isWritableData = true) (hkp : k.p = true)
    (hcpl : k.dpl = s.cpl) (hrpl : selRPL s.ss.sel = s.cpl) : s.stackFits = true := by
  rw [Desc.codeDplOk_hidden, Desc.hidden_dpl] at hfit
  simp only [stackFits, hcs, hss, hfit, Desc.hidden_isCode, Desc.hidden_present, Desc.hidden_writable,
    Desc.hidden_dpl, hcode, hcp, hdata, hkp, hcpl, hrpl, beq_self_eq_true, Bool.and_self]

theorem arrived_stackFits {e : Config.Env} {kind : SwitchKind} {newSel : Half} {nd : Desc} {p : Plan} {ret : Word}
    {s t : State} (hg : SwitchGoes e kind newSel nd p ret s) (ha : Arrived e kind newSel nd p ret s t) :
    t.stackFits = true := by
  obtain ⟨c, hcs, hcode, hfit, hcp⟩ := arrived_cs hg ha
  obtain ⟨k, hss, hdata, hcpl, hrpl, hkp⟩ := arrived_ss hg ha
  exact State.stackFits_of_hidden hcs hss hcode hcp hfit hdata hkp hcpl (hrpl.symm.trans hcpl)

theorem kept_stackFits (e : Config.Env) : Kept e (·.stackFits = true) (fun _ => True) where
  weaken _ _ := trivial
  draws _ _ h := h
  trap _ _ h := h
  event _ _ h := h
  nextEip _ _ h := h
  ltr _ _ _ _ _ h _ := h
  strReg _ _ _ h := h
  strMem _ _ _ h := h
  push _ _ _ _ _ h := h
  arrive _ _ _ _ _ _ _ _ hg ha _ := arrived_stackFits hg ha
  raised _ _ _ _ _ _ _ _ _ := trivial

/-- Settles O14: only a switch writes CS or SS, and one that completes has passed K6 to K13 on both. -/
theorem codeAndStackStayFit : Obligations.CodeAndStackStayFit :=
  fun _ _ h hstep => (kept_stackFits Config.env).step h hstep

/-! ## TR (42_task_switch.md R177, 40_task_register_instructions.md R130) -/

/-- The types of a TSS descriptor have `type[2] = 0` and `type[0] = 1` (20_memory.md R68). -/
theorem Desc.isTss_bits {d : Desc} (h : d.isTss = true) :
    d.s = false ∧ d.type.getLsbD 0 = true ∧ d.type.getLsbD 2 = false := by
  simp only [isTss, Bool.and_eq_true, Bool.not_eq_true', Bool.or_eq_true, beq_iff_eq] at h
  obtain ⟨hs, ht⟩ := h
  rcases ht with ((ht | ht) | ht) | ht <;> exact ⟨hs, by rw [ht]; decide, by rw [ht]; decide⟩

/-- An available TSS (line L6 of LTR) is a TSS. -/
theorem isTss_of_availableTss {d : Desc} (h : availableTss d = true) : d.isTss = true := by
  simp only [availableTss, Bool.and_eq_true, Bool.not_eq_true', Bool.or_eq_true, beq_iff_eq] at h
  obtain ⟨hs, ht | ht⟩ := h <;> simp [Desc.isTss, hs, ht]

/-- Marking a descriptor's attributes busy changes bit 1 only. -/
theorem busyAttr_otherBit (d : Desc) {i : Nat} (hi : i < 16) (hne : i ≠ 1) :
    (busyAttr d.attr).getLsbD i = d.getLsbD (40 + i) := by
  have hmask : (0x0002#16).getLsbD i = false := by
    rw [show 0x0002#16 = BitVec.twoPow 16 1 from rfl, BitVec.getLsbD_twoPow]
    simp [hne.symm]
  rw [busyAttr, BitVec.getLsbD_or, hmask, Bool.or_false, attr_bit d i hi]

/-- A present TSS descriptor, marked busy, is what TR must describe. -/
theorem trBusy_of_busyAttr {t : State} {d : Desc} (ha : t.tr.attr = busyAttr d.attr) (htss : d.isTss = true)
    (hp : d.p = true) : t.trBusy = true := by
  obtain ⟨hs, ht0, ht2⟩ := Desc.isTss_bits htss
  rw [type_bit d _ (by decide)] at ht0 ht2
  have hpresent : t.tr.attr.getLsbD 7 = true := by
    rw [ha]
    exact (busyAttr_otherBit d (by decide) (by decide)).trans hp
  have hsystem : t.tr.attr.getLsbD 4 = false := by
    rw [ha]
    exact (busyAttr_otherBit d (by decide) (by decide)).trans hs
  have htype : t.tr.attr.extractLsb' 0 3 = 3#3 := by
    rw [ha]
    apply BitVec.eq_of_getLsbD_eq
    intro i hi
    rw [BitVec.getLsbD_extractLsb', Nat.zero_add]
    interval_cases i
    · exact (busyAttr_otherBit d (by decide) (by decide)).trans ht0
    · exact busyAttr_type1 d.attr
    · exact (busyAttr_otherBit d (by decide) (by decide)).trans ht2
  rw [State.trBusy, hpresent, hsystem, htype]
  rfl

/-- TR describes a present busy TSS, and is loaded if `loaded` says that it was before. -/
def TrKept (loaded : Bool) (s : State) : Prop := s.trBusy = true ∧ (loaded = true → s.tr.loaded = true)

theorem kept_tr (e : Config.Env) (loaded : Bool) : Kept e (TrKept loaded) (fun _ => True) where
  weaken _ _ := trivial
  draws _ _ h := h
  trap _ _ h := h
  event _ _ h := h
  nextEip _ _ h := h
  ltr s src sel d q _ ha := by
    obtain ⟨-, -, -, -, -, -, havail, hp, -⟩ := ha
    exact ⟨trBusy_of_busyAttr rfl (isTss_of_availableTss havail) hp, fun _ => rfl⟩
  strReg _ _ _ h := h
  strMem _ _ _ h := h
  push _ _ _ _ _ h := h
  arrive s t kind newSel nd p ret _ hg ha _ := by
    have htr := ha.inNewTask.tr
    exact ⟨trBusy_of_busyAttr (by rw [htr]; rfl) hg.ready.busy.1 hg.ready.present, fun _ => by rw [htr]⟩
  raised _ _ _ _ _ _ _ _ _ := trivial

/-- Settles O15: LTR and a completed switch are what writes TR, each with the descriptor of a present TSS, marked
busy, and `loaded` set. -/
theorem taskRegisterStaysBusyTss : Obligations.TaskRegisterStaysBusyTss :=
  fun s _ h hstep => (kept_tr Config.env s.tr.loaded).step ⟨h, id⟩ hstep

/-! ## Tables and control registers (10_state.md R29 to R31) -/

/-- What no step changes of the tables, the parameters, CR0 but for TS, and CR3, from a state `s` on. -/
structure TablesKept (s t : State) : Prop where
  gdtr : t.gdtr = s.gdtr
  idtr : t.idtr = s.idtr
  params : t.params = s.params
  cr0 : t.cr0 = s.cr0 ∨ t.cr0 = setTS s.cr0
  cr3 : s.paging = false → s.params.cr3LoadNeedsPg = true → t.cr3 = s.cr3

theorem setTS_setTS (c : Word) : setTS (setTS c) = setTS c := by
  unfold setTS
  rw [BitVec.or_assoc, BitVec.or_self]

theorem TablesKept.paging {s t : State} (h : TablesKept s t) : t.paging = s.paging := by
  unfold State.paging
  rcases h.cr0 with h0 | h0
  · rw [h0]
  · rw [h0, setTS_paging]

/-- Without paging and with `CR3_LOAD_NEEDS_PG` a load leaves CR3 (42_task_switch.md R186). -/
theorem loadedCr3_kept {s : State} (img : TssImage) (hp : s.paging = false) (hn : s.params.cr3LoadNeedsPg = true) :
    loadedCr3 s img = s.cr3 := by
  unfold loadedCr3
  split <;> simp [hp, hn]

theorem TablesKept.newTask {e : Config.Env} {kind : SwitchKind} {newSel : Half} {nd : Desc} {p : Plan} {ret : Word}
    {s₀ s t : State} {marked : List Word} (h : TablesKept s₀ s)
    (hin : InNewTask e kind newSel nd p ret s marked t) : TablesKept s₀ t where
  gdtr := hin.gdtr.trans h.gdtr
  idtr := hin.idtr.trans h.idtr
  params := hin.params.trans h.params
  cr0 := by
    have ht : t.cr0 = setTS s.cr0 := hin.cr0
    rcases h.cr0 with h0 | h0
    · exact .inr (by rw [ht, h0])
    · exact .inr (by rw [ht, h0, setTS_setTS])
  cr3 hp hn := by
    rw [hin.cr3, loadedCr3_kept _ (h.paging.trans hp) (h.params ▸ hn)]
    exact h.cr3 hp hn

theorem TablesKept.of_fields {s t u : State} (h : TablesKept s t) (hg : u.gdtr = t.gdtr) (hi : u.idtr = t.idtr)
    (hp : u.params = t.params) (h0 : u.cr0 = t.cr0) (h3 : u.cr3 = t.cr3) : TablesKept s u :=
  ⟨hg.trans h.gdtr, hi.trans h.idtr, hp.trans h.params, h0 ▸ h.cr0, h3 ▸ h.cr3⟩

theorem kept_tables (e : Config.Env) (s₀ : State) : Kept e (TablesKept s₀) (TablesKept s₀) where
  weaken _ h := h
  draws _ _ h := h.of_fields rfl rfl rfl rfl rfl
  trap _ _ h := h.of_fields rfl rfl rfl rfl rfl
  event _ _ h := h.of_fields rfl rfl rfl rfl rfl
  nextEip _ _ h := h.of_fields rfl rfl rfl rfl rfl
  ltr _ _ _ _ _ h _ := h.of_fields rfl rfl rfl rfl rfl
  strReg _ _ _ h := h.of_fields rfl rfl rfl rfl rfl
  strMem _ _ _ h := h.of_fields rfl rfl rfl rfl rfl
  push _ _ _ _ _ h := h.of_fields rfl rfl rfl rfl rfl
  arrive _ _ _ _ _ _ _ h _ ha _ := h.newTask ha.inNewTask
  raised _ _ _ _ _ _ _ h hx := by
    rcases taskSwitch_raised_cases hx with ⟨n, rfl⟩ | ⟨nd, p, marked, hin⟩
    · exact h.of_fields rfl rfl rfl rfl rfl
    · exact h.newTask hin

/-- Settles O16: a switch sets CR0.TS and may load CR3, under the condition of R186; nothing else in a step
touches these fields. -/
theorem tablesAndControlRegistersStay : Obligations.TablesAndControlRegistersStay := by
  intro s t hstep
  have h := (kept_tables Config.env s).step ⟨rfl, rfl, rfl, .inl rfl, fun _ _ => rfl⟩ hstep
  exact ⟨h.gdtr, h.idtr, h.params, h.cr0, h.cr3⟩

end Sys2Proof.Machine
end

section
namespace Sys2Proof.Machine

/-! ## What the boundary asks of a step (00_scope.md R13, R14) -/

theorem step_of_run {s t : State} {i : Instr} (h : boundary Config.env s = .run i t) : step s = exec i t := by
  simp [step, h]

theorem step_of_done {s : State} {o : Result} (h : boundary Config.env s = .done o) : step s = o := by
  simp [step, h]

theorem inProtected_of_protectedMode {s : State} (o : Result) (h : s.protectedMode = true) :
    inProtected s o = o := if_pos h

theorem inProtected_of_notProtected {s : State} (o : Result) (h : s.protectedMode = false) :
    inProtected s o = .refused .notProtectedMode := by
  simp [inProtected, h]

/-- Settles O5: with nothing pending the boundary fetches (30_encoding.md R111), and the bytes are those of a read
at CS:EIP (20_memory.md R92). -/
theorem stepRunsTheDecodedInstruction : Obligations.StepRunsTheDecodedInstruction := by
  have hzero (h : Hidden) (s : State) : h.base + s.eip + BitVec.ofNat 32 0 = h.base + s.eip := by simp
  refine ⟨fun s h i len hf hdec => ?run, fun s h hp hl => ?flat, fun e s h n hn hl => ?read⟩
  case run =>
    refine step_of_run ?_
    rw [boundary_fetch hf]
    simp only [fetchDecoded, maxInstrBytes, hdec]
    rfl
  case flat =>
    rw [fetchBytes_flat hp 15 0 (by omega), hzero]
  case read =>
    have hread := fetchBytes_read (e := e) hn 0 (show s.eip.toNat + (0 + n) ≤ h.limit.toNat + 1 by omega)
    rw [hzero] at hread
    exact ⟨fun bs hbs => by rwa [hbs] at hread, fun hnone => by rwa [hnone] at hread⟩

/-- Settles O6: the fetch answers an invalid opcode with #UD, taken in the state it read. -/
theorem stepTakesInvalidOpcode : Obligations.StepTakesInvalidOpcode := by
  intro s h hp hf hdec
  refine step_of_done ?_
  rw [boundary_fetch hf]
  simp only [fetchDecoded, maxInstrBytes, hdec, inProtected_of_protectedMode _ hp]

theorem boundaryIn_trap {e : Config.Env} {s : State} {h : Hidden} (ht : s.pendingTaskTrap = true) :
    boundaryIn e s h = .done (inProtected s (takeException e .db none (s.setTrap false))) := if_pos ht

/-- Settles O7: the trap is the first thing a boundary looks at (60_exceptions.md R245). -/
theorem pendingTrapTakesDebugException : Obligations.PendingTrapTakesDebugException := by
  intro s hlegal htrap
  obtain ⟨hp, h, hcs, hcode⟩ := State.legal_iff.mp hlegal
  refine step_of_done ?_
  rw [boundary_usable hcs hcode, boundaryIn_trap htrap, inProtected_of_protectedMode _ hp]
  rfl

/-! ## Outside protected mode, and without a task gate -/

theorem takeException_notProtected {e : Config.Env} {s : State} (x : Exc) (code : Option Half)
    (h : s.protectedMode = false) : takeException e x code s = .fault (.exception x code s) := by
  simp [takeException, h]

theorem takeException_noTaskGate {e : Config.Env} {s : State} {x : Exc} (code : Option Half)
    (h : gateIsTaskGate e s x.vector = false) : takeException e x code s = .fault (.exception x code s) := by
  simp [takeException, h]

/-- Settles O35: `takeException` goes on only in protected mode and through a task gate. -/
theorem exceptionWithoutTaskGateEndsTheRun : Obligations.ExceptionWithoutTaskGateEndsTheRun :=
  fun _ x code h => h.elim (takeException_notProtected x code) (takeException_noTaskGate code)

theorem settle_raised {e : Config.Env} (x : Exc) (code : Option Half) (s : State) :
    settle e (.error (.raised x code s)) = takeException e x code s := rfl

theorem settle_raise {e : Config.Env} (x : Exc) (code : Option Half) (s : State) :
    settle e (raise x code s) = takeException e x code s := rfl

theorem settle_pageFault (e : Config.Env) (s : State) : TakesPageFault e s (settle e (.error (pageFault e s))) :=
  ⟨e.draw16 s.draws, rfl⟩

theorem exec_ltr_notProtected {s : State} (src : LtrSrc) (h : s.protectedMode = false) :
    exec (.ltrRm16 src) s = .fault (.exception .ud none s) := by
  simp [exec, execLtrRm16, inProtectedMode, h, settle_raise, takeException_notProtected]

theorem exec_str_notProtected {s : State} (dst : StrDest) (h : s.protectedMode = false) :
    exec (.strRm16 dst) s = .fault (.exception .ud none s) := by
  simp [exec, execStrRm16, inProtectedMode, h, settle_raise, takeException_notProtected]

/-- Settles O22: both raise #UD there (30_encoding.md R118), and outside protected mode it ends the run. -/
theorem taskRegisterInstructionsNeedProtectedMode : Obligations.TaskRegisterInstructionsNeedProtectedMode :=
  fun _ src dst h => ⟨exec_ltr_notProtected src h, exec_str_notProtected dst h⟩

theorem settle_requireProtectedMode {e : Config.Env} {s : State} (body : Except Stop State)
    (h : s.protectedMode = false) :
    settle e (requireProtectedMode s body) = .refused .notProtectedMode := by
  simp [requireProtectedMode, h, settle]

/-- Outside protected mode every instruction is refused but LTR and STR. -/
theorem exec_notProtected {s : State} (i : Instr) (h : s.protectedMode = false) :
    exec i s = .refused .notProtectedMode ∨
    (((∃ dst, i = .strRm16 dst) ∨ ∃ src, i = .ltrRm16 src) ∧ exec i s = .fault (.exception .ud none s)) := by
  cases i with
  | strRm16 dst => exact .inr ⟨.inl ⟨dst, rfl⟩, exec_str_notProtected dst h⟩
  | ltrRm16 src => exact .inr ⟨.inr ⟨src, rfl⟩, exec_ltr_notProtected src h⟩
  | _ => exact .inl (settle_requireProtectedMode _ h)

/-- Settles O8: the boundary tests CS first; outside protected mode each of the things it can ask for is refused,
but for the #UD of LTR and STR. -/
theorem statesOutsideTheSpecAreRefused : Obligations.StatesOutsideTheSpecAreRefused := by
  refine fun s => ⟨fun h => step_of_done (boundary_unusable h), fun hp => ?_⟩
  rcases boundary_cases Config.env s with ⟨i, v, hb⟩ | ⟨x, c, u, hb, -⟩ | ⟨ev, -, hb⟩ | ⟨r, hb⟩
  case inl =>
    have hstep : step s = exec i (s.setNextEip v) := step_of_run hb
    rcases exec_notProtected (s := s.setNextEip v) i hp with hr | ⟨hi, hf⟩
    · exact .inl ⟨_, hstep.trans hr⟩
    · exact .inr ⟨i, v, hb, hi, hstep.trans hf⟩
  case inr.inl => exact .inl ⟨_, (step_of_done hb).trans (inProtected_of_notProtected _ hp)⟩
  case inr.inr.inl => exact .inl ⟨_, (step_of_done hb).trans (inProtected_of_notProtected _ hp)⟩
  case inr.inr.inr => exact .inl ⟨r, step_of_done hb⟩

/-- Settles O10: the fields of `State.reset` read back and tested. -/
theorem resetMeetsInvariants : Obligations.ResetMeetsInvariants := by
  unfold Obligations.ResetMeetsInvariants
  decide

/-! ## Before TR is loaded (70_reset_and_hazards.md R263) -/

theorem taskSwitch_notLoaded {e : Config.Env} {s : State} (kind : SwitchKind) (newSel : Half) (retEip : Word)
    (h : s.tr.loaded = false) : taskSwitch e kind newSel retEip s = .error (.refused .taskRegisterNotLoaded) := by
  simp [taskSwitch, h]

/-- Settles O11: a dispatch let through ends in `taskSwitch`, or for IRET in the same test before the link is
read, and that refuses; STR only reads TR. -/
theorem nothingSwitchesBeforeLtr : Obligations.NothingSwitchesBeforeLtr := by
  intro s hp hl
  refine ⟨fun i kind sel newSel hform hadm => ?far, fun size hnt => ?iret, fun n newSel hadm => ?int,
    fun r => ?str⟩
  case far =>
    rw [far_eq hp hform, farTransfer_admits hadm, taskSwitch_notLoaded _ _ _ hl]
    rfl
  case iret =>
    rw [iret_eq hp, returnFromTask]
    simp only [hnt, hl]
    rfl
  case int =>
    rw [int_eq hp, softwareInterrupt_admits hadm, taskSwitch_notLoaded _ _ _ hl]
    rfl
  case str => exact ⟨_, str_eq hp, low_of_str_reg16 (e := Config.env) (r := r) (t := s) rfl⟩

/-! ## STR to a register (40_task_register_instructions.md R131) -/

/-- Settles O19: S3 writes one register, of which a 16-bit form keeps the upper half. -/
theorem strToRegisterCompletes : Obligations.StrToRegisterCompletes := by
  intro s r hp
  refine ⟨⟨_, str_eq hp, rfl, ?_, fun k hk => ?_⟩, ⟨_, str_eq hp, rfl, ?_, fun k hk => ?_⟩⟩
  · exact Gprs.get_set_same _ _ _
  · exact Gprs.get_set_ne _ _ hk
  · exact (congrArg low (Gprs.get_set_same _ _ _)).trans (low_append _ _)
  · exact Gprs.get_set_ne _ _ hk

/-! ## Memory operands -/

/-- Once the operand's segment lets it be written, the store is a write at its linear address. -/
theorem writeOperand_of_addr {e : Config.Env} {s : State} {m : MemRef} {la : Word} {bs : List Byte}
    (h : operandAddr s m bs.length Hidden.writable = .ok la) :
    writeOperand e s m bs = orPageFault e s (writeBytes e s (userAccess s .write) la bs) := by
  simp [writeOperand, h]

/-- Once the operand's segment lets it be read, the load is a read at its linear address. -/
theorem readOperand_of_addr {e : Config.Env} {s : State} {m : MemRef} {la : Word} {n : Nat}
    (h : operandAddr s m n Hidden.readable = .ok la) :
    readOperand e s m n = orPageFault e s (readBytes e s (userAccess s .read) la n) := by
  simp [readOperand, h]

theorem str_mem_stored {e : Config.Env} {s : State} {m : MemRef} {la : Word} {ps : List Word}
    (ha : operandAddr s m 2 Hidden.writable = .ok la)
    (hps : physRange e s (userAccess s .write) la 2 = some ps) :
    str e (.mem m) s = .ok (advance (s.setMem (s.mem.setList ps (Half.bytes s.tr.sel)))) := by
  simp [str, writeOperand_of_addr (bs := Half.bytes s.tr.sel) ha, writeBytes, hps, orPageFault]

theorem str_mem_pageFault {e : Config.Env} {s : State} {m : MemRef} {la : Word}
    (ha : operandAddr s m 2 Hidden.writable = .ok la)
    (hps : physRange e s (userAccess s .write) la 2 = none) :
    str e (.mem m) s = .error (pageFault e s) := by
  simp [str, writeOperand_of_addr (bs := Half.bytes s.tr.sel) ha, writeBytes, hps, orPageFault]

/-- Two bytes written at two places. -/
theorem get_setList_two (m : Memory) {p0 p1 : Word} (b0 b1 : Byte) (hne : p0 ≠ p1) :
    (m.setList [p0, p1] [b0, b1]).get p0.toNat = b0 ∧ (m.setList [p0, p1] [b0, b1]).get p1.toNat = b1 := by
  have hl := getList_setList_same [b0, b1] m (ps := [p0, p1]) (by simp [hne]) rfl
  simpa [Memory.getList] using hl

/-- Settles O20: the two bytes of the selector go where the operand's two bytes translate for a write, and a page
fault on either leaves both unwritten (log 35). -/
theorem strToMemoryCompletes : Obligations.StrToMemoryCompletes := by
  intro s m la hp ha
  refine ⟨str_eq hp, fun p0 p1 hps hne => ?stored, fun e hps => ?pageFault⟩
  case stored =>
    obtain ⟨h0, h1⟩ := get_setList_two s.mem (s.tr.sel.extractLsb' 0 8) (s.tr.sel.extractLsb' 8 8) hne
    refine ⟨advance (s.setMem (s.mem.setList [p0, p1] (Half.bytes s.tr.sel))), ?_, rfl, ?_, ?_,
      fun a ha0 ha1 => ?_⟩
    · rw [str_eq hp, str_mem_stored ha hps]
      rfl
    · rw [halfBytes_eq]
      exact h0
    · rw [halfBytes_eq]
      exact h1
    · exact Memory.get_setList_of_notMem _ _ (by simp [ha0, ha1])
  case pageFault =>
    rw [str_mem_pageFault ha hps]
    exact settle_pageFault e s

/-- Settles O21 (30_encoding.md R114): `operandAddr` and `Hidden.covers`, branch by branch. -/
theorem memoryOperandAddress : Obligations.MemoryOperandAddress := by
  intro s m n ok off
  have hoff : effectiveOffset s m = off := by
    obtain ⟨_, base, index, _⟩ := m
    cases base <;> cases index <;> rfl
  rw [← hoff]
  refine ⟨fun h hs => ?usable, fun hs => ?unusable, fun h hup => ?covers, ?segment⟩
  case usable => simp [operandAddr, hs, linearAddr]
  case unusable => simp [operandAddr, hs]
  case covers =>
    have hnot : (!h.attr.getLsbD 3 && h.attr.getLsbD 2) = false := by
      rcases hup with hup | hup
      · rw [hup, Bool.not_true, Bool.false_and]
      · rw [hup, Bool.and_false]
    simp only [Hidden.covers, hnot, Bool.false_eq_true, if_false, decide_eq_true_iff]
  case segment =>
    cases m.base with
    | none => rfl
    | some r => cases r <;> rfl

/-- A far pointer is split from the bytes of its operand: the offset, and above it the selector. -/
theorem farPointer_of_bytes {e : Config.Env} {s : State} {size : OpSize} {m : MemRef} {la : Word} {bs : List Byte}
    (ha : operandAddr s m (offsetBytes size + 2) Hidden.readable = .ok la)
    (hbs : readBytes e s (userAccess s .read) la (offsetBytes size + 2) = some bs) :
    farPointer e s size m = .ok (ofLe 16 (bs.drop (offsetBytes size)), ofLe 32 (bs.take (offsetBytes size))) := by
  simp [farPointer, readOperand_of_addr ha, hbs, orPageFault]

/-- Two bytes fill a 16-bit value, so reading them wider only adds zeros (R116). -/
theorem ofLe_two_setWidth (b0 b1 : Byte) : ofLe 32 [b0, b1] = (ofLe 16 [b0, b1]).setWidth 32 := by
  apply BitVec.eq_of_toNat_eq
  have := b0.isLt
  have := b1.isLt
  simp [ofLe, leNat]
  omega

theorem contig_six (la : Word) :
    contig la 6 = [la, la + 1#32, la + 2#32, la + 3#32, la + 4#32, la + 5#32] := by
  simp [contig, BitVec.add_assoc]

theorem contig_four (la : Word) : contig la 4 = [la, la + 1#32, la + 2#32, la + 3#32] := by
  simp [contig, BitVec.add_assoc]

/-- Settles O27: with paging off the operand's bytes are those at `la`, and R117 splits them behind the offset. -/
theorem farPointerInMemory : Obligations.FarPointerInMemory := by
  intro e s m la hp
  refine ⟨fun ha => ?w32, fun ha => ?w16⟩
  case w32 =>
    have hbs := readBytes_flat (e := e) hp (userAccess s .read) la 6
    rw [contig_six] at hbs
    exact farPointer_of_bytes (size := .w32) ha hbs
  case w16 =>
    have hbs := readBytes_flat (e := e) hp (userAccess s .read) la 4
    rw [contig_four] at hbs
    rw [farPointer_of_bytes (size := .w16) ha hbs]
    exact congrArg (fun off => Except.ok (_, off)) (ofLe_two_setWidth _ _)

/-! ## LTR (40_task_register_instructions.md R130) -/

/-- Settles O17: LTR let through answers `afterLtr`, whose memory differs in the access byte only. -/
theorem ltrCompletes : Obligations.LtrCompletes := by
  intro s src sel d q hp hadm
  refine ⟨afterLtr s sel d q, ?_, rfl, ?_, fun a ha => ?_⟩
  · rw [ltr_eq hp, ltr_admits hadm]
    rfl
  · exact (lockedRmw_get _ _ _ _).trans (if_pos rfl)
  · exact (lockedRmw_get _ _ _ _).trans (if_neg ha)

theorem inGdt_of_le {s : State} {sel : Half} (h : 8 * selIndex sel + 7 ≤ s.gdtr.limit.toNat) :
    inGdt s sel = true := decide_eq_true h

section
variable {e : Config.Env} {s : State} {src : LtrSrc} {sel : Half} {d : Desc}

theorem ltr_notCpl0 (h : s.cpl ≠ 0#2) : ltr e src s = raise .gp (some 0#16) s := if_pos h

theorem ltr_selector (h : s.cpl = 0#2) (hsrc : ltrSource e s src = .ok sel) :
    ltr e src s = ltrSelector e sel s := by
  simp [ltr, h, hsrc]

theorem ltr_mem_pageFault {m : MemRef} {la : Word} (h : s.cpl = 0#2)
    (ha : operandAddr s m 2 Hidden.readable = .ok la)
    (hr : readBytes e s (userAccess s .read) la 2 = none) :
    ltr e (.mem m) s = .error (pageFault e s) := by
  simp [ltr, h, ltrSource, readOperand_of_addr ha, hr, orPageFault]

theorem ltrSelector_null (h : selNull sel = true) : ltrSelector e sel s = raise .gp (some 0#16) s := if_pos h

theorem ltrSelector_outside (hn : selNull sel = false)
    (h : selTI sel = true ∨ s.gdtr.limit.toNat < 8 * selIndex sel + 7) :
    ltrSelector e sel s = raise .gp (some (errSel sel)) s := by
  have hout : (selTI sel || !inGdt s sel) = true := by simpa [inGdt, withinLimit] using h
  simp only [ltrSelector, hn, hout, Bool.false_eq_true, if_false, if_true]

section
variable (hn : selNull sel = false) (hti : selTI sel = false) (hin : 8 * selIndex sel + 7 ≤ s.gdtr.limit.toNat)
include hn hti hin

theorem ltrSelector_absent (hd : descAt e s (gdtAddr s sel) = none) :
    ltrSelector e sel s = .error (pageFault e s) := by
  simp [ltrSelector, hn, hti, inGdt_of_le hin, hd]

theorem ltrSelector_notAvailable (hd : descAt e s (gdtAddr s sel) = some d) (ha : availableTss d = false) :
    ltrSelector e sel s = raise .gp (some (errSel sel)) s := by
  simp [ltrSelector, hn, hti, inGdt_of_le hin, hd, ha]

theorem ltrSelector_notPresent (hd : descAt e s (gdtAddr s sel) = some d) (ha : availableTss d = true)
    (hp : d.p = false) : ltrSelector e sel s = raise .np (some (errSel sel)) s := by
  simp [ltrSelector, hn, hti, inGdt_of_le hin, hd, ha, hp]

theorem ltrSelector_writeFault (hd : descAt e s (gdtAddr s sel) = some d) (ha : availableTss d = true)
    (hp : d.p = true) (hw : physical e s sysWrite (gdtAddr s sel + 5#32) = none) :
    ltrSelector e sel s = .error (pageFault e s) := by
  simp [ltrSelector, hn, hti, inGdt_of_le hin, hd, ha, hp, ltrLoad, hw]

end

end

theorem availableTss_iff {d : Desc} : availableTss d = true ↔ d.s = false ∧ (d.type = 9#4 ∨ d.type = 1#4) := by
  simp [availableTss]

theorem availableTss_eq_false_iff {d : Desc} :
    availableTss d = false ↔ d.s = true ∨ (d.type ≠ 9#4 ∧ d.type ≠ 1#4) := by
  cases hs : d.s <;> simp [availableTss, hs]

/-- Settles O18: lines L1 to L8 in their order, each as a lemma on `ltr` or `ltrSelector`. -/
theorem ltrFaults : Obligations.LtrFaults := by
  intro s src sel hp
  refine ⟨ltr_eq hp, fun hcpl => ?l1, fun hcpl hsrc => ⟨fun hn => ?l3, fun hn hout => ?l4,
    fun d hn hti hin hd => ⟨fun ha => ?l6, fun hs ht hnp => ?l7⟩⟩, fun e hcpl => ⟨fun m la hla hr => ?source,
    fun hsrc hn hti hin => ⟨fun hd => ?l5, fun d hd hs ht hdp hw => ?l8⟩⟩⟩
  case l1 => rw [ltr_eq hp, ltr_notCpl0 hcpl, settle_raise]
  case l3 => rw [ltr_eq hp, ltr_selector hcpl hsrc, ltrSelector_null hn, settle_raise]
  case l4 => rw [ltr_eq hp, ltr_selector hcpl hsrc, ltrSelector_outside hn hout, settle_raise]
  case l6 =>
    rw [ltr_eq hp, ltr_selector hcpl hsrc,
      ltrSelector_notAvailable hn hti hin hd (availableTss_eq_false_iff.mpr ha), settle_raise]
  case l7 =>
    rw [ltr_eq hp, ltr_selector hcpl hsrc,
      ltrSelector_notPresent hn hti hin hd (availableTss_iff.mpr ⟨hs, ht⟩) hnp, settle_raise]
  case source =>
    rw [ltr_mem_pageFault hcpl hla hr]
    exact settle_pageFault e s
  case l5 =>
    rw [ltr_selector hcpl hsrc, ltrSelector_absent hn hti hin hd]
    exact settle_pageFault e s
  case l8 =>
    rw [ltr_selector hcpl hsrc, ltrSelector_writeFault hn hti hin hd (availableTss_iff.mpr ⟨hs, ht⟩) hdp hw]
    exact settle_pageFault e s

end Sys2Proof.Machine
end

section
namespace Sys2Proof.Machine

/-! ## A dispatch whose switch goes through -/

/-- A switch that goes through ends the instruction in the state it leaves. -/
theorem settle_switchGoes {e : Config.Env} {kind : SwitchKind} {newSel : Half} {nd : Desc} {p : Plan} {ret : Word}
    {s : State} (h : SwitchGoes e kind newSel nd p ret s) :
    ∃ t, settle e (taskSwitch e kind newSel ret s) = .next t ∧ Arrived e kind newSel nd p ret s t := by
  obtain ⟨t, ht, ha⟩ := taskSwitch_goes h
  exact ⟨t, by rw [ht, settle], ha⟩

/-- Every form of far transfer that names a task completes with the switch. -/
theorem far_completes {s : State} {i : Instr} {kind : SwitchKind} {sel newSel : Half} {nd : Desc} {p : Plan}
    (hp : s.protectedMode = true) (hadm : FarAdmits Config.env s sel newSel)
    (hgoes : SwitchGoes Config.env kind newSel nd p s.nextEip s) (hform : FarForm Config.env s i kind sel) :
    ∃ t, exec i s = .next t ∧ Arrived Config.env kind newSel nd p s.nextEip s t := by
  rw [far_eq hp hform, farTransfer_admits hadm]
  exact settle_switchGoes hgoes

/-- Settles O23: the three forms of JMP are far transfers of kind JMP. -/
theorem jmpToTaskCompletes : Obligations.JmpToTaskCompletes := fun _ _ _ _ _ hp hadm hgoes =>
  ⟨fun _ => far_completes hp hadm hgoes ⟨rfl, rfl⟩, fun _ => far_completes hp hadm hgoes ⟨rfl, rfl⟩,
    fun _ _ off hptr => far_completes hp hadm hgoes ⟨rfl, off, hptr⟩⟩

/-- Settles O24: the three forms of CALL are far transfers of kind CALL. -/
theorem callToTaskCompletes : Obligations.CallToTaskCompletes := fun _ _ _ _ _ hp hadm hgoes =>
  ⟨fun _ => far_completes hp hadm hgoes ⟨rfl, rfl⟩, fun _ => far_completes hp hadm hgoes ⟨rfl, rfl⟩,
    fun _ _ off hptr => far_completes hp hadm hgoes ⟨rfl, off, hptr⟩⟩

/-- Settles O26 (41_task_dispatch.md R149): the offset is no argument of `farTransfer`. -/
theorem offsetOfTaskTransferIsNotUsed : Obligations.OffsetOfTaskTransferIsNotUsed :=
  fun _ _ _ _ _ _ => ⟨rfl, rfl, rfl, rfl⟩

/-- Settles O29: lines N1 to N3 let the vector through to the switch. -/
theorem intToTaskCompletes : Obligations.IntToTaskCompletes := by
  intro s n newSel nd p hp hadm hgoes
  rw [int_eq hp, softwareInterrupt_admits hadm]
  exact settle_switchGoes hgoes

/-! ## The faults of far JMP and far CALL (41_task_dispatch.md R141) -/

section
variable {e : Config.Env} {s : State} {kind : SwitchKind} {sel : Half} {d : Desc}

theorem farThroughMemory_pageFault {size : OpSize} {m : MemRef} {la : Word}
    (ha : operandAddr s m (offsetBytes size + 2) Hidden.readable = .ok la)
    (hr : readBytes e s (userAccess s .read) la (offsetBytes size + 2) = none) :
    farThroughMemory e kind size m s = .error (pageFault e s) := by
  simp [farThroughMemory, farPointer, readOperand_of_addr ha, hr, orPageFault]

theorem farTransfer_null (h : selNull sel = true) : farTransfer e kind sel s = raise .gp (some 0#16) s := if_pos h

theorem farTransfer_outside (hn : selNull sel = false) (h : inTable s sel = false) :
    farTransfer e kind sel s = raise .gp (some (errSel sel)) s := by
  simp [farTransfer, hn, h]

section
variable (hn : selNull sel = false) (hin : inTable s sel = true)
include hn hin

theorem farTransfer_absent (hd : descAt e s (descAddr s sel) = none) :
    farTransfer e kind sel s = .error (pageFault e s) := by
  simp [farTransfer, hn, hin, hd]

theorem farTransfer_found (hd : descAt e s (descAddr s sel) = some d) :
    farTransfer e kind sel s = farToDescriptor e kind sel d s := by
  simp [farTransfer, hn, hin, hd]

end

/-- `AccessOk` fails where the DPL is below CPL or RPL (R143, R144). -/
theorem accessOk_eq_false_iff :
    accessOk s sel d = false ↔ d.dpl.toNat < s.cpl.toNat ∨ d.dpl.toNat < (selRPL sel).toNat := by
  rw [← Bool.not_eq_true, accessOk_iff, not_and_or, Nat.not_le, Nat.not_le]

theorem farToDescriptor_tss_denied (ht : d.isTss = true) (h : selTI sel = true ∨ accessOk s sel d = false) :
    farToDescriptor e kind sel d s = raise .gp (some (errSel sel)) s := by
  cases hti : selTI sel with
  | true => simp [farToDescriptor, ht, hti]
  | false =>
    have hacc : accessOk s sel d = false := h.resolve_left (by simp [hti])
    simp [farToDescriptor, ht, hti, hacc]

theorem farToDescriptor_gate_denied (hg : d.isTaskGate = true) (h : accessOk s sel d = false) :
    farToDescriptor e kind sel d s = raise .gp (some (errSel sel)) s := by
  simp [farToDescriptor, isTss_not_gate hg, hg, h]

theorem farToDescriptor_gate_notPresent (hg : d.isTaskGate = true) (h : accessOk s sel d = true)
    (hp : d.p = false) : farToDescriptor e kind sel d s = raise .np (some (errSel sel)) s := by
  simp [farToDescriptor, isTss_not_gate hg, hg, h, hp]

theorem farToDescriptor_sameTask (ht : d.isTss = false) (hg : d.isTaskGate = false) :
    farToDescriptor e kind sel d s = .error (.refused .sameTaskTransfer) := by
  simp [farToDescriptor, ht, hg]

end

theorem jmpMem_eq {s : State} (hp : s.protectedMode = true) (size : OpSize) (m : MemRef) :
    exec (.jmpMem size m) s = settle Config.env (farThroughMemory Config.env .jmp size m s) := by
  simp [exec, execJmpMem, requireProtectedMode, hp]

theorem callMem_eq {s : State} (hp : s.protectedMode = true) (size : OpSize) (m : MemRef) :
    exec (.callMem size m) s = settle Config.env (farThroughMemory Config.env .call size m s) := by
  simp [exec, execCallMem, requireProtectedMode, hp]

/-- Settles O25: lines J1, J2, J4 and J5 in their order, and before J1 the read of a pointer in memory. -/
theorem farTransferFaults : Obligations.FarTransferFaults := by
  refine ⟨fun s hp size m => ⟨jmpMem_eq hp size m, callMem_eq hp size m⟩,
    fun e s kind size m la ha hr => ?pointer, fun e s kind sel hn hin hd => ?absent,
    fun s i kind sel hp hform => ⟨far_eq hp hform, fun hn => ?null, fun hn hout => ?outside,
      fun d hn hin hd => ⟨fun ht h => ?tss, fun hg h => ?gate, fun hg hcpl hrpl hnp => ?gateAbsent⟩⟩⟩
  case pointer =>
    rw [farThroughMemory_pageFault ha hr]
    exact settle_pageFault e s
  case absent =>
    rw [farTransfer_absent hn hin hd]
    exact settle_pageFault e s
  case null => rw [far_eq hp hform, farTransfer_null hn, settle_raise]
  case outside => rw [far_eq hp hform, farTransfer_outside hn hout, settle_raise]
  case tss =>
    rw [far_eq hp hform, farTransfer_found hn hin hd,
      farToDescriptor_tss_denied ht (h.imp_right accessOk_eq_false_iff.mpr), settle_raise]
  case gate =>
    rw [far_eq hp hform, farTransfer_found hn hin hd,
      farToDescriptor_gate_denied hg (accessOk_eq_false_iff.mpr h), settle_raise]
  case gateAbsent =>
    rw [far_eq hp hform, farTransfer_found hn hin hd,
      farToDescriptor_gate_notPresent hg (accessOk_iff.mpr ⟨hcpl, hrpl⟩) hnp, settle_raise]

/-! ## INT n (41_task_dispatch.md R147) -/

theorem inIdt_of_le {s : State} {n : Byte} (h : 8 * n.toNat + 7 ≤ s.idtr.limit.toNat) : inIdt s n = true :=
  decide_eq_true h

theorem inIdt_of_lt {s : State} {n : Byte} (h : s.idtr.limit.toNat < 8 * n.toNat + 7) : inIdt s n = false :=
  decide_eq_false (Nat.not_le.mpr h)

section
variable {e : Config.Env} {s : State} {n : Byte} {g : Desc}

theorem softwareInterrupt_outside (h : s.idtr.limit.toNat < 8 * n.toNat + 7) :
    softwareInterrupt e n s = raise .gp (some (errIdt n)) s := by
  simp [softwareInterrupt, inIdt_of_lt h]

section
variable (hin : 8 * n.toNat + 7 ≤ s.idtr.limit.toNat)
include hin

theorem softwareInterrupt_absent (hd : descAt e s (idtAddr s n) = none) :
    softwareInterrupt e n s = .error (pageFault e s) := by
  simp [softwareInterrupt, inIdt_of_le hin, hd]

variable (hg : descAt e s (idtAddr s n) = some g)
include hg

theorem softwareInterrupt_denied (ht : g.isTaskGate = true) (h : g.dpl.toNat < s.cpl.toNat) :
    softwareInterrupt e n s = raise .gp (some (errIdt n)) s := by
  simp [softwareInterrupt, inIdt_of_le hin, hg, ht, h]

theorem softwareInterrupt_notPresent (ht : g.isTaskGate = true) (h : s.cpl.toNat ≤ g.dpl.toNat)
    (hp : g.p = false) : softwareInterrupt e n s = raise .np (some (errIdt n)) s := by
  simp [softwareInterrupt, inIdt_of_le hin, hg, ht, Nat.not_lt.mpr h, hp]

end

theorem softwareInterrupt_sameTask (hi : inIdt s n = true) (hg : descAt e s (idtAddr s n) = some g)
    (ht : g.isTaskGate = false) : softwareInterrupt e n s = .error (.refused .sameTaskInterrupt) := by
  simp [softwareInterrupt, hi, hg, ht]

end

/-- Settles O30: lines N1 and N3, and between them the read of the IDT entry. -/
theorem intFaults : Obligations.IntFaults := by
  intro s n hp
  refine ⟨int_eq hp, fun e hin hd => ?absent, fun hout => ?outside,
    fun g hin hg ht => ⟨fun hdpl => ?denied, fun hdpl hnp => ?notPresent⟩⟩
  case absent =>
    rw [softwareInterrupt_absent hin hd]
    exact settle_pageFault e s
  case outside => rw [int_eq hp, softwareInterrupt_outside hout, settle_raise]
  case denied => rw [int_eq hp, softwareInterrupt_denied hin hg ht hdpl, settle_raise]
  case notPresent => rw [int_eq hp, softwareInterrupt_notPresent hin hg ht hdpl hnp, settle_raise]

/-- IRET with NT clear is an ordinary return (line I1). -/
theorem returnFromTask_sameTask {e : Config.Env} {s : State} (h : flagNT s.eflags = false) :
    returnFromTask e s = .error (.refused .sameTaskReturn) := by
  simp [returnFromTask, h]

/-- Settles O28: each of the three meanings tells a transfer inside the current task from a dispatch. -/
theorem sameTaskFormsAreRefused : Obligations.SameTaskFormsAreRefused := by
  intro s hp
  refine ⟨fun i kind sel d hform hn hin hd ht hg => ?far, fun size hnt => ?iret, fun n g hi hg ht => ?int⟩
  case far =>
    rw [far_eq hp hform, farTransfer_found hn hin hd, farToDescriptor_sameTask ht hg]
    rfl
  case iret =>
    rw [iret_eq hp, returnFromTask_sameTask hnt]
    rfl
  case int =>
    rw [int_eq hp, softwareInterrupt_sameTask hi hg ht]
    rfl

/-! ## IRET (41_task_dispatch.md R146, 20_memory.md R84) -/

/-- The first of a run of addresses is where its linear address translates to. -/
theorem physical_of_physRange {e : Config.Env} {s : State} {acc : Config.Access} {la q : Word} {n : Nat}
    {qs : List Word} (h : physRange e s acc la (n + 1) = some (q :: qs)) : physical e s acc la = some q := by
  simp only [physRange] at h
  split at h
  · next hq _ =>
    cases h
    exact hq
  · cases h

/-- Two bytes in memory order as one value. -/
theorem ofLe_two (b0 b1 : Byte) : ofLe 16 [b0, b1] = b1 ++ b0 := by
  apply BitVec.eq_of_toNat_eq
  have := b0.isLt
  have := b1.isLt
  rw [append_toNat]
  simp [ofLe, leNat]
  omega

/-- The link is the two bytes from the TSS's first byte on, where those run on. -/
theorem previousLink_of_contig {e : Config.Env} {s : State} {q : Word}
    (h : physRange e s sysRead s.tr.base 2 = some (contig q 2)) :
    previousLink e s = .ok (s.mem.get (q + 1#32).toNat ++ s.mem.get q.toNat) := by
  have hlink : tssBytes s.mem q TssField.link.at32.1 2 = [s.mem.get q.toNat, s.mem.get (q + 1#32).toNat] := by
    simp [tssBytes, TssField.at32, contig, Memory.getList]
  simp only [previousLink, physical_of_physRange h, h, if_true, hlink, ofLe_two]

theorem returnFromTask_pageFault {e : Config.Env} {s : State} (hn : flagNT s.eflags = true)
    (hl : s.tr.loaded = true) (h : physical e s sysRead s.tr.base = none) :
    returnFromTask e s = .error (pageFault e s) := by
  simp [returnFromTask, hn, hl, previousLink, h]

/-- Settles O31: lines I1 to I3; the link is read where the TSS's first byte translates to. -/
theorem iretToPreviousTaskCompletes : Obligations.IretToPreviousTaskCompletes := by
  refine ⟨fun s size hp => ⟨iret_eq hp, fun link nd p hadm hgoes => ?switch⟩,
    fun e s => ⟨fun hp => ?flat, fun q hq => previousLink_of_contig hq, fun hn hl hq => ?pageFault⟩⟩
  case switch =>
    rw [iret_eq hp, returnFromTask_admits hadm]
    exact settle_switchGoes hgoes
  case flat => exact previousLink_of_contig (physRange_flat hp sysRead s.tr.base 2)
  case pageFault =>
    rw [returnFromTask_pageFault hn hl hq]
    exact settle_pageFault e s

/-! ## Events and exceptions (41_task_dispatch.md R148, 60_exceptions.md R233) -/

/-- An address range translates alike in states with the same paging, CR3 and memory. -/
theorem physRange_congr {s t : State} (e : Config.Env) (hp : t.paging = s.paging) (h3 : t.cr3 = s.cr3)
    (hm : t.mem = s.mem) (acc : Config.Access) (la : Word) (n : Nat) :
    physRange e t acc la n = physRange e s acc la n := by
  have hphys (la : Word) : physical e t acc la = physical e s acc la := by simp only [physical, hp, h3, hm]
  induction n generalizing la with
  | zero => rfl
  | succ n ih => simp only [physRange, hphys, ih]

theorem descAt_setEvent (e : Config.Env) (s : State) (v : Option Event) (la : Word) :
    descAt e (s.setEvent v) la = descAt e s la := by
  simp only [descAt, readBytes, physRange_congr (s := s) (t := s.setEvent v) e rfl rfl rfl, State.setEvent_mem]

/-- Whether an event's vector names a task does not depend on the event still being presented. -/
theorem EventAdmits.setEvent {e : Config.Env} {s : State} {n : Byte} {newSel : Half} (h : EventAdmits e s n newSel)
    (v : Option Event) : EventAdmits e (s.setEvent v) n newSel := by
  obtain ⟨hi, g, hg, hrest⟩ := h
  exact ⟨hi, g, (descAt_setEvent e s v _).trans hg, hrest⟩

/-- A gate let through, and a switch that goes through it: what is left is the push of the error code. -/
theorem enterHandler_goes {e : Config.Env} {kind : SwitchKind} {n : Byte} {newSel : Half} {nd : Desc} {p : Plan}
    {ret : Word} {s : State} (hadm : EventAdmits e s n newSel) (hgoes : SwitchGoes e kind newSel nd p ret s) :
    ∃ t, Arrived e kind newSel nd p ret s t ∧
      ∀ code, enterHandler e kind n code ret s = endDelivery (withErrorCode e code t) := by
  obtain ⟨t, ht, ha⟩ := taskSwitch_goes hgoes
  exact ⟨t, ha, fun code => by simp [enterHandler, eventEntry_admits hadm, ht]⟩

/-- An exception on the way ends the delivery (U22, log 15). -/
theorem enterHandler_raised {e : Config.Env} {kind : SwitchKind} {n : Byte} {ret : Word} {s u : State} {x : Exc}
    {c : Option Half} (code : Option Half) (h : eventEntry e kind n ret s = raise x c u) :
    enterHandler e kind n code ret s = .fault (.exceptionDuringDelivery x c u) := by
  simp [enterHandler, h, raise, endDelivery]

section
variable {s : State} (hlegal : s.legal = true) (htrap : s.pendingTaskTrap = false)
include hlegal htrap

/-- An interrupt with IF set is taken at the boundary, and cleared (60_exceptions.md R235, log 18). -/
theorem step_interrupt {n : Byte} (hev : s.event = some (.intr n)) (hif : flagIF s.eflags = true) :
    step s = enterHandler Config.env .intr n none s.eip (s.setEvent none) := by
  obtain ⟨hp, h, hcs, hcode⟩ := State.legal_iff.mp hlegal
  refine step_of_done ?_
  rw [boundary_usable hcs hcode]
  simp [boundaryIn, htrap, hev, hif, inProtected_of_protectedMode _ hp, deliverEvent]

/-- So is an exception event, whatever IF is. -/
theorem step_exceptionEvent {n : Byte} {code : Option Half} {ret : Word} (hev : s.event = some (.exc n code ret)) :
    step s = enterHandler Config.env .exc n code ret (s.setEvent none) := by
  obtain ⟨hp, h, hcs, hcode⟩ := State.legal_iff.mp hlegal
  refine step_of_done ?_
  rw [boundary_usable hcs hcode]
  simp [boundaryIn, htrap, hev, inProtected_of_protectedMode _ hp, deliverEvent]

/-- Either event taken is an entry through its vector's gate, the event cleared. -/
theorem step_event {n : Byte} (hev : (s.event = some (.intr n) ∧ flagIF s.eflags = true) ∨
      ∃ code ret, s.event = some (.exc n code ret)) :
    ∃ kind code ret, step s = enterHandler Config.env kind n code ret (s.setEvent none) := by
  rcases hev with ⟨hev, hif⟩ | ⟨code, ret, hev⟩
  · exact ⟨_, _, _, step_interrupt hlegal htrap hev hif⟩
  · exact ⟨_, _, _, step_exceptionEvent hlegal htrap hev⟩

end

/-- Settles O32: the boundary clears the event and enters its vector's task; only an error code is left to push. -/
theorem eventsEnterTheirTask : Obligations.EventsEnterTheirTask := by
  intro s n newSel nd p hlegal htrap hadm
  have hadm' := hadm.setEvent none
  refine ⟨fun hev hif hgoes => ?interrupt, fun ret hev hgoes => ?plain, fun code ret hev hgoes => ?withCode⟩
  case interrupt =>
    obtain ⟨t, ha, hent⟩ := enterHandler_goes hadm' hgoes
    exact ⟨t, (step_interrupt hlegal htrap hev hif).trans (hent none), ha⟩
  case plain =>
    obtain ⟨t, ha, hent⟩ := enterHandler_goes hadm' hgoes
    exact ⟨t, (step_exceptionEvent hlegal htrap hev).trans (hent none), ha⟩
  case withCode =>
    obtain ⟨t, ha, hent⟩ := enterHandler_goes hadm' hgoes
    have hstep : step s = endDelivery (pushErrorCode Config.env code t) :=
      (step_exceptionEvent hlegal htrap hev).trans (hent (some code))
    exact ⟨t, ha, hstep, fun u hu => by rw [hstep, hu, endDelivery]⟩

section
variable {e : Config.Env} {kind : SwitchKind} {n : Byte} {ret : Word} {s : State}

theorem eventEntry_outside (h : s.idtr.limit.toNat < 8 * n.toNat + 7) :
    eventEntry e kind n ret s = raise .gp (some (errIdt n ||| 1#16)) s := by
  simp [eventEntry, inIdt_of_lt h]

theorem eventEntry_notPresent {g : Desc} (hin : 8 * n.toNat + 7 ≤ s.idtr.limit.toNat)
    (hg : descAt e s (idtAddr s n) = some g) (ht : g.isTaskGate = true) (hp : g.p = false) :
    eventEntry e kind n ret s = raise .np (some (errIdt n ||| 1#16)) s := by
  simp [eventEntry, inIdt_of_le hin, hg, ht, hp]

end

/-- Settles O33: lines E1 and E3 raise with EXT set, in the state with the event cleared. -/
theorem eventFaults : Obligations.EventFaults := by
  intro s n hlegal htrap hev
  obtain ⟨kind, code, ret, hstep⟩ := step_event hlegal htrap hev
  rw [hstep]
  refine ⟨fun hout => enterHandler_raised code (eventEntry_outside hout), fun g hin hg ht hp => ?_⟩
  exact enterHandler_raised code (eventEntry_notPresent hin ((descAt_setEvent _ s none _).trans hg) ht hp)

theorem gateIsTaskGate_of_admits {e : Config.Env} {s : State} {n : Byte} {newSel : Half}
    (h : EventAdmits e s n newSel) : gateIsTaskGate e s n = true := by
  obtain ⟨hi, g, hg, ht, -⟩ := h
  simp [gateIsTaskGate, idtEntry?, hi, hg, ht]

theorem takeException_taskGate {e : Config.Env} {s : State} {x : Exc} (code : Option Half)
    (hp : s.protectedMode = true) (hg : gateIsTaskGate e s x.vector = true) :
    takeException e x code s = enterHandler e .exc x.vector code s.eip s := by
  simp [takeException, hp, hg]

/-- Settles O34: a task gate makes taking the exception an entry of kind EXC, and what is left is the push. -/
theorem exceptionEntersHandlerTask : Obligations.ExceptionEntersHandlerTask := by
  intro s x newSel nd p hp hadm hgoes
  obtain ⟨t, ha, hent⟩ := enterHandler_goes hadm hgoes
  have htake (code : Option Half) :
      takeException Config.env x code s = endDelivery (withErrorCode Config.env code t) :=
    (takeException_taskGate code hp (gateIsTaskGate_of_admits hadm)).trans (hent code)
  exact ⟨t, htake none, ha, fun code => htake (some code)⟩

/-! ## The push of an error code (41_task_dispatch.md R151, log 16) -/

theorem errorCodeBytes_length (is32 : Bool) (code free : Half) :
    (errorCodeBytes is32 code free).length = linkLength is32 := by
  cases is32 <;> rfl

theorem errorCodeBytes_take (is32 : Bool) (code free : Half) :
    (errorCodeBytes is32 code free).take 2 = Half.bytes code := by
  cases is32 <;> rfl

/-- The low 16 bits of what is pushed are the code, in either width. -/
theorem errorCode_reads_back (m : Memory) (a : Word) (is32 : Bool) (code free : Half) :
    ofLe 16 ((m.setList (contig a (linkLength is32)) (errorCodeBytes is32 code free)).getList (contig a 2)) =
      code := by
  have hnd : (contig a (linkLength is32)).Nodup := contig_nodup a ((linkLength_le _).trans (tssSize_small _))
  have hback := getList_setList_same (errorCodeBytes is32 code free) m hnd
    ((errorCodeBytes_length is32 code free).trans (contig_length _ _).symm)
  unfold Memory.getList at hback ⊢
  rw [contig_two_eq_take a is32, List.map_take, hback, errorCodeBytes_take, ofLe_halfBytes]

/-- The push into a segment that takes it: the code at the new offset, ESP moved, nothing else. -/
theorem pushErrorCode_pushed {e : Config.Env} {s : State} {h : Hidden} {n : Nat} (code : Half)
    (hp : s.paging = false) (hs : s.ss.hidden = some h) (hw : h.writable = true)
    (hn : linkLength s.tr.is32 = n) (hc : h.covers (pushOffset h s.gpr.esp n) n = true) :
    ∃ t, pushErrorCode e code s = .ok t ∧
      t = { s with
        gpr := { s.gpr with esp := espAfterPush h s.gpr.esp (pushOffset h s.gpr.esp n) }
        mem := t.mem, draws := t.draws } ∧
      ofLe 16 (t.mem.getList (contig (h.base + pushOffset h s.gpr.esp n) 2)) = code ∧
      ∀ a : Nat, (∀ q ∈ contig (h.base + pushOffset h s.gpr.esp n) n, a ≠ q.toNat) →
        t.mem.get a = s.mem.get a := by
  refine ⟨_, pushErrorCode_flat hp hs hw ((errorCodeBytes_length _ _ _).trans hn) hc, rfl, ?_, fun a ha => ?_⟩
  · subst hn
    exact errorCode_reads_back _ _ _ _ _
  · exact Memory.get_setList_of_notMem _ _ ha

theorem low_setWidth (x : Half) : low (x.setWidth 32) = x := by
  apply BitVec.eq_of_toNat_eq
  have := x.isLt
  simp [low]
  omega

/-- Settles O36: the two widths are one push of 4 or 2 bytes; the stack pointer is ESP, or SP with the upper half
of ESP kept. -/
theorem errorCodeIsPushed : Obligations.ErrorCodeIsPushed := by
  intro e s code h hp hs hw
  refine ⟨fun h32 hc => pushErrorCode_pushed code hp hs hw (by rw [h32]; rfl) hc,
    fun h16 hc => pushErrorCode_pushed code hp hs hw (by rw [h16]; rfl) hc,
    fun n => ⟨fun hbig => ?esp, fun hbig => ?sp⟩⟩
  case esp => simp [pushOffset, espAfterPush, hbig]
  case sp => simp [pushOffset, espAfterPush, hbig, withLow, low_setWidth]

end Sys2Proof.Machine
end

section
namespace Sys2Proof.Machine

open Config (CheckId)

/-! ## K1, K3 and K4 (42_task_switch.md R163, R166, R167) -/

/-- Settles O37: K1 is tested before the descriptor is read. -/
theorem selectorOutsideGdtFails : Obligations.SelectorOutsideGdtFails := by
  intro e kind newSel ret s hl hout
  have hk1 : (selTI newSel || !inGdt s newSel) = true := by simpa [inGdt, withinLimit] using hout
  have hpre : preChecks e kind newSel s = .error (.raised .gp (some (errSel newSel ||| kind.ext)) s) := if_pos hk1
  simp [taskSwitch, hl, hpre]

theorem preCheck_k3_fails {kind : SwitchKind} {nd : Desc} {s : State} (hb : busyTestOk kind nd = false) :
    preCheck kind nd s .k3 = some (if kind = .iret then .ts else .gp) := by
  simp [preCheck, hb]

/-- For a present descriptor that fails K3 no other check fails: K4 needs K3. -/
theorem preCheck_none_of_ne_k3 {kind : SwitchKind} {nd : Desc} {s : State} (hp : nd.p = true)
    (hb : busyTestOk kind nd = false) (k : CheckId) (hk : k ≠ .k3) : preCheck kind nd s k = none := by
  cases k with
  | k2 => exact if_pos hp
  | k3 => exact absurd rfl hk
  | k4 => simp [preCheck, hb]
  | _ => rfl

theorem busyTestOk_eq_false {kind : SwitchKind} {nd : Desc}
    (h : nd.isTss = false ∨ nd.busyBit = decide (kind ≠ .iret)) : busyTestOk kind nd = false := by
  rw [← Bool.not_eq_true, busyTestOk_iff]
  rintro ⟨htss, hbusy⟩
  rcases h with h | h
  · exact absurd htss (by simp [h])
  · rw [hbusy] at h
    by_cases hk : kind = .iret <;> simp [hk] at h

/-- Settles O39: K3 is the only check that fails, so `CHECK_ORDER` does not matter. -/
theorem busyTestFails : Obligations.BusyTestFails := by
  intro e kind newSel ret s nd hl hti hin hd hp h
  have hb := busyTestOk_eq_false h
  exact taskSwitch_of_preCheck_fails ret hl hti hin hd
    (findSome_order .k3 (preCheck_k3_fails hb) (preCheck_none_of_ne_k3 hp hb))

theorem preCheck_k4_fails {kind : SwitchKind} {nd : Desc} {s : State} (hb : busyTestOk kind nd = true)
    (hlim : nd.effLimit.toNat < minLimit s nd) : preCheck kind nd s .k4 = some .ts := by
  simp [preCheck, hb, hlim]

theorem preCheck_none_of_ne_k4 {kind : SwitchKind} {nd : Desc} {s : State} (hp : nd.p = true)
    (hb : busyTestOk kind nd = true) (k : CheckId) (hk : k ≠ .k4) : preCheck kind nd s k = none := by
  cases k with
  | k2 => exact if_pos hp
  | k3 => exact if_pos hb
  | k4 => exact absurd rfl hk
  | _ => rfl

/-- Settles O40: K4 is the only check that fails. -/
theorem shortTssFails : Obligations.ShortTssFails := by
  intro e kind newSel ret s nd hl hti hin hd hp htss hbusy hlim
  have hb : busyTestOk kind nd = true := busyTestOk_iff.mpr ⟨htss, hbusy⟩
  exact taskSwitch_of_preCheck_fails ret hl hti hin hd
    (findSome_order .k4 (preCheck_k4_fails hb hlim) (preCheck_none_of_ne_k4 hp hb))

/-- A far transfer is a JMP or a CALL. -/
theorem FarForm.kind_eq {e : Config.Env} {s : State} {i : Instr} {kind : SwitchKind} {sel : Half}
    (h : FarForm e s i kind sel) : kind = .call ∨ kind = .jmp := by
  cases i with
  | callPtr32 => exact .inl h.1
  | callPtr16 => exact .inl h.1
  | callMem => exact .inl h.1
  | jmpPtr32 => exact .inr h.1
  | jmpPtr16 => exact .inr h.1
  | jmpMem => exact .inr h.1
  | _ => exact h.elim

/-- Settles O42: the dispatch lets the selector through, and K3 fails for every kind but IRET; none of these kinds
sets EXT. -/
theorem busyTaskCannotBeEntered : Obligations.BusyTaskCannotBeEntered := by
  intro s newSel nd hpm hl hti hin hd hp htss hbusy
  have hk3 (kind : SwitchKind) (hk : kind ≠ .iret) (hext : kind.ext = 0#16) :
      settle Config.env (taskSwitch Config.env kind newSel s.nextEip s) =
        takeException Config.env .gp (some (errSel newSel)) s := by
    rw [busyTestFails Config.env kind newSel s.nextEip s nd hl hti hin hd hp
      (.inr (by rw [hbusy, decide_eq_true hk])), if_neg hk, hext, BitVec.or_zero, settle_raised]
  refine ⟨fun i kind sel hform hadm => ?far, fun n hadm => ?int⟩
  case far =>
    rw [far_eq hpm hform, farTransfer_admits hadm]
    rcases hform.kind_eq with rfl | rfl
    · exact hk3 .call (by decide) rfl
    · exact hk3 .jmp (by decide) rfl
  case int =>
    rw [int_eq hpm, softwareInterrupt_admits hadm]
    exact hk3 .intN (by decide) rfl

/-! ## Step 5 (42_task_switch.md R168) -/

section
variable {e : Config.Env} {kind : SwitchKind} {newSel : Half} {nd : Desc} {ret : Word} {s : State}

theorem taskSwitch_of_plan_error {x : Stop} (hl : s.tr.loaded = true) (hpre : preChecks e kind newSel s = .ok nd)
    (hplan : plan e kind newSel nd s = .error x) : taskSwitch e kind newSel ret s = .error x := by
  simp [taskSwitch, hl, hpre, hplan]

theorem plan_pageFault (h : physRange e s sysRead s.tr.base (tssSize s.tr.is32) = none ∨
      physRange e s sysRead nd.base (tssSize nd.is32) = none ∨
      physRange e s sysRead (gdtAddr s s.tr.sel) 8 = none) :
    plan e kind newSel nd s = .error (pageFault e s) := by
  unfold plan
  split
  · next hold hnew hod _ => simp [hold, hnew, hod] at h
  · rfl

theorem descAt_of_physRange_none {la : Word} (h : physRange e s sysRead la 8 = none) : descAt e s la = none := by
  simp [descAt, readBytes, h]

theorem physRange_of_descAt {la : Word} {d : Desc} (h : descAt e s la = some d) :
    ∃ ps, physRange e s sysRead la 8 = some ps := by
  cases hp : physRange e s sysRead la 8 with
  | none => rw [descAt_of_physRange_none hp] at h; cases h
  | some ps => exact ⟨ps, rfl⟩

theorem taskSwitch_descPageFault (hl : s.tr.loaded = true) (hti : selTI newSel = false)
    (hin : 8 * selIndex newSel + 7 ≤ s.gdtr.limit.toNat) (hd : descAt e s (gdtAddr s newSel) = none) :
    taskSwitch e kind newSel ret s = .error (pageFault e s) := by
  have hpre : preChecks e kind newSel s = .error (pageFault e s) := by simp [preChecks, hti, inGdt_of_le hin, hd]
  simp [taskSwitch, hl, hpre]

/-- Bytes that translate otherwise for a write are not writable where they are read. -/
theorem writableAt_eq_false {la : Word} {n : Nat} {ps : List Word} (hr : physRange e s sysRead la n = some ps)
    (hw : physRange e s sysWrite la n ≠ physRange e s sysRead la n) : writableAt e s la ps = false := by
  rw [writableAt, physRange_length hr, beq_eq_false_iff_ne, ← hr]
  exact hw

/-- Once everything is found, a structure that is not writable where it is read is a refusal. -/
theorem plan_refused {old new od nw : List Word}
    (hold : physRange e s sysRead s.tr.base (tssSize s.tr.is32) = some old)
    (hnew : physRange e s sysRead nd.base (tssSize nd.is32) = some new)
    (hod : physRange e s sysRead (gdtAddr s s.tr.sel) 8 = some od)
    (hnw : physRange e s sysRead (gdtAddr s newSel) 8 = some nw)
    (h : planWritable e kind newSel nd s old new od nw = false) :
    ∃ r, plan e kind newSel nd s = .error (.refused r) := by
  cases hrun : runsOn old && runsOn new with
  | true => exact ⟨.tssNotWritable, by simp only [plan, hold, hnew, hod, hnw, hrun, h]; rfl⟩
  | false => exact ⟨.tssNotContiguous, by simp only [plan, hold, hnew, hod, hnw, hrun]; rfl⟩

end

/-- Settles O41: `plan` asks where each structure is read, then whether it is written there. -/
theorem stepFive : Obligations.StepFive := by
  intro e kind newSel nd s
  refine ⟨fun hp => ?flat, fun ret hl hpre h => ?absent, fun ret hl hpre hold hnew hod h => ?notWritable,
    fun ret hl hti hin h => ?newDesc⟩
  case flat => exact plan_flat hp
  case absent => exact ⟨_, taskSwitch_of_plan_error hl hpre (plan_pageFault h)⟩
  case newDesc => exact ⟨_, taskSwitch_descPageFault hl hti hin (descAt_of_physRange_none h)⟩
  case notWritable =>
    obtain ⟨old, hold⟩ := Option.isSome_iff_exists.mp hold
    obtain ⟨new, hnew⟩ := Option.isSome_iff_exists.mp hnew
    obtain ⟨od, hod⟩ := Option.isSome_iff_exists.mp hod
    obtain ⟨-, hdesc, -⟩ := preChecks_ok_iff.mp hpre
    obtain ⟨nw, hnw⟩ := physRange_of_descAt hdesc
    have hw : planWritable e kind newSel nd s old new od nw = false := by
      rcases h with h | ⟨hk, h⟩ | ⟨hk, h⟩ | ⟨hk, h⟩
      · simp [planWritable, writableAt_eq_false hold h]
      · simp [planWritable, writableAt_eq_false hnew h, hk]
      · simp [planWritable, writableAt_eq_false hod h, clearsOldBusy_eq, hk]
      · simp [planWritable, writableAt_eq_false hnw h, hk]
    obtain ⟨r, hr⟩ := plan_refused hold hnew hod hnw hw
    exact ⟨r, taskSwitch_of_plan_error hl hpre hr⟩

/-! ## Where a selector is looked up (20_memory.md R64, R65) -/

theorem selIndex_eq (sel : Half) : selIndex sel = (sel >>> 3).toNat := by
  have := sel.isLt
  simp [selIndex, Nat.shiftRight_eq_div_pow]
  omega

theorem inGdt_eq (s : State) (sel : Half) :
    inGdt s sel = decide (8 * (sel >>> 3).toNat + 7 ≤ s.gdtr.limit.toNat) := by
  rw [inGdt, selIndex_eq, withinLimit]

theorem gdtAddr_eq (s : State) (sel : Half) :
    gdtAddr s sel = s.gdtr.base + BitVec.ofNat 32 (8 * (sel >>> 3).toNat) := by
  rw [gdtAddr, selIndex_eq, entryAddr]

theorem lookedUp_inGdt (s : State) {sel : Half} (h : selTI sel = false) :
    inTable s sel = decide (8 * (sel >>> 3).toNat + 7 ≤ s.gdtr.limit.toNat) ∧
    descAddr s sel = s.gdtr.base + BitVec.ofNat 32 (8 * (sel >>> 3).toNat) := by
  simp [inTable, descAddr, h, inGdt_eq, gdtAddr_eq]

theorem lookedUp_inLdt {s : State} {sel : Half} {h : Hidden} (hti : selTI sel = true) (hl : s.ldtr.hidden = some h) :
    inTable s sel = decide (8 * (sel >>> 3).toNat + 7 ≤ h.limit.toNat) ∧
    descAddr s sel = h.base + BitVec.ofNat 32 (8 * (sel >>> 3).toNat) := by
  simp [inTable, descAddr, hti, hl, selIndex_eq, withinLimit, entryAddr]

theorem inTable_noLdtr {s : State} {sel : Half} (hti : selTI sel = true) (hl : s.ldtr.hidden = none) :
    inTable s sel = false := by
  simp [inTable, hti, hl]

/-- Settles O51: a selector of the new task is looked up in the state whose LDTR is the new one, as one of the
current task is in its own. -/
theorem selectorsAreLookedUpInTheirTable : Obligations.SelectorsAreLookedUpInTheirTable :=
  ⟨fun s sel => ⟨lookedUp_inGdt s, fun _ => lookedUp_inLdt, inTable_noLdtr, inGdt_eq s sel, gdtAddr_eq s sel⟩,
    fun _ _ => ⟨rfl, rfl⟩,
    fun e l _ => ⟨lookedUp_inGdt (withNewLdt e l), fun _ => lookedUp_inLdt (s := withNewLdt e l),
      inTable_noLdtr (s := withNewLdt e l)⟩⟩

/-! ## The order of the checks of step 13, and those skipped (42_task_switch.md R164) -/

/-- Settles O52: the checks `CHECK_ORDER` names come first, and by default they are Table 6-1's. -/
theorem defaultCheckOrder : Obligations.DefaultCheckOrder := by
  intro s hs
  refine ⟨CheckId.table.flatMap checksOf, ?_⟩
  rw [loadChecks, checkOrder, hs, List.flatMap_append]
  rfl

theorem preCheck_k4_of_k3 {kind : SwitchKind} {nd : Desc} {s : State} {x : Exc}
    (h : preCheck kind nd s .k3 = some x) : preCheck kind nd s .k4 = none := by
  cases hb : busyTestOk kind nd with
  | true => simp [preCheck, hb] at h
  | false => simp [preCheck, hb]

/-- K10 needs K5. -/
theorem ldtPresent_skipped {l : Lookup} {x : Exc} {sel sel' : Half} (h : ldtValid l sel = some (.fails x sel')) :
    ldtPresent l sel = none := by
  cases l with
  | absent => cases h
  | found d =>
    cases hd : d.isLdt with
    | true => simp [ldtValid, hd] at h
    | false => simp [ldtPresent, hd]
  | _ => rfl

/-- A check on a descriptor needs its validity check. -/
theorem descCheck_skipped {l : Lookup} {valid : Desc → Bool} {x : Exc} {sel sel' : Half}
    (h : validCheck l valid sel = some (.fails x sel')) (ok : Desc → Bool) (y : Exc) :
    descCheck l valid ok y sel = none := by
  cases l with
  | absent => cases h
  | found d =>
    cases hd : valid d with
    | true => simp [validCheck, hd] at h
    | false => simp [descCheck, hd]
  | _ => rfl

theorem validCheck_of_dataValidCheck {l : Lookup} {valid : Desc → Bool} {f : Failure} {sel : Half}
    (h : dataValidCheck l valid sel = some f) : validCheck l valid sel = some f := by
  cases l with
  | null => cases h
  | _ => exact h

/-- A selector with TI set is not the null selector (20_memory.md R63). -/
theorem selNull_of_selTI {sel : Half} (h : selTI sel = true) : selNull sel = false := by
  rw [selNull, beq_eq_false_iff_ne]
  intro h0
  have hbit : (sel.extractLsb' 2 14).getLsbD 0 = true := by simpa [selTI] using h
  rw [h0] at hbit
  cases hbit

/-- A selector with TI set is not looked up when K5 or K10 fails. -/
theorem segLookup_skipped {e : Config.Env} {l : State} {sel : Half} (hti : selTI sel = true)
    (hl : checkFailure e l .ldtValid ≠ none ∨ checkFailure e l .ldtPresent ≠ none) :
    segLookup e l sel = .skipped := by
  have hok : ldtOk e l = false := by
    rw [← Bool.not_eq_true, ldtOk, Bool.and_eq_true, Option.isNone_iff_eq_none, Option.isNone_iff_eq_none]
    exact fun ⟨h5, h10⟩ => hl.elim (fun hn => hn h5) (fun hn => hn h10)
  simp [segLookup, selNull_of_selTI hti, hti, hok]

/-- Settles O53: a failing validity check leaves no descriptor of its kind, and a failing K5 or K10 no LDT. -/
theorem checksThatNeedAFailingOneAreSkipped : Obligations.ChecksThatNeedAFailingOneAreSkipped := by
  refine ⟨fun kind nd s x => preCheck_k4_of_k3, fun e l x sel =>
    ⟨fun h => ldtPresent_skipped h, fun h => ?cs, fun h => ?ss, fun r h => ?data, fun hl =>
      ⟨fun hti => ?csTi, fun hti => ?ssTi, fun r hti => ?dataTi⟩⟩⟩
  case cs => exact ⟨descCheck_skipped h _ _, descCheck_skipped h _ _⟩
  case ss => exact ⟨descCheck_skipped h _ _, descCheck_skipped h _ _, descCheck_skipped h _ _⟩
  case data =>
    have hv := validCheck_of_dataValidCheck h
    exact ⟨descCheck_skipped hv _ _, descCheck_skipped hv _ _, descCheck_skipped hv _ _⟩
  case csTi =>
    simp only [checkFailure, segLookup_skipped hti hl]
    exact ⟨rfl, rfl, rfl⟩
  case ssTi =>
    simp only [checkFailure, segLookup_skipped hti hl]
    exact ⟨rfl, rfl, rfl, rfl⟩
  case dataTi =>
    simp only [checkFailure, segLookup_skipped hti hl]
    exact ⟨rfl, rfl, rfl, rfl⟩

/-! ## A descriptor that cannot be read, and a failing check (42_task_switch.md R168, R202) -/

theorem ldtLookup_absent {e : Config.Env} {l : State} (hn : selNull l.ldtr.sel = false)
    (hti : selTI l.ldtr.sel = false) (hin : 8 * selIndex l.ldtr.sel + 7 ≤ l.gdtr.limit.toNat)
    (hd : descAt e l (gdtAddr l l.ldtr.sel) = none) : ldtLookup e l = .absent := by
  simp [ldtLookup, hn, hti, inGdt_of_le hin, hd]

/-- Settles O54: the look-up answers `.absent`, and every check that uses it answers that with a page fault. -/
theorem absentDescriptorPageFaults : Obligations.AbsentDescriptorPageFaults := by
  intro e l
  refine ⟨fun hn hti hin hd => ?ldt, fun h => ?cs, fun h => ?ss, fun r h => ?data⟩
  case ldt =>
    simp only [List.forall_mem_cons, checkFailure, ldtLookup_absent hn hti hin hd]
    exact ⟨rfl, rfl, List.forall_mem_nil _⟩
  case cs =>
    simp only [List.forall_mem_cons, checkFailure, segLookup_absent h]
    exact ⟨rfl, rfl, rfl, List.forall_mem_nil _⟩
  case ss =>
    simp only [List.forall_mem_cons, checkFailure, segLookup_absent h]
    exact ⟨rfl, rfl, rfl, rfl, List.forall_mem_nil _⟩
  case data =>
    simp only [List.forall_mem_cons, checkFailure, segLookup_absent h]
    exact ⟨rfl, rfl, rfl, rfl, List.forall_mem_nil _⟩

/-- Settles O55: a switch past the commit point stops at the first failing check of `loadChecks`. -/
theorem failedCheckIsReportedInTheNewTask : Obligations.FailedCheckIsReportedInTheNewTask := by
  intro e kind newSel nd p ret s held after c f hready hload horder hheld hfail
  obtain ⟨x, code, u, hx, hreport, -, hstop⟩ := taskSwitch_stopped hready hload horder hheld hfail
  exact ⟨x, code, u, hx, hreport, hstop⟩

end Sys2Proof.Machine
end

section
namespace Sys2Proof.Machine

/-! ## What a completed switch saves (42_task_switch.md R170, R172, R180, R181) -/

section
variable {e : Config.Env} {kind : SwitchKind} {newSel : Half} {nd : Desc} {p : Plan} {ret : Word} {s t : State}
  {M : List Word} {f : TssField}

theorem TssField.saved_at32 (hf : f.savedOnSuspend = true) :
    saveOffset true ≤ f.at32.1 ∧ f.at32.1 + f.at32.2 ≤ saveOffset true + saveLength true := by
  revert hf
  cases f <;> decide

theorem TssField.static_at32 (hf : f.savedOnSuspend = false) :
    f.at32.1 + f.at32.2 ≤ tssSize true ∧
    (f.at32.1 + f.at32.2 ≤ saveOffset true ∨ saveOffset true + saveLength true ≤ f.at32.1) := by
  revert hf
  cases f <;> decide

theorem TssField.saved_at16 {off : Nat} (hf : f.savedOnSuspend = true) (ho : f.at16 = some off) :
    saveOffset false ≤ off ∧ off + 2 ≤ saveOffset false + saveLength false := by
  revert hf ho
  cases f <;> rintro ⟨⟩ ⟨⟩ <;> decide

theorem TssField.static_at16 {off : Nat} (hf : f.savedOnSuspend = false) (ho : f.at16 = some off) :
    off + 2 ≤ tssSize false ∧ (off + 2 ≤ saveOffset false ∨ saveOffset false + saveLength false ≤ off) := by
  revert hf ho
  cases f <;> rintro ⟨⟩ ⟨⟩ <;> decide

variable (hin : InNewTask e kind newSel nd p ret s M t) (ha : Apart p nd s M)
include hin ha

section
variable (h32 : s.tr.is32 = true)
include h32

theorem static_tssBytes32 (hf : f.savedOnSuspend = false) :
    tssBytes t.mem p.oldTss f.at32.1 f.at32.2 = tssBytes s.mem p.oldTss f.at32.1 f.at32.2 := by
  obtain ⟨hsize, hapart⟩ := TssField.static_at32 hf
  exact old_static hin ha (h32 ▸ hsize) (h32 ▸ hapart)

theorem saved_tssBytes32 (hf : f.savedOnSuspend = true) : tssBytes t.mem p.oldTss f.at32.1 f.at32.2 =
    ((saveBytes32 e s ret (savedFlags kind s.eflags)).drop (f.at32.1 - saveOffset true)).take f.at32.2 := by
  obtain ⟨hlo, hhi⟩ := TssField.saved_at32 hf
  have h := old_field hin ha (h32 ▸ hlo) (h32 ▸ hhi)
  rwa [saveBytes, h32] at h

/-- A 32-bit field reads back as the register whose bytes step 8 put there. -/
theorem saved_word32 {v : Word} (hf : f.savedOnSuspend = true) (hw : f.at32.2 = 4)
    (hv : ((saveBytes32 e s ret (savedFlags kind s.eflags)).drop (f.at32.1 - saveOffset true)).take 4 =
      Word.bytes v) : tssWord t.mem p.oldTss f = v := by
  have h := saved_tssBytes32 hin ha h32 hf
  rw [hw, hv] at h
  rw [tssWord, h, ofLe_wordBytes]

theorem saved_half32 {v : Half} (hf : f.savedOnSuspend = true) (hw : f.at32.2 = 2)
    (hv : ((saveBytes32 e s ret (savedFlags kind s.eflags)).drop (f.at32.1 - saveOffset true)).take 2 =
      Half.bytes v) : tssHalf t.mem p.oldTss f = v := by
  have h := saved_tssBytes32 hin ha h32 hf
  rw [hw, hv] at h
  rw [tssHalf, h, ofLe_halfBytes]

/-- The registers in the old 32-bit TSS are those on entry, EIP and EFLAGS as the kind of switch saves them. -/
theorem image32_saved : image32 t.mem p.oldTss =
    { image32 s.mem p.oldTss with
      eip := ret, eflags := savedFlags kind s.eflags
      gpr := s.gpr, es := s.es.sel, cs := s.cs.sel, ss := s.ss.sel, ds := s.ds.sel, fs := s.fs.sel
      gs := s.gs.sel } := by
  have word {f : TssField} {v : Word} := saved_word32 (f := f) (v := v) hin ha h32
  have half {f : TssField} {v : Half} := saved_half32 (f := f) (v := v) hin ha h32
  have static {f : TssField} := static_tssBytes32 (f := f) hin ha h32
  refine (TssImage.mk.injEq ..).mpr ⟨?cr3, word rfl rfl rfl, word rfl rfl rfl, (Gprs.mk.injEq ..).mpr ?gprs,
    half rfl rfl rfl, half rfl rfl rfl, half rfl rfl rfl, half rfl rfl rfl, half rfl rfl rfl, half rfl rfl rfl,
    ?ldt, ?trap⟩
  case cr3 => exact congrArg (fun bs => some (ofLe 32 bs)) (static (f := .cr3) rfl)
  case gprs =>
    exact ⟨word rfl rfl rfl, word rfl rfl rfl, word rfl rfl rfl, word rfl rfl rfl, word rfl rfl rfl,
      word rfl rfl rfl, word rfl rfl rfl, word rfl rfl rfl⟩
  case ldt => exact congrArg (ofLe 16) (static (f := .ldt) rfl)
  case trap => exact congrArg (fun bs => (ofLe 8 bs).getLsbD 0) (static (f := .trap) rfl)

end

section
variable (h16 : s.tr.is32 = false)
include h16

theorem static_tssBytes16 {off : Nat} (hf : f.savedOnSuspend = false) (ho : f.at16 = some off) :
    tssBytes t.mem p.oldTss off 2 = tssBytes s.mem p.oldTss off 2 := by
  obtain ⟨hsize, hapart⟩ := TssField.static_at16 hf ho
  exact old_static hin ha (h16 ▸ hsize) (h16 ▸ hapart)

/-- A field of a 16-bit TSS reads back as the half whose bytes step 8 put there. -/
theorem saved_half16 {off : Nat} {v : Half} (hf : f.savedOnSuspend = true) (ho : f.at16 = some off)
    (hv : ((saveBytes16 s ret (savedFlags kind s.eflags)).drop (off - saveOffset false)).take 2 =
      Half.bytes v) : tss16Half t.mem p.oldTss f = v := by
  obtain ⟨hlo, hhi⟩ := TssField.saved_at16 hf ho
  have h := old_field hin ha (h16 ▸ hlo) (h16 ▸ hhi)
  rw [saveBytes, h16] at h
  have hbytes : tssBytes t.mem p.oldTss off 2 = Half.bytes v := h.trans hv
  rw [tss16Half, ho, Option.getD_some, hbytes, ofLe_halfBytes]

/-- The low halves of the registers are in the old 16-bit TSS. -/
theorem image16_saved : image16 e 0 t.mem p.oldTss =
    { image16 e 0 s.mem p.oldTss with
      eip := (low ret).setWidth 32
      eflags := (low (savedFlags kind s.eflags)).setWidth 32
      gpr := { eax := e.draw16 0 ++ low s.gpr.eax, ecx := e.draw16 1 ++ low s.gpr.ecx
               edx := e.draw16 2 ++ low s.gpr.edx, ebx := e.draw16 3 ++ low s.gpr.ebx
               esp := e.draw16 4 ++ low s.gpr.esp, ebp := e.draw16 5 ++ low s.gpr.ebp
               esi := e.draw16 6 ++ low s.gpr.esi, edi := e.draw16 7 ++ low s.gpr.edi }
      es := s.es.sel, cs := s.cs.sel, ss := s.ss.sel, ds := s.ds.sel } := by
  have half {f : TssField} {off : Nat} {v : Half} := saved_half16 (f := f) (off := off) (v := v) hin ha h16
  have wide {f : TssField} {off : Nat} {v : Half} (hf : f.savedOnSuspend = true) (ho : f.at16 = some off)
      (hv : ((saveBytes16 s ret (savedFlags kind s.eflags)).drop (off - saveOffset false)).take 2 = Half.bytes v) :
      (tss16Half t.mem p.oldTss f).setWidth 32 = v.setWidth 32 := congrArg _ (half hf ho hv)
  have gpr {n : Nat} {f : TssField} {off : Nat} {v : Half} (hf : f.savedOnSuspend = true) (ho : f.at16 = some off)
      (hv : ((saveBytes16 s ret (savedFlags kind s.eflags)).drop (off - saveOffset false)).take 2 = Half.bytes v) :
      e.draw16 n ++ tss16Half t.mem p.oldTss f = e.draw16 n ++ v := congrArg _ (half hf ho hv)
  refine (TssImage.mk.injEq ..).mpr ⟨rfl, wide rfl rfl rfl, wide rfl rfl rfl, (Gprs.mk.injEq ..).mpr ?gprs,
    half rfl rfl rfl, half rfl rfl rfl, half rfl rfl rfl, half rfl rfl rfl, rfl, rfl, ?ldt, rfl⟩
  case gprs =>
    exact ⟨gpr rfl rfl rfl, gpr rfl rfl rfl, gpr rfl rfl rfl, gpr rfl rfl rfl, gpr rfl rfl rfl, gpr rfl rfl rfl,
      gpr rfl rfl rfl, gpr rfl rfl rfl⟩
  case ldt => exact congrArg (ofLe 16) (static_tssBytes16 (f := .ldt) hin ha h16 rfl rfl)

end

end

/-- Settles O45: field by field, the old TSS holds what step 8 stored, or is untouched. -/
theorem oldTaskIsSaved : Obligations.OldTaskIsSaved := by
  intro e kind newSel nd p ret s t hgoes hok happart
  have hin := (arrived_of_goes hgoes hok).inNewTask
  have ha := apart_of_switchApart happart
  exact ⟨fun h32 => ⟨image32_saved hin ha h32, fun _ => static_tssBytes32 hin ha h32⟩,
    fun h16 => ⟨image16_saved hin ha h16, fun _ _ => static_tssBytes16 hin ha h16⟩⟩

/-! ## What a completed switch loads (42_task_switch.md R186, R188, R174) -/

section
variable {e : Config.Env} {kind : SwitchKind} {newSel : Half} {nd : Desc} {p : Plan} {ret : Word} {s t : State}
  {M : List Word}

theorem arrivalImage_eq_image32 (ha : Apart p nd s M) (h32 : nd.is32 = true) :
    arrivalImage e kind newSel nd p ret s = image32 s.mem p.newTss := by
  rw [arrivalImage, newImage, tssImage, if_pos h32, new_image32 ha h32]

theorem arrivalImage_eq_image16 (ha : Apart p nd s M) (h16 : nd.is32 = false) :
    arrivalImage e kind newSel nd p ret s =
      image16 e (commit e p kind newSel nd ret s).draws s.mem p.newTss := by
  rw [arrivalImage, newImage, tssImage, if_neg (by simp [h16]), new_image16 ha h16]

/-- EFLAGS is the image's, NT set when nesting, at every position with a meaning (log 26). -/
theorem inNewTask_eflags (h : InNewTask e kind newSel nd p ret s M t) :
    t.eflags &&& ~~~flagsReserved =
      nestedFlags kind (arrivalImage e kind newSel nd p ret s).eflags &&& ~~~flagsReserved := by
  apply BitVec.eq_of_getLsbD_eq
  intro i hi
  simp only [BitVec.getLsbD_and]
  by_cases h14 : i = 14
  · subst h14
    exact congrArg (· && _) (h.nt.trans (nestedFlags_nt kind _).symm)
  · have hnt : (0x00004000#32).getLsbD i = false := by
      rw [show 0x00004000#32 = BitVec.twoPow 32 14 from rfl, BitVec.getLsbD_twoPow]
      simp [Ne.symm h14]
    have hflags := congrArg (·.getLsbD i) h.flags
    simp only [BitVec.getLsbD_and, BitVec.getLsbD_not, BitVec.getLsbD_or, hnt, Bool.or_false] at hflags
    rw [nestedFlags_other kind _ h14, BitVec.getLsbD_not]
    exact hflags

theorem loadedCr3_some {img : TssImage} {v : Word} (h : img.cr3 = some v) :
    loadedCr3 s img = if s.paging = true ∨ s.params.cr3LoadNeedsPg = false then v else s.cr3 := by
  simp [loadedCr3, h]

theorem loadedCr3_none {img : TssImage} (h : img.cr3 = none) : loadedCr3 s img = s.cr3 := by
  simp [loadedCr3, h]

end

/-- Settles O46: what is loaded is the image at the commit point, and with the structures apart that is what the
new TSS held on entry. -/
theorem newTaskIsLoaded : Obligations.NewTaskIsLoaded := by
  intro e kind newSel nd p ret s t hgoes hok happart
  have harr := arrived_of_goes hgoes hok
  have hin := harr.inNewTask
  have ha := apart_of_switchApart happart
  have hfl := inNewTask_eflags hin
  have hseg := hin.sel
  have htrap := harr.trap
  refine ⟨fun h32 => ?w32, fun h16 => ?w16⟩
  case w32 =>
    have himg := arrivalImage_eq_image32 (e := e) (kind := kind) (newSel := newSel) (ret := ret) ha h32
    rw [himg] at hfl htrap
    refine ⟨by rw [hin.eip, himg], by rw [hin.gpr, himg], fun r => by rw [hseg, himg], by rw [hin.ldt, himg],
      by rw [hin.cr3, himg, loadedCr3_some rfl], hfl, htrap⟩
  case w16 =>
    have himg := arrivalImage_eq_image16 (e := e) (kind := kind) (newSel := newSel) (ret := ret) ha h16
    rw [himg] at hfl htrap
    have hgpr := hin.gpr
    rw [himg] at hgpr
    have hsel (r : SegName) : (t.seg r).sel =
        (image16 e (commit e p kind newSel nd ret s).draws s.mem p.newTss).seg r := by rw [hseg, himg]
    have hnull (r : SegName) (h0 : (t.seg r).sel = 0#16) : t.seg r = { sel := 0#16, hidden := none } := by
      rw [← h0, ← harr.null r (by rw [h0]; rfl)]
    refine ⟨by rw [hin.eip, himg]; rfl, ?_, ?_, ?_, ?_, ?_, ?_, ?_, ?_, hsel .es, hsel .cs, hsel .ss, hsel .ds,
      hnull .fs (hsel .fs), hnull .gs (hsel .gs), by rw [hin.ldt, himg]; rfl,
      by rw [hin.cr3, himg, loadedCr3_none rfl], hfl, htrap.trans (Bool.or_false _)⟩
    all_goals
      rw [hgpr]
      exact low_append _ _

/-! ## Exceptions undo or complete (42_task_switch.md R178, R179, R202) -/

/-- What every exception that ends instruction `i` must be: raised with nothing changed but the count of free
values, or in the new task of the switch that `i` dispatches, by the first check of step 13 that fails. -/
def UndoneOrComplete (i : Instr) (s : State) (x : Exc) (code : Option Half) (u : State) : Prop :=
  u = s ∨ u = { s with draws := s.draws + 1 } ∨
  ∃ kind newSel nd p held c after f,
    Dispatches Config.env s i kind newSel ∧ SwitchReady Config.env kind newSel nd p s ∧
    LoadReady Config.env kind newSel nd p s.nextEip s ∧
    loadChecks (arrivalState Config.env kind newSel nd p s.nextEip s) = held ++ c :: after ∧
    (∀ k ∈ held, checkFailure Config.env (arrivalState Config.env kind newSel nd p s.nextEip s) k = none) ∧
    checkFailure Config.env (arrivalState Config.env kind newSel nd p s.nextEip s) c = some f ∧
    f.ReportedAs kind x code ∧ StoppedAfter Config.env kind newSel nd p s.nextEip s held u

/-- The body `r` of instruction `i` raises only such exceptions. -/
def Precise (i : Instr) (s : State) (r : Except Stop State) : Prop :=
  ∀ x code u, r = .error (.raised x code u) → UndoneOrComplete i s x code u

section
variable {i : Instr} {s : State} {kind : SwitchKind}

theorem UndoneOrComplete.of_early {x : Exc} {code : Option Half} {u : State} (h : Early s u) :
    UndoneOrComplete i s x code u := h.imp_right .inl

theorem precise_switch {newSel : Half} (hd : Dispatches Config.env s i kind newSel) :
    Precise i s (taskSwitch Config.env kind newSel s.nextEip s) := by
  intro x code u h
  rcases taskSwitch_raised h with hearly | ⟨nd, p, held, c, after, f, hready, hload, ho, hh, hc, hf, -, hstop⟩
  · exact .of_early hearly
  · exact .inr (.inr ⟨kind, newSel, nd, p, held, c, after, f, hd, hready, hload, ho, hh, hc, hf, hstop⟩)

/-- A meaning that is a switch `i` dispatches, an exception before any effect, or a refusal is precise. -/
theorem precise_of_cases {r : Except Stop State}
    (h : (∃ newSel, Dispatches Config.env s i kind newSel ∧ r = taskSwitch Config.env kind newSel s.nextEip s) ∨
      (∃ x c u, r = .error (.raised x c u) ∧ Early s u) ∨ (∃ x, r = .error (.refused x))) : Precise i s r := by
  rcases h with ⟨newSel, hd, rfl⟩ | ⟨x, c, u, rfl, hu⟩ | ⟨x, rfl⟩
  · exact precise_switch hd
  · rintro _ _ _ ⟨⟩
    exact .of_early hu
  · rintro _ _ _ ⟨⟩

theorem precise_far {sel : Half} (hform : FarForm Config.env s i kind sel) :
    Precise i s (farTransfer Config.env kind sel s) := by
  refine precise_of_cases (kind := kind) ((farTransfer_cases Config.env kind sel s).imp_left ?_)
  rintro ⟨newSel, hadm, h⟩
  exact ⟨newSel, .inl ⟨sel, hform, hadm⟩, h⟩

theorem precise_farMem {size : OpSize} {m : MemRef}
    (hform : ∀ sel off, farPointer Config.env s size m = .ok (sel, off) → FarForm Config.env s i kind sel) :
    Precise i s (farThroughMemory Config.env kind size m s) := by
  intro x code u h
  unfold farThroughMemory at h
  split at h
  · next hptr =>
    cases h
    exact .of_early (farPointer_error hptr)
  · next ptr hptr => exact precise_far (hform ptr.1 ptr.2 hptr) x code u h

theorem precise_int (n : Byte) : Precise (.intImm8 n) s (softwareInterrupt Config.env n s) := by
  refine precise_of_cases (kind := .intN) ((softwareInterrupt_cases Config.env n s).imp_left ?_)
  rintro ⟨newSel, hadm, h⟩
  exact ⟨newSel, .inr (.inl ⟨rfl, n, rfl, hadm⟩), h⟩

theorem precise_iret (size : OpSize) : Precise (.iret size) s (returnFromTask Config.env s) := by
  refine precise_of_cases (kind := .iret) ((returnFromTask_cases Config.env s).imp_left ?_)
  rintro ⟨newSel, hadm, h⟩
  exact ⟨newSel, .inr (.inr ⟨rfl, size, rfl, hadm⟩), h⟩

theorem precise_ltr (src : LtrSrc) : Precise i s (ltr Config.env src s) := by
  intro x code u h
  rcases ltr_cases Config.env src s with ⟨_, _, _, _, hr⟩ | ⟨_, _, _, hr, hu⟩ | ⟨_, hr⟩ <;>
    rw [hr] at h <;> cases h
  exact .of_early hu

theorem precise_str (dst : StrDest) : Precise i s (str Config.env dst s) := by
  intro x code u h
  rcases str_cases Config.env dst s with ⟨_, _, hr⟩ | ⟨_, _, _, _, _, _, hr⟩ | ⟨_, _, _, hr, hu⟩ | ⟨_, hr⟩ <;>
    rw [hr] at h <;> cases h
  exact .of_early hu

/-- The guard of LTR and STR raises #UD in the state on entry. -/
theorem Precise.inProtectedMode {r : Except Stop State} (h : Precise i s r) :
    Precise i s (inProtectedMode s r) := by
  unfold Machine.inProtectedMode
  split
  · exact h
  · rintro _ _ _ ⟨⟩
    exact .inl rfl

/-- The guard of the other meanings refuses. -/
theorem Precise.requireProtectedMode {r : Except Stop State} (h : Precise i s r) :
    Precise i s (requireProtectedMode s r) := by
  unfold Machine.requireProtectedMode
  split
  · exact h
  · rintro _ _ _ ⟨⟩

end

/-- Every instruction is the end of a precise body. -/
theorem exec_precise (i : Instr) (s : State) : ∃ r, exec i s = settle Config.env r ∧ Precise i s r := by
  cases i with
  | strRm16 dst => exact ⟨_, rfl, .inProtectedMode (precise_str dst)⟩
  | ltrRm16 src => exact ⟨_, rfl, .inProtectedMode (precise_ltr src)⟩
  | callPtr32 sel off => exact ⟨_, rfl, .requireProtectedMode (precise_far ⟨rfl, rfl⟩)⟩
  | callPtr16 sel off => exact ⟨_, rfl, .requireProtectedMode (precise_far ⟨rfl, rfl⟩)⟩
  | callMem size m => exact ⟨_, rfl, .requireProtectedMode (precise_farMem fun _ off h => ⟨rfl, off, h⟩)⟩
  | jmpPtr32 sel off => exact ⟨_, rfl, .requireProtectedMode (precise_far ⟨rfl, rfl⟩)⟩
  | jmpPtr16 sel off => exact ⟨_, rfl, .requireProtectedMode (precise_far ⟨rfl, rfl⟩)⟩
  | jmpMem size m => exact ⟨_, rfl, .requireProtectedMode (precise_farMem fun _ off h => ⟨rfl, off, h⟩)⟩
  | iret size => exact ⟨_, rfl, .requireProtectedMode (precise_iret size)⟩
  | intImm8 n => exact ⟨_, rfl, .requireProtectedMode (precise_int n)⟩

/-- Settles O56: an exception that ends the run is the one the body raised (`settle_fault`), and every body is
precise. -/
theorem exceptionsUndoOrComplete : Obligations.ExceptionsUndoOrComplete := by
  intro i s u x code h
  obtain ⟨r, hr, hprecise⟩ := exec_precise i s
  exact hprecise x code u (settle_fault (hr ▸ h))

/-! ## Descriptors, error codes, byte order -/

/-- The low five bits of an access byte say S and the type of a system descriptor (20_memory.md R66). -/
theorem systemType_iff (b : Byte) (k : BitVec 4) :
    ((!b.getLsbD 4 && b.extractLsb' 0 4 == k) = true) ↔ b &&& 0x1F#8 = k.setWidth 8 := by
  revert b k
  decide

theorem extractLsb'_toNat_div {n : Nat} (x : BitVec n) (start w : Nat) :
    (x.extractLsb' start w).toNat = x.toNat / 2 ^ start % 2 ^ w := by
  rw [BitVec.extractLsb'_toNat, Nat.shiftRight_eq_div_pow]

/-- Eight bytes in memory order as a number. -/
theorem ofLe_eight_toNat (b0 b1 b2 b3 b4 b5 b6 b7 : Byte) :
    (ofLe 64 [b0, b1, b2, b3, b4, b5, b6, b7] : Desc).toNat =
      b0.toNat + 2 ^ 8 * b1.toNat + 2 ^ 16 * b2.toNat + 2 ^ 24 * b3.toNat + 2 ^ 32 * b4.toNat +
        2 ^ 40 * b5.toNat + 2 ^ 48 * b6.toNat + 2 ^ 56 * b7.toNat := by
  have := b0.isLt; have := b1.isLt; have := b2.isLt; have := b3.isLt
  have := b4.isLt; have := b5.isLt; have := b6.isLt; have := b7.isLt
  simp only [ofLe, leNat, BitVec.toNat_ofNat]
  omega

/-- Settles O57: the fields by place value (a field of 20_memory.md R66 is its bits of the 64-bit number), the flags
by `ofLe_eight_bit`, and the kinds by the low five bits of the access byte. -/
theorem descriptorFields : Obligations.DescriptorFields := by
  intro b0 b1 b2 b3 b4 b5 b6 b7 d
  have hd : d.toNat = _ := ofLe_eight_toNat b0 b1 b2 b3 b4 b5 b6 b7
  have hbit := ofLe_eight_bit b0 b1 b2 b3 b4 b5 b6 b7
  have := b0.isLt; have := b1.isLt; have := b2.isLt; have := b3.isLt
  have := b4.isLt; have := b5.isLt; have := b6.isLt; have := b7.isLt
  have hs : d.s = b5.getLsbD 4 := hbit 44
  have htype : d.type = b5.extractLsb' 0 4 :=
    BitVec.eq_of_toNat_eq (by simp only [Desc.type, extractLsb'_toNat_div]; omega)
  have hsys (k : BitVec 4) : ((!d.s && d.type == k) = true) ↔ b5 &&& 0x1F#8 = k.setWidth 8 := by
    rw [hs, htype, systemType_iff]
  refine ⟨?base, ?limit, htype, hs, ?dpl, hbit 47, hbit 55, ?attr, ?gate, ?tss, ?is32, ?busy, hsys 5#4, hsys 2#4,
    ?available⟩
  case base => exact BitVec.eq_of_toNat_eq (by simp only [Desc.base, append_toNat, extractLsb'_toNat_div]; omega)
  case limit => exact BitVec.eq_of_toNat_eq (by simp only [Desc.limit20, append_toNat, extractLsb'_toNat_div]; omega)
  case dpl => exact BitVec.eq_of_toNat_eq (by simp only [Desc.dpl, extractLsb'_toNat_div]; omega)
  case attr => exact BitVec.eq_of_toNat_eq (by simp only [Desc.attr, append_toNat, extractLsb'_toNat_div]; omega)
  case gate => exact BitVec.eq_of_toNat_eq (by simp only [Desc.gateSel, append_toNat, extractLsb'_toNat_div]; omega)
  case tss =>
    simp only [Desc.isTss, Bool.and_or_distrib_left, Bool.or_eq_true, hsys, or_assoc]
    rfl
  case is32 => exact (type_bit d 3 (by decide)).trans (hbit 43)
  case busy => exact (type_bit d 1 (by decide)).trans (hbit 41)
  case available =>
    simp only [availableTss, Bool.and_or_distrib_left, Bool.or_eq_true, hsys]
    exact or_comm

/-- Settles O59 (60_exceptions.md R232): `ErrSel` masks the two RPL bits, and a byte times 8 plus 2 does not
overflow 16 bits. -/
theorem errorCodeLayout : Obligations.ErrorCodeLayout := by
  intro sel n
  refine ⟨?index, ?_, ?_, ?_, ?vector⟩
  case index =>
    apply BitVec.eq_of_toNat_eq
    have hmask : (0xFFFC#16).extractLsb' 3 13 = BitVec.allOnes 13 := by decide
    rw [errSel, BitVec.extractLsb'_and, hmask, BitVec.and_allOnes]
  case vector =>
    have := n.isLt
    simp [errIdt]
    omega
  all_goals simp [errSel]

/-- Bytes written to a run of linear addresses, with paging off: they read back, and nothing else changes. -/
theorem writeBytes_flat_run (e : Config.Env) {s : State} (hp : s.paging = false) (la : Word) {bs : List Byte} {n : Nat}
    (hl : bs.length = n) (hn : n ≤ 2 ^ 32) :
    ∃ t, writeBytes e s sysWrite la bs = some t ∧ readBytes e t sysRead la n = some bs ∧
      t.mem.getList (contig la n) = bs ∧
      ∀ a : Nat, (∀ q ∈ contig la n, a ≠ q.toNat) → t.mem.get a = s.mem.get a := by
  subst hl
  have hback := getList_setList_same bs s.mem (contig_nodup la hn) (contig_length la _).symm
  have hp' : (s.setMem (s.mem.setList (contig la bs.length) bs)).paging = false := hp
  exact ⟨_, writeBytes_flat hp sysWrite la bs, (readBytes_flat hp' sysRead la _).trans (congrArg some hback), hback,
    fun a ha => Memory.get_setList_of_notMem bs s.mem ha⟩

/-- Settles O60: the bytes of a value, least significant first, written as a run. -/
theorem memoryIsLittleEndian : Obligations.MemoryIsLittleEndian := by
  intro e s la v h hp
  refine ⟨?word, ?half⟩
  case word =>
    obtain ⟨t, hw, hr, hb, hframe⟩ := writeBytes_flat_run e hp la (Word.bytes_length v) (by decide)
    rw [contig_four, wordBytes_eq] at hb
    simp only [Memory.getList, List.map_cons, List.cons.injEq] at hb
    obtain ⟨hb0, -, -, hb3, -⟩ := hb
    exact ⟨t, hw, by rw [hr, Option.map_some, ofLe_wordBytes], hb0, hb3, hframe⟩
  case half =>
    obtain ⟨t, hw, hr, hb, hframe⟩ := writeBytes_flat_run e hp la (Half.bytes_length h) (by decide)
    rw [halfBytes_eq] at hb
    simp only [contig, Memory.getList, List.map_cons, List.cons.injEq] at hb
    obtain ⟨hb0, hb1, -⟩ := hb
    exact ⟨t, hw, by rw [hr, Option.map_some, ofLe_halfBytes], hb0, hb1, hframe⟩

end Sys2Proof.Machine
end
